-- ==== Sys2Proof/Word.lean ====
section
/-!
DEFINITION. The word types of the codec: a byte, a host register word and a pixel
of a frame buffer.
-/

namespace Sys2Proof

/-- One entry of an 8-bit memory (20_memory.md R60). -/
abbrev Byte := BitVec 8

/-- A host-visible register or a command word, 32 bits (R23, R100). -/
abbrev Word := BitVec 32

/-- One entry of E_REF or D_CUR, 7 bits (R37, R50). -/
abbrev Pixel := BitVec 7

end Sys2Proof
end

