-- ==== Sys2Proof/Config.lean ====
section
/-!
DEFINITION. What a build of the block fixes (R8, R10, R23) and the free values of
everything the spec leaves unspecified (R18, R238, R262; logs 1, 4 and 5).
-/

namespace Sys2Proof

/-- The build parameters (00_scope.md R8 and R10, 10_state.md R23). No step changes them. -/
structure Params where
  /-- `NPIX`, the frame length in pixels (R8) -/
  npix : Nat
  /-- `OBUF_CAP`, entries of E_OBUF (R10) -/
  obufCap : Nat
  /-- `IBUF_CAP`, entries of D_IBUF (R10) -/
  ibufCap : Nat
  /-- `BLOCK_BASE`, the platform address of the register window (R23) -/
  blockBase : Nat
  deriving DecidableEq, Repr

/-- The bounds R8, R10 and R23 put on the parameters. -/
abbrev Params.valid (p : Params) : Prop :=
  (1 ≤ p.npix ∧ p.npix < 2 ^ 24) ∧ (1 ≤ p.obufCap ∧ p.obufCap < 2 ^ 24) ∧
    (1 ≤ p.ibufCap ∧ p.ibufCap < 2 ^ 24) ∧ p.blockBase % 512 = 0

/-- The build that `State.reset` shows: the document's example geometry 160 x 128 (R8) and the
largest buffers R10 allows. DESIGN CHOICE, unsafe (log 1): the spec leaves all four open. -/
def Params.example160x128 : Params :=
  { npix := 20480, obufCap := 16777215, ibufCap := 16777215, blockBase := 0 }

/-- `PAL_CAP`: the entries of each palette buffer, the largest legal palette (R10). -/
def palCap : Nat := 384

/-- `MIN_SAME`: the shortest run the encoder codes as SAME (R11). -/
def minSame : Nat := 4

/-- `MAX_RUN`: the longest run a token can carry (R11). -/
def maxRun : Nat := 128

/-- The value of entry `i` of a `w`-bit memory nothing has written since its contents became
unspecified for the `fill`-th time (R238, R262): a free value, nothing constrains it (log 4). -/
opaque Config.freeEntry (w : Nat) (fill i : Nat) : BitVec w

/-- The `k`-th free value of a `w`-bit register that a mid-operation error leaves unspecified
(R238): nothing constrains it (log 5). -/
opaque Config.freeBits (w : Nat) (k : Nat) : BitVec w

end Sys2Proof
end

