-- ==== Sys2Proof/Syntax.lean ====
section
/-!
DEFINITION. The operations of the block (R2): the seven host commands and the two run
tokens, one constructor per row of spec/opcode_table.json; the words that encode them,
each with the port it stands at; and the document's runs (R15).
-/

namespace Sys2Proof

/-- One constructor per row of the opcode table (R109). -/
inductive Instr where
  /-- ENC_RESET (R151) -/
  | encReset
  /-- ENC_HEADER nframes, interval, bpp (R154) -/
  | encHeader (nframes interval bpp : Byte)
  /-- ENC_FRAME len, the frame length the host declares (R155) -/
  | encFrame (len : BitVec 24)
  /-- DEC_RESET (R193) -/
  | decReset
  /-- DEC_INIT len, the input length in bytes (R191) -/
  | decInit (len : BitVec 24)
  /-- DEC_FRAME (R194) -/
  | decFrame
  /-- DEC_CHECK_END (R201) -/
  | decCheckEnd
  /-- SAME n: the next `n` pixels keep their values (R95, R198) -/
  | same (n : Nat)
  /-- DIFF n: the next `n` pixels are the `n` literals that follow the run header in the
  stream (R96, R199); the literals are read when the token is executed (log 13) -/
  | diff (n : Nat)
  deriving DecidableEq, Repr

/-- An encoded instruction: its word, tagged with the port that interprets it. E_CMD is ENC's
and D_CMD is DEC's (R100); a run header stands in the wire stream (R93). -/
inductive Code where
  /-- a word written to E_CMD -/
  | eCmd (w : Word)
  /-- a word written to D_CMD -/
  | dCmd (w : Word)
  /-- the 8-bit run header at the decoder's stream cursor -/
  | wire (h : Byte)
  deriving DecidableEq, Repr

/-- Why a command word decodes to no instruction. -/
inductive DecodeError where
  /-- a reserved OP written to E_CMD: 0x0 and 0x4..0xF (R103) -/
  | reservedEncOp (op : BitVec 4)
  /-- a reserved OP written to D_CMD: 0x0 and 0x5..0xF (R103) -/
  | reservedDecOp (op : BitVec 4)
  deriving DecidableEq, Repr

/-- A run with its literals (R15): `Same(n)` and `Diff(n, [v0, ..., v(n-1)])`, where `n` is the
number of literals. -/
inductive Run where
  | same (n : Nat)
  | diff (literals : List Pixel)
  deriving DecidableEq, Repr

end Sys2Proof
end

