-- ==== Sys2Proof/WellFormed.lean ====
section
/-!
DEFINITION. Which terms of `Instr` stand for an encoding (R94): the command operands are
bit vectors of their field's width, so only a run's length needs a check.
-/

namespace Sys2Proof

/-- A run length an encoding can carry: no run has length 0, and none exceeds MAX_RUN (R94). -/
def runLengthOk (n : Nat) : Bool := 1 ≤ n && n ≤ maxRun

/-- The instruction has an encoding. -/
def Instr.wf : Instr → Bool
  | .encReset => true
  | .encHeader _ _ _ => true
  | .encFrame _ => true
  | .decReset => true
  | .decInit _ => true
  | .decFrame => true
  | .decCheckEnd => true
  | .same n => runLengthOk n
  | .diff n => runLengthOk n

end Sys2Proof
end

