-- ==== Sys2Proof/Decode.lean ====
section
/-!
DEFINITION. The decoder and the encoder of command words and run headers
(30_encoding.md R93 to R103), and the reading of a row of the opcode table.
-/

namespace Sys2Proof

/-! ## Fields -/

/-- OP, bits [3:0] of a command word (R100). -/
def opField (w : Word) : BitVec 4 := w.extractLsb' 0 4

/-- LENGTH_FIELD of a run of length `n` (R94). -/
def lengthField (n : Nat) : Nat := n % 128

/-- The run length a LENGTH_FIELD stands for: a stored 0 denotes 128 (R94). -/
def runLength (f : Nat) : Nat := if f = 0 then 128 else f

/-- MODE of a run header, bit 0: 0 is SAME, 1 is DIFF (R93). -/
def modeField (h : Byte) : Nat := (h.extractLsb' 0 1).toNat

/-- LENGTH_FIELD of a run header, bits [7:1] (R93). -/
def headerLengthField (h : Byte) : Nat := (h.extractLsb' 1 7).toNat

/-- The run header with the given MODE and LENGTH_FIELD: `MODE | (LENGTH_FIELD << 1)` (R93). -/
def runHeader (mode lf : Nat) : Byte := BitVec.ofNat 8 (mode ||| (lf <<< 1))

/-! ## Decoding -/

/-- The ENC command of a word written to E_CMD (R101); every other OP is reserved (R103). -/
def decodeEnc (w : Word) : Except DecodeError Instr :=
  match (opField w).toNat with
  | 1 => .ok .encReset
  | 2 => .ok (.encHeader (w.extractLsb' 8 8) (w.extractLsb' 16 8) (w.extractLsb' 24 8))
  | 3 => .ok (.encFrame (w.extractLsb' 8 24))
  | _ => .error (.reservedEncOp (opField w))

/-- The DEC command of a word written to D_CMD (R102); every other OP is reserved (R103). -/
def decodeDec (w : Word) : Except DecodeError Instr :=
  match (opField w).toNat with
  | 1 => .ok .decReset
  | 2 => .ok (.decInit (w.extractLsb' 8 24))
  | 3 => .ok .decFrame
  | 4 => .ok .decCheckEnd
  | _ => .error (.reservedDecOp (opField w))

/-- The token of a run header: all 256 values decode (R104). -/
def decodeRunHeader (h : Byte) : Instr :=
  if modeField h = 1 then .diff (runLength (headerLengthField h))
  else .same (runLength (headerLengthField h))

/-- The decoder: total on every word at every port. -/
def decode : Code → Except DecodeError Instr
  | .eCmd w => decodeEnc w
  | .dCmd w => decodeDec w
  | .wire h => .ok (decodeRunHeader h)

/-! ## Encoding -/

/-- The word of an instruction and the port it stands at (R93, R94, R101, R102); a bit no operand
uses is written as 0 (R100). -/
def encode : Instr → Code
  | .encReset => .eCmd 0x00000001#32
  | .encHeader nf iv bpp => .eCmd (bpp ++ iv ++ nf ++ 0x02#8)
  | .encFrame len => .eCmd (len ++ 0x03#8)
  | .decReset => .dCmd 0x00000001#32
  | .decInit len => .dCmd (len ++ 0x02#8)
  | .decFrame => .dCmd 0x00000003#32
  | .decCheckEnd => .dCmd 0x00000004#32
  | .same n => .wire (runHeader 0 (lengthField n))
  | .diff n => .wire (runHeader 1 (lengthField n))

/-- The bits of its word that an instruction's OP and operands use (R101, R102); the others are
ignored (R100). A run header uses all 8 of its bits (R93). -/
def usedBits : Instr → Word
  | .encReset => 0x0000000F#32
  | .encHeader _ _ _ => 0xFFFFFF0F#32
  | .encFrame _ => 0xFFFFFF0F#32
  | .decReset => 0x0000000F#32
  | .decInit _ => 0xFFFFFF0F#32
  | .decFrame => 0x0000000F#32
  | .decCheckEnd => 0x0000000F#32
  | .same _ => 0x000000FF#32
  | .diff _ => 0x000000FF#32

/-- A code with the bits outside a mask written as 0. -/
def maskCode (mask : Word) : Code → Code
  | .eCmd w => .eCmd (w &&& mask)
  | .dCmd w => .dCmd (w &&& mask)
  | .wire h => .wire (h &&& mask.extractLsb' 0 8)

/-! ## Rows of the opcode table -/

/-- The port at which a row of the opcode table with `nbits` bits reads `w`, with every higher bit 0.
The table does not name the port and its words collide (R109: the OP values of the two units
overlap, and an 8-bit row may be a command whose operands have no bits in the table), so the
choice is the model's, DESIGN CHOICE, safe (log 9): among the rows of that width, the one with the
most fixed bits, and E_CMD before D_CMD. Rows of 8 bits: ENC_HEADER, ENC_FRAME, SAME, DIFF;
rows of 32 bits: ENC_RESET, DEC_FRAME, DEC_CHECK_END. -/
def tableCode (nbits w : Nat) : Code :=
  let c : Word := BitVec.ofNat 32 (w % 2 ^ nbits)
  if nbits ≤ 8 then
    if w % 16 = 2 ∨ w % 16 = 3 then .eCmd c else .wire (BitVec.ofNat 8 (w % 2 ^ nbits))
  else
    if w % 16 = 3 ∨ w % 16 = 4 then .dCmd c else .eCmd c

/-- The instruction the decoder reads from an instruction whose bits are `w`, numbered as
spec/opcode_table.json numbers them. -/
def decodeTableWord (nbits w : Nat) : Option Instr :=
  match decode (tableCode nbits w) with
  | .ok i => some i
  | .error _ => none

end Sys2Proof
end

