-- ==== Sys2Proof/Machine/State.lean ====
section
/-!
DEFINITION. The state of the block (10_state.md R20): the registers and memories of ENC and
of DEC, the host's pending accesses, and the state after the reset input (R261, R262).
All of it is plain data.
-/

namespace Sys2Proof.Machine

/-! ## Memories -/

/-- A memory of `w`-bit entries, indexed from 0 (R60). `cells` lists the entries written since
the contents were last unspecified, indices strictly rising (for `w = 8` it is a list of
`Host.Cell`); an index not listed has no value of its own and reads as a free value,
`Config.freeEntry w fill i` (R262, log 4). -/
structure Mem (w : Nat) where
  /-- which free contents the unlisted entries have -/
  fill : Nat
  /-- the written entries -/
  cells : List (Nat × BitVec w)
  deriving DecidableEq, Repr

/-- Contents that are unspecified throughout (R238, R262). -/
def Mem.unspecified (w fill : Nat) : Mem w := { fill := fill, cells := [] }

/-! ## Register fields -/

/-- E_PHASE (R26). Values 4, 5 and 6 are never taken. -/
inductive EncPhase where
  /-- 0: no header has been written since reset -/
  | idle
  /-- 1: a header has been written and no frame yet -/
  | header
  /-- 2: at least 1 and fewer than E_NFRAMES frames have been written -/
  | stream
  /-- 3: the stream is complete -/
  | done
  /-- 7: a command failed -/
  | error
  deriving DecidableEq, Repr

/-- D_PHASE (R40). Values 4, 5 and 6 are never taken. -/
inductive DecPhase where
  /-- 0: no stream has been started since reset -/
  | idle
  /-- 1: the header has been read and fewer than D_NFRAMES frames have been read -/
  | active
  /-- 2: D_NFRAMES frames have been read, and the trailing-data check is pending -/
  | allRead
  /-- 3: the trailing-data check passed -/
  | done
  /-- 7: a command failed -/
  | error
  deriving DecidableEq, Repr

/-- An error code (R230). Codes 8 to 15 are never recorded. -/
inductive ErrCode where
  /-- 0: no error since reset -/
  | none
  /-- 1: header field out of range, or palette length mismatch (R231) -/
  | config
  /-- 2: frame length is not NPIX, or a pixel value is not below 2^bpp (R232) -/
  | encodeInvariant
  /-- 3: the reader exhausts D_IBUF inside a field (R233) -/
  | decodeTruncated
  /-- 4: a run's length exceeds the pixels left in the frame (R234) -/
  | decodeFraming
  /-- 5: bytes remain after the declared frame count (R237) -/
  | decodeTrailing
  /-- 6: reserved OP, command in the wrong phase, or DEC_INIT length above IBUF_CAP (R235) -/
  | illegalCommand
  /-- 7: E_OBUF is full when a byte must be stored (R236) -/
  | outputOverflow
  deriving DecidableEq, Repr

/-! ## The units -/

/-- The encoder unit's registers and memories (R20, R25 to R37). -/
structure Enc where
  /-- E_STATUS.PHASE -/
  phase : EncPhase
  /-- E_STATUS.ERR -/
  err : ErrCode
  /-- E_STATUS.BUSY (R33) -/
  busy : Bool
  /-- E_PAL_LEN.PAL_LEN (R28) -/
  palLen : BitVec 16
  /-- E_OUT_LEN.OUT_LEN (R29) -/
  outLen : BitVec 24
  /-- E_HDR.NFRAMES (R30) -/
  nframes : BitVec 8
  /-- E_HDR.INTERVAL (R30) -/
  interval : BitVec 8
  /-- E_HDR.BPP (R30) -/
  bpp : BitVec 3
  /-- E_FRAMES.FRAMES (R32) -/
  frames : BitVec 8
  /-- W_ACC, the writer's pending bits (R31) -/
  wAcc : BitVec 7
  /-- W_CNT, how many bits are pending (R31) -/
  wCnt : BitVec 3
  /-- E_PAL, 384 entries (R34) -/
  pal : Mem 8
  /-- E_FIN, NPIX entries (R35) -/
  fin : Mem 8
  /-- E_OBUF, OBUF_CAP entries (R36) -/
  obuf : Mem 8
  /-- E_REF, NPIX entries (R37) -/
  ref : Mem 7
  deriving DecidableEq, Repr

/-- The decoder unit's registers and memories (R20, R39 to R50). EOF is no field: it is computed
from `pos` and `inLen` (R43). -/
structure Dec where
  /-- D_STATUS.PHASE -/
  phase : DecPhase
  /-- D_STATUS.ERR -/
  err : ErrCode
  /-- D_STATUS.BUSY (R33): 1 only inside DEC_FRAME, between the tokens of a run frame (log 7) -/
  busy : Bool
  /-- D_IN_LEN.IN_LEN (R41) -/
  inLen : BitVec 24
  /-- D_POS.POS (R44) -/
  pos : BitVec 24
  /-- D_HDR.NFRAMES (R46) -/
  nframes : BitVec 8
  /-- D_HDR.INTERVAL (R46) -/
  interval : BitVec 8
  /-- D_HDR.BPP (R46) -/
  bpp : BitVec 3
  /-- D_FRAMES.FRAMES (R47) -/
  frames : BitVec 8
  /-- R_ACC, the reader's pending bits (R45) -/
  rAcc : BitVec 7
  /-- R_CNT, how many bits are pending (R45) -/
  rCnt : BitVec 3
  /-- the pixel position `p` of the run frame being decoded, 0 between commands (R196) -/
  pix : Nat
  /-- D_IBUF, IBUF_CAP entries (R48) -/
  ibuf : Mem 8
  /-- D_PAL, 384 entries (R49) -/
  pal : Mem 8
  /-- D_CUR, NPIX entries (R50) -/
  cur : Mem 7
  deriving DecidableEq, Repr

/-! ## The host -/

/-- The memories the host can reach through their ports (R60, R67): all but E_REF. -/
inductive HostMem where
  | ePal
  | eFin
  | eObuf
  | dIbuf
  | dPal
  | dCur
  deriving DecidableEq, Repr

/-- What the host does to the block, one event a step (R17, R69, R70, R260). -/
inductive HostEvent where
  /-- write a register word at a platform address (R23) -/
  | regWrite (addr : Nat) (w : Word)
  /-- read a register word at a platform address (R23) -/
  | regRead (addr : Nat)
  /-- write one entry through a memory port (R60) -/
  | memWrite (m : HostMem) (i : Nat) (b : Byte)
  /-- read one entry through a memory port (R60) -/
  | memRead (m : HostMem) (i : Nat)
  /-- pulse the reset input, which resets both units (R260) -/
  | resetInput
  deriving DecidableEq, Repr

/-! ## The state -/

/-- The state of the machine. `params` never changes; `host`, `rdata` and `free` are the model's
own fields (logs 2, 3 and 4), everything else is the spec's. -/
structure State where
  /-- the build parameters (R8, R10, R23) -/
  params : Params
  /-- the encoder unit -/
  enc : Enc
  /-- the decoder unit -/
  dec : Dec
  /-- the host's events not yet taken, oldest first (log 2) -/
  host : List HostEvent
  /-- what the host's last read returned (log 3) -/
  rdata : Word
  /-- the number of the next free value (logs 4 and 5) -/
  free : Nat
  deriving DecidableEq, Repr

/-- Why a step stops with a fault: never. Every error of the block is an error code recorded in
its unit (R230, R238) and a next state, and every host access has an effect or is ignored (R66,
R67), so the type has no constructor. -/
inductive Fault where
  deriving DecidableEq, Repr

/-- Why a step is refused. -/
inductive Refusal where
  /-- an instruction that has no meaning yet, raised by `exec`'s arm for it; safe, since nothing is
  claimed of it. Every instruction has its meaning, so no arm raises it. -/
  | notModelled (mnemonic : String)
  deriving DecidableEq, Repr

/-! ## Reset -/

/-- ENC after the reset input (R261), its memories unspecified and numbered from `k` (R262). -/
def Enc.afterReset (k : Nat) : Enc :=
  { phase := .idle, err := .none, busy := false, palLen := 0, outLen := 0, nframes := 0,
    interval := 0, bpp := 0, frames := 0, wAcc := 0, wCnt := 0,
    pal := .unspecified 8 k, fin := .unspecified 8 (k + 1), obuf := .unspecified 8 (k + 2),
    ref := .unspecified 7 (k + 3) }

/-- DEC after the reset input (R261), its memories unspecified and numbered from `k` (R262). -/
def Dec.afterReset (k : Nat) : Dec :=
  { phase := .idle, err := .none, busy := false, inLen := 0, pos := 0, nframes := 0,
    interval := 0, bpp := 0, frames := 0, rAcc := 0, rCnt := 0, pix := 0,
    ibuf := .unspecified 8 k, pal := .unspecified 8 (k + 1), cur := .unspecified 7 (k + 2) }

/-- The machine of a given build right after the reset input, with no host event pending. -/
def State.resetOf (p : Params) : State :=
  { params := p, enc := .afterReset 0, dec := .afterReset 4, host := [], rdata := 0, free := 7 }

/-- The machine right after reset (R261, R262), in the build of `Params.example160x128` (log 1). -/
def State.reset : State := State.resetOf Params.example160x128

end Sys2Proof.Machine
end

