-- ==== Sys2Proof/Machine/Ops.lean ====
section
/-!
DEFINITION. The named operations over memories and registers: reading and writing one entry
(R66), the error step `raise` that every rule shares (R238) with what a mid-operation error
leaves unspecified, the sticky ERROR phase (R239), and the way back from it, reset (R243, R260).
-/

namespace Sys2Proof.Machine

/-! ## Memory entries -/

/-- The listed value of entry `i`, if it is listed. -/
def findCell {w : Nat} : List (Nat × BitVec w) → Nat → Option (BitVec w)
  | [], _ => none
  | (j, v) :: rest, i => if i = j then some v else findCell rest i

/-- Store `v` at index `i`, keeping the indices rising. -/
def insertCell {w : Nat} : List (Nat × BitVec w) → Nat → BitVec w → List (Nat × BitVec w)
  | [], i, v => [(i, v)]
  | (j, u) :: rest, i, v =>
    if i < j then (i, v) :: (j, u) :: rest
    else if i = j then (i, v) :: rest
    else (j, u) :: insertCell rest i v

/-- `M[i]` (R12, R13). An entry nothing has written reads as a free value (R262, log 4). -/
def Mem.read {w : Nat} (m : Mem w) (i : Nat) : BitVec w :=
  (findCell m.cells i).getD (Config.freeEntry w m.fill i)

/-- `M[i] <- v` (R12, R13). -/
def Mem.write {w : Nat} (m : Mem w) (i : Nat) (v : BitVec w) : Mem w :=
  { m with cells := insertCell m.cells i v }

/-- `M[i + k] <- vs[k]` for every `k`, in increasing order. -/
def Mem.writeList {w : Nat} (m : Mem w) : Nat → List (BitVec w) → Mem w
  | _, [] => m
  | i, v :: vs => Mem.writeList (m.write i v) (i + 1) vs

/-- `[M[i], ..., M[i + n - 1]]`. -/
def Mem.readList {w : Nat} (m : Mem w) (i n : Nat) : List (BitVec w) :=
  (List.range n).map fun k => m.read (i + k)

/-- The indices of the cells are at least `lo`, strictly rising, and below `size`. -/
def cellsWf {w : Nat} (size : Nat) : Nat → List (Nat × BitVec w) → Bool
  | _, [] => true
  | lo, (j, _) :: rest => lo ≤ j && j < size && cellsWf size (j + 1) rest

/-- The canonical form of a memory of `size` entries. An unlisted entry has no value of its own, so
every written entry is listed and none is left out (log 4). -/
def Mem.wf {w : Nat} (size : Nat) (m : Mem w) : Bool := cellsWf size 0 m.cells

/-! ## The error step -/

/-- The two units (R17). -/
inductive BlockUnit where
  | enc
  | dec
  deriving DecidableEq, Repr

/-- `raise code` in a rule of unit `u` (R238): ERR and PHASE are written and the command ends, so BUSY
is 0 (R33) and the position inside a run frame is gone (R196). Nothing else changes, which is
all an error raised before any write does. -/
def raise (u : BlockUnit) (code : ErrCode) (s : State) : State :=
  match u with
  | .enc => { s with enc := { s.enc with err := code, phase := .error, busy := false } }
  | .dec => { s with dec := { s.dec with err := code, phase := .error, busy := false, pix := 0 } }

/-- A free value of at most `bound` (logs 5 and 6). -/
def freeUpTo (w k bound : Nat) : BitVec w :=
  BitVec.ofNat w ((Config.freeBits w k).toNat % (bound + 1))

/-- The pending bits that go with a count: every bit at or above the count is 0 (R31, R45). -/
def freePending (k : Nat) (cnt : BitVec 3) : BitVec 7 :=
  BitVec.ofNat 7 ((Config.freeBits 7 k).toNat % 2 ^ cnt.toNat)

/-- What OUTPUT_OVERFLOW leaves unspecified of ENC (R238, R71): E_OBUF, E_OUT_LEN (never above
OBUF_CAP, R29), W_CNT and W_ACC (R31). E_HDR, E_FRAMES and E_REF keep their values, since a failed
command does not write them (R30, R157, R37; logs 5, 6 and 15). -/
def loseEncOutput (s : State) : State :=
  { s with
    enc := { s.enc with
      obuf := .unspecified 8 s.free
      outLen := freeUpTo 24 (s.free + 1) s.params.obufCap
      wCnt := Config.freeBits 3 (s.free + 2)
      wAcc := freePending (s.free + 3) (Config.freeBits 3 (s.free + 2)) }
    free := s.free + 4 }

/-- The reader's registers after a mid-operation error of DEC (R238): D_POS (never above D_IN_LEN,
R44), R_CNT and R_ACC (R45) are unspecified (log 5). -/
def loseReader (k : Nat) (d : Dec) : Dec :=
  { d with
    pos := freeUpTo 24 k d.inLen.toNat
    rCnt := Config.freeBits 3 (k + 1)
    rAcc := freePending (k + 2) (Config.freeBits 3 (k + 1)) }

/-- What a mid-operation error of DEC_INIT leaves unspecified (R238, R71): D_POS, R_ACC, R_CNT, D_HDR
and D_PAL. D_IN_LEN keeps the value `len` DEC_INIT set (R238), and D_FRAMES its own (R47). -/
def loseDecHeader (len : BitVec 24) (s : State) : State :=
  { s with
    dec := { loseReader s.free { s.dec with inLen := len } with
      nframes := Config.freeBits 8 (s.free + 3)
      interval := Config.freeBits 8 (s.free + 4)
      bpp := Config.freeBits 3 (s.free + 5)
      pal := .unspecified 8 (s.free + 6) }
    free := s.free + 7 }

/-- What a mid-operation error of DEC_FRAME leaves unspecified (R238, R71): D_POS, R_ACC, R_CNT and
D_CUR (R50). D_FRAMES keeps its value (R47, R200). -/
def loseDecFrame (s : State) : State :=
  { s with
    dec := { loseReader s.free s.dec with cur := .unspecified 7 (s.free + 3) }
    free := s.free + 4 }

/-- The outcome of an ENC command raised in EP_ERROR: every command but ENC_RESET is ignored (R239);
otherwise the command runs. -/
def unlessEncError (s : State) (command : Host.Outcome State Fault Refusal) :
    Host.Outcome State Fault Refusal :=
  if s.enc.phase = .error then .next s else command

/-- The outcome of a DEC command raised in DP_ERROR: every command but DEC_RESET is ignored (R239);
otherwise the command runs. -/
def unlessDecError (s : State) (command : Host.Outcome State Fault Refusal) :
    Host.Outcome State Fault Refusal :=
  if s.dec.phase = .error then .next s else command

/-! ## The way back: reset -/

/-- Every ENC register at its reset value, the memories as they are (R151, R261, R262). -/
def resetEncRegisters (e : Enc) : Enc :=
  { Enc.afterReset 0 with pal := e.pal, fin := e.fin, obuf := e.obuf, ref := e.ref }

/-- Every DEC register at its reset value, the memories as they are (R193, R261, R262). -/
def resetDecRegisters (d : Dec) : Dec :=
  { Dec.afterReset 0 with ibuf := d.ibuf, pal := d.pal, cur := d.cur }

/-- The reset input (R260): both units at their reset values, every memory unspecified (R262). -/
def resetBlock (s : State) : State :=
  { s with enc := .afterReset s.free, dec := .afterReset (s.free + 4), free := s.free + 7 }

end Sys2Proof.Machine
end

