-- ==== Sys2Proof/Machine/Flags.lean ====
section
/-!
DEFINITION. The block's status flags PHASE, ERR, BUSY and EOF (R51) as the host sees them in
E_STATUS and D_STATUS (R25, R39). There are no arithmetic condition codes.
-/

namespace Sys2Proof.Machine

/-- The value of E_PHASE in E_STATUS[2:0] (R26). -/
def encPhaseCode : EncPhase → BitVec 3
  | .idle => 0
  | .header => 1
  | .stream => 2
  | .done => 3
  | .error => 7

/-- The value of D_PHASE in D_STATUS[2:0] (R40). -/
def decPhaseCode : DecPhase → BitVec 3
  | .idle => 0
  | .active => 1
  | .allRead => 2
  | .done => 3
  | .error => 7

/-- The value of an error code in STATUS[7:4] (R230). -/
def errCodeBits : ErrCode → BitVec 4
  | .none => 0
  | .config => 1
  | .encodeInvariant => 2
  | .decodeTruncated => 3
  | .decodeFraming => 4
  | .decodeTrailing => 5
  | .illegalCommand => 6
  | .outputOverflow => 7

/-- Eof(): every input byte has been consumed, `D_POS = D_IN_LEN` (R43, R137). -/
def eof (d : Dec) : Bool := d.pos = d.inLen

/-- E_STATUS: [2:0] PHASE, [7:4] ERR, [8] BUSY; the other bits read 0 (R25). -/
def encStatus (e : Enc) : Word :=
  0#23 ++ BitVec.ofBool e.busy ++ errCodeBits e.err ++ 0#1 ++ encPhaseCode e.phase

/-- D_STATUS: [2:0] PHASE, [7:4] ERR, [8] BUSY, [9] EOF; the other bits read 0 (R39). -/
def decStatus (d : Dec) : Word :=
  0#22 ++ BitVec.ofBool (eof d) ++ BitVec.ofBool d.busy ++ errCodeBits d.err ++ 0#1 ++
    decPhaseCode d.phase

end Sys2Proof.Machine
end

