-- ==== Sys2Proof/Machine/Operands.lean ====
section
/-!
DEFINITION. The operands of the commands and their checks: the header fields (R152, R192), the
input frame (R158) and the reference frame (R160) as sequences of pixels.
-/

namespace Sys2Proof.Machine

/-- The palette length in bytes for a pixel width, `3 · 2^bpp` (R9, R152). -/
def paletteBytes (bpp : Nat) : Nat := 3 * 2 ^ bpp

/-- The range checks on the three header values, for the writer (R152) and the reader (R192). -/
def headerInRange (nf iv bpp : Nat) : Bool :=
  (0 < nf && nf < 256) && (0 < iv && iv < 256) && (0 < bpp && bpp < 8)

/-- HeaderValid(nf, iv, bpp, plen) (R152). -/
def headerValid (nf iv bpp plen : Nat) : Bool :=
  headerInRange nf iv bpp && plen = paletteBytes bpp

/-- BPP, the low three bits of the checked `bpp` operand (R154, R192). -/
def bppField (bpp : Byte) : BitVec 3 := bpp.extractLsb' 0 3

/-- FrameValid(len): the declared length is NPIX and every entry of E_FIN is below `2^E_BPP` (R158). -/
def frameValid (npix : Nat) (len : BitVec 24) (e : Enc) : Bool :=
  len.toNat = npix && (e.fin.readList 0 npix).all fun b => b.toNat < 2 ^ e.bpp.toNat

/-- The frame ENC_FRAME encodes, `F[k] <- E_FIN[k]` (R155), each pixel in the 7 bits of a frame
entry: a valid pixel is below `2^E_BPP`, so it loses nothing (R97). -/
def frameIn (npix : Nat) (e : Enc) : List Pixel :=
  (e.fin.readList 0 npix).map fun b => b.setWidth 7

/-- The reference frame, `E_REF[0 .. NPIX-1]` (R37). -/
def referenceFrame (npix : Nat) (e : Enc) : List Pixel := e.ref.readList 0 npix

end Sys2Proof.Machine
end

