-- ==== Sys2Proof/Machine/Bitstream.lean ====
section
/-!
DEFINITION. The bitstream primitives (40_bitstream.md): the writer of ENC and the reader of DEC.
A primitive that raises an error answers with its code; the command it belongs to performs the
error step (R238). Every field is LSB first (R14, R62).
-/

namespace Sys2Proof.Machine

/-! ## The writer (R120 to R127) -/

/-- EmitByte(b): store one completed byte (R122). -/
def emitByte (cap : Nat) (b : Byte) (e : Enc) : Except ErrCode Enc :=
  if e.outLen.toNat = cap then .error .outputOverflow
  else .ok { e with obuf := e.obuf.write e.outLen.toNat b, outLen := e.outLen + 1 }

/-- WriteBits(v, n) for `0 <= n <= 8` (R121). A new field starts at bit position W_CNT of the
pending byte (R127). R121's loop runs at most once, because W_CNT + n <= 15 (log 16). -/
def writeBits (cap v n : Nat) (e : Enc) : Except ErrCode Enc :=
  if 2 ^ n ≤ v then .error .encodeInvariant
  else
    let acc := e.wAcc.toNat ||| (v <<< e.wCnt.toNat)
    let cnt := e.wCnt.toNat + n
    if 8 ≤ cnt then
      match emitByte cap (BitVec.ofNat 8 acc) e with
      | .error c => .error c
      | .ok e' =>
        .ok { e' with wAcc := BitVec.ofNat 7 (acc >>> 8), wCnt := BitVec.ofNat 3 (cnt - 8) }
    else .ok { e with wAcc := BitVec.ofNat 7 acc, wCnt := BitVec.ofNat 3 cnt }

/-- Flush(): end the partial byte with zero padding (R123). -/
def flush (cap : Nat) (e : Enc) : Except ErrCode Enc :=
  if 0 < e.wCnt.toNat then
    match emitByte cap (e.wAcc.setWidth 8) e with
    | .error c => .error c
    | .ok e' => .ok { e' with wAcc := 0, wCnt := 0 }
  else .ok { e with wAcc := 0, wCnt := 0 }

/-- WriteBits of each value of a list in turn, every field `n` bits wide. -/
def writeFields (cap n : Nat) : List Nat → Enc → Except ErrCode Enc
  | [], e => .ok e
  | v :: vs, e =>
    match writeBits cap v n e with
    | .error c => .error c
    | .ok e' => writeFields cap n vs e'

/-- WriteByte(b): Flush, then WriteBits(b, 8) (R124). -/
def writeByte (cap b : Nat) (e : Enc) : Except ErrCode Enc :=
  match flush cap e with
  | .error c => .error c
  | .ok e' => writeBits cap b 8 e'

/-- WriteBytes(bs): Flush, then WriteBits of each byte (R125). -/
def writeBytes (cap : Nat) (bs : List Nat) (e : Enc) : Except ErrCode Enc :=
  match flush cap e with
  | .error c => .error c
  | .ok e' => writeFields cap 8 bs e'

/-! ## The reader (R128 to R138) -/

/-- The `n` bits taken off the pending `cnt` bits of `acc` (the end of R130). -/
def takeBits (n acc cnt : Nat) (d : Dec) : Nat × Dec :=
  (acc % 2 ^ n, { d with rAcc := BitVec.ofNat 7 (acc >>> n), rCnt := BitVec.ofNat 3 (cnt - n) })

/-- ReadBits(n) for `0 <= n <= 8` (R130). A byte is pulled only when it is needed (R129), and
DECODE_TRUNCATED is raised when it is needed and `D_POS = D_IN_LEN` (R131). R130's loop runs at
most once, because `n <= 8` (log 16). -/
def readBits (n : Nat) (d : Dec) : Except ErrCode (Nat × Dec) :=
  if d.rCnt.toNat < n then
    if d.pos = d.inLen then .error .decodeTruncated
    else
      .ok (takeBits n (d.rAcc.toNat ||| ((d.ibuf.read d.pos.toNat).toNat <<< d.rCnt.toNat))
        (d.rCnt.toNat + 8) { d with pos := d.pos + 1 })
  else .ok (takeBits n d.rAcc.toNat d.rCnt.toNat d)

/-- Align(): discard the pending partial byte, whatever its bits (R132, R138). -/
def align (d : Dec) : Dec := { d with rAcc := 0, rCnt := 0 }

/-- ReadByte(): Align, then ReadBits(8) (R133). -/
def readByte (d : Dec) : Except ErrCode (Nat × Dec) := readBits 8 (align d)

/-- ReadBits(n), `count` times. -/
def readFields (n : Nat) : Nat → Dec → Except ErrCode (List Nat × Dec)
  | 0, d => .ok ([], d)
  | count + 1, d =>
    match readBits n d with
    | .error c => .error c
    | .ok (v, d') =>
      match readFields n count d' with
      | .error c => .error c
      | .ok (vs, d'') => .ok (v :: vs, d'')

/-- ReadBytes(m): Align, then ReadBits(8) of each byte (R134). -/
def readBytes (m : Nat) (d : Dec) : Except ErrCode (List Nat × Dec) := readFields 8 m (align d)

end Sys2Proof.Machine
end

