-- ==== Sys2Proof/Machine/Tokens.lean ====
section
/-!
DEFINITION. The run tokens as the decoder executes them (42_decoder.md R196 to R199): SAME and DIFF
at the pixel position `dec.pix` of the run frame being decoded, and the token cycle of DecodeRuns:
fetch a run header at the stream cursor, execute its token, and end the frame once all `NPIX`
pixels are covered. DEC_FRAME repeats the cycle within one command; `step` runs one cycle when
it finds the decoder inside a run frame (log 7).
-/

namespace Sys2Proof.Machine

/-- The end of a frame: Align (R195, R196), then the frame count and the phase (R200). The command
ends, so BUSY and the pixel position are 0 (R33, R196). -/
def finishFrame (s : State) : State :=
  { s with
    dec := { align s.dec with
      frames := s.dec.frames + 1
      phase := if s.dec.frames + 1 = s.dec.nframes then .allRead else .active
      busy := false
      pix := 0 } }

/-- A mid-operation error of DEC_FRAME (R238). -/
def failDecFrame (code : ErrCode) (s : State) : State := raise .dec code (loseDecFrame s)

/-- SAME n: the framing check (R197), then advance past the span, whose pixels keep their values
(R198). Lengths 1 to 3 are accepted. -/
def execSame (n : Nat) (s : State) : Host.Outcome State Fault Refusal :=
  if s.params.npix < s.dec.pix + n then .next (failDecFrame .decodeFraming s)
  else .next { s with dec := { s.dec with pix := s.dec.pix + n } }

/-- ReadBits(D_BPP) into each entry of `D_CUR[p .. p+n-1]` (R195, R199). -/
def readPixels (p n : Nat) (d : Dec) : Except ErrCode Dec :=
  match readFields d.bpp.toNat n d with
  | .error c => .error c
  | .ok (vs, d') => .ok { d' with cur := d'.cur.writeList p (vs.map (BitVec.ofNat 7)) }

/-- DIFF n: the framing check, before any literal (R197), then overwrite the span with the `n`
literals that follow in the stream (R199). -/
def execDiff (n : Nat) (s : State) : Host.Outcome State Fault Refusal :=
  if s.params.npix < s.dec.pix + n then .next (failDecFrame .decodeFraming s)
  else
    match readPixels s.dec.pix n s.dec with
    | .error c => .next (failDecFrame c s)
    | .ok d => .next { s with dec := { d with pix := s.dec.pix + n } }

/-- The run header at the stream cursor: MODE in one bit, then LENGTH_FIELD in seven (R93, R196). -/
def fetchRunHeader (d : Dec) : Except ErrCode (Byte × Dec) :=
  match readBits 1 d with
  | .error c => .error c
  | .ok (mode, d1) =>
    match readBits 7 d1 with
    | .error c => .error c
    | .ok (lf, d2) => .ok (runHeader mode lf, d2)

/-- The token of a run header, executed (R196). -/
def runToken (h : Byte) (s : State) : Host.Outcome State Fault Refusal :=
  if modeField h = 1 then execDiff (runLength (headerLengthField h)) s
  else execSame (runLength (headerLengthField h)) s

/-- Ends the frame if the decoder is inside a run frame and has covered all its pixels (R196). -/
def settle (s : State) : State :=
  if s.dec.busy = true ∧ s.params.npix ≤ s.dec.pix then finishFrame s else s

/-- One turn of DecodeRuns' loop (R196), with `run` executing the token of a run header. -/
def tokenCycle (run : Byte → State → Host.Outcome State Fault Refusal) (s : State) :
    Host.Outcome State Fault Refusal :=
  match fetchRunHeader s.dec with
  | .error c => .next (failDecFrame c s)
  | .ok (h, d) =>
    match run h { s with dec := d } with
    | .next t => .next (settle t)
    | .fault e => .fault e
    | .refused e => .refused e

/-- DecodeRuns (R196): token cycles until the frame ends or fails; every run covers a pixel, so
`NPIX` cycles are enough. -/
def decodeRunsLoop : Nat → State → Host.Outcome State Fault Refusal
  | 0, s => .next s
  | fuel + 1, s =>
    if s.dec.busy then
      match tokenCycle runToken s with
      | .next t => decodeRunsLoop fuel t
      | .fault e => .fault e
      | .refused e => .refused e
    else .next s

/-- The decoder at the start of a run frame: inside the command, at pixel 0 (R33, R196). -/
def openRunFrame (s : State) : State :=
  settle { s with dec := { s.dec with busy := true, pix := 0 } }

end Sys2Proof.Machine
end

