-- ==== Sys2Proof/Machine/Decoder.lean ====
section
/-!
DEFINITION. The decoder unit's commands (42_decoder.md): DEC_RESET, DEC_INIT, DEC_FRAME and
DEC_CHECK_END, with the header reader and the literal frame.
-/

namespace Sys2Proof.Machine

/-- ReadHeader: the three header bytes, their range check, then the palette (R192). -/
def readHeader (d : Dec) : Except ErrCode Dec :=
  match readByte d with
  | .error c => .error c
  | .ok (nf, d1) =>
    match readByte d1 with
    | .error c => .error c
    | .ok (iv, d2) =>
      match readByte d2 with
      | .error c => .error c
      | .ok (bpp, d3) =>
        if headerInRange nf iv bpp then
          match readBytes (paletteBytes bpp) d3 with
          | .error c => .error c
          | .ok (pal, d4) =>
            .ok { d4 with
              pal := d4.pal.writeList 0 (pal.map (BitVec.ofNat 8))
              nframes := BitVec.ofNat 8 nf
              interval := BitVec.ofNat 8 iv
              bpp := bppField (BitVec.ofNat 8 bpp) }
        else .error .config

/-- The reader at the start of a stream of `len` bytes (R191). -/
def startInput (len : BitVec 24) (d : Dec) : Dec :=
  { d with inLen := len, pos := 0, rAcc := 0, rCnt := 0 }

/-- DEC_RESET (R193): accepted in every phase, changes no memory. -/
def execDecReset (s : State) : Host.Outcome State Fault Refusal :=
  .next { s with dec := resetDecRegisters s.dec }

/-- DEC_INIT len (R191), its checks in the order of R240. -/
def execDecInit (len : BitVec 24) (s : State) : Host.Outcome State Fault Refusal :=
  unlessDecError s <|
    if s.dec.phase ≠ .idle then .next (raise .dec .illegalCommand s)
    else if s.params.ibufCap < len.toNat then .next (raise .dec .illegalCommand s)
    else
      match readHeader (startInput len s.dec) with
      | .error c => .next (raise .dec c (loseDecHeader len s))
      | .ok d => .next { s with dec := { d with frames := 0, phase := .active } }

/-- DEC_FRAME (R194): the first frame is literal (R195), every later one is run-coded (R196). -/
def execDecFrame (s : State) : Host.Outcome State Fault Refusal :=
  unlessDecError s <|
    if s.dec.phase ≠ .active then .next (raise .dec .illegalCommand s)
    else if s.dec.frames.toNat = 0 then
      match readPixels 0 s.params.npix s.dec with
      | .error c => .next (failDecFrame c s)
      | .ok d => .next (finishFrame { s with dec := d })
    else decodeRunsLoop s.params.npix (openRunFrame s)

/-- DEC_CHECK_END (R201). -/
def execDecCheckEnd (s : State) : Host.Outcome State Fault Refusal :=
  unlessDecError s <|
    if s.dec.phase ≠ .allRead then .next (raise .dec .illegalCommand s)
    else if eof s.dec then .next { s with dec := { s.dec with phase := .done } }
    else .next (raise .dec .decodeTrailing s)

/-- A reserved OP written to D_CMD (R103, R190, R235): ignored in DP_ERROR, else ILLEGAL_COMMAND. -/
def reservedDecCommand (s : State) : Host.Outcome State Fault Refusal :=
  unlessDecError s (.next (raise .dec .illegalCommand s))

end Sys2Proof.Machine
end

