-- ==== Sys2Proof/Machine/RunSelect.lean ====
section
/-!
DEFINITION. Run selection (41_encoder.md R160, R167, R168): the greedy choice of SAME and DIFF runs
for a frame against its reference. Position `i` of R160 is the head of the lists here: `f` and
`r` hold the pixels of the frame and of the reference from `i` to the frame end.
-/

namespace Sys2Proof.Machine

/-- EqRun (R160): how many consecutive pixels equal the reference, at most `cap` and within the
frame. R160 caps it at 128. -/
def eqRun : Nat → List Pixel → List Pixel → Nat
  | cap + 1, a :: f, b :: r => if a = b then eqRun cap f r + 1 else 0
  | _, _, _ => 0

/-- The scan of step 4 (R160, R167): how many of the next `budget` positions pass before the first
one whose EqRun is at least 4, or before the frame ends. -/
def scanDiff : Nat → List Pixel → List Pixel → Nat
  | budget + 1, a :: f, b :: r =>
    if eqRun maxRun (a :: f) (b :: r) < minSame then scanDiff budget f r + 1 else 0
  | _, _, _ => 0

/-- SelectRun (R160) at a position with at least one pixel left: whether the run is a SAME, and its
length. -/
def selectRun (f r : List Pixel) : Bool × Nat :=
  if minSame ≤ eqRun maxRun f r then (true, eqRun maxRun f r)
  else if f.length < minSame then (false, f.length)
  else (false, scanDiff (maxRun - 1) f.tail r.tail + 1)

/-- The runs EncodeRuns emits for a frame (R161), with the literals of each DIFF; `fuel` bounds the
number of runs, and the frame length is enough since every run covers a pixel. -/
def chooseRunsFuel : Nat → List Pixel → List Pixel → List Run
  | 0, _, _ => []
  | _ + 1, [], _ => []
  | fuel + 1, a :: f, r =>
    let (isSame, n) := selectRun (a :: f) r
    (if isSame then Run.same n else Run.diff ((a :: f).take n)) ::
      chooseRunsFuel fuel ((a :: f).drop n) (r.drop n)

/-- The runs of the frame `f` against the reference `r` (R160, R161). -/
def chooseRuns (f r : List Pixel) : List Run := chooseRunsFuel f.length f r

end Sys2Proof.Machine
end

