-- ==== Sys2Proof/Machine/Encoder.lean ====
section
/-!
DEFINITION. The encoder unit's commands (41_encoder.md): ENC_RESET, ENC_HEADER and ENC_FRAME, with
the header writer, the literal frame and the emission of runs.
-/

namespace Sys2Proof.Machine

/-! ## Emission -/

/-- The bytes of a container header (R91, R154). -/
def writeHeader (cap : Nat) (nf iv bpp : Byte) (e : Enc) : Except ErrCode Enc :=
  match writeByte cap nf.toNat e with
  | .error c => .error c
  | .ok e1 =>
    match writeByte cap iv.toNat e1 with
    | .error c => .error c
    | .ok e2 =>
      match writeByte cap bpp.toNat e2 with
      | .error c => .error c
      | .ok e3 =>
        writeBytes cap ((e.pal.readList 0 (paletteBytes bpp.toNat)).map BitVec.toNat) e3

/-- EncodeLiteral(F): every pixel at `bpp` bits, then Flush (R159). -/
def encodeLiteral (cap bpp : Nat) (f : List Pixel) (e : Enc) : Except ErrCode Enc :=
  match writeFields cap bpp (f.map BitVec.toNat) e with
  | .error c => .error c
  | .ok e' => flush cap e'

/-- The run header of a token: MODE in one bit, then LENGTH_FIELD in seven (R164, R165). -/
def emitRunHeader (cap mode n : Nat) (e : Enc) : Except ErrCode Enc :=
  match writeBits cap mode 1 e with
  | .error c => .error c
  | .ok e' => writeBits cap (lengthField n) 7 e'

/-- EmitSame(n) (R164). -/
def emitSame (cap n : Nat) (e : Enc) : Except ErrCode Enc := emitRunHeader cap 0 n e

/-- EmitDiff (R165): the run header, then each literal at `bpp` bits. -/
def emitDiff (cap bpp : Nat) (literals : List Pixel) (e : Enc) : Except ErrCode Enc :=
  match emitRunHeader cap 1 literals.length e with
  | .error c => .error c
  | .ok e' => writeFields cap bpp (literals.map BitVec.toNat) e'

/-- One token (R164, R165). -/
def emitRun (cap bpp : Nat) : Run → Enc → Except ErrCode Enc
  | .same n, e => emitSame cap n e
  | .diff literals, e => emitDiff cap bpp literals e

/-- Tokens one after another, with no padding between them (R98). -/
def emitRuns (cap bpp : Nat) : List Run → Enc → Except ErrCode Enc
  | [], e => .ok e
  | run :: runs, e =>
    match emitRun cap bpp run e with
    | .error c => .error c
    | .ok e' => emitRuns cap bpp runs e'

/-- EncodeRuns(F, R): the selected runs, then Flush (R161). -/
def encodeRuns (cap bpp : Nat) (f r : List Pixel) (e : Enc) : Except ErrCode Enc :=
  match emitRuns cap bpp (chooseRuns f r) e with
  | .error c => .error c
  | .ok e' => flush cap e'

/-- The body of ENC_FRAME (R155): the first frame is literal, every later one is run-coded. -/
def encodeFrame (p : Params) (e : Enc) : Except ErrCode Enc :=
  if e.frames.toNat = 0 then
    encodeLiteral p.obufCap e.bpp.toNat (frameIn p.npix e) e
  else
    encodeRuns p.obufCap e.bpp.toNat (frameIn p.npix e) (referenceFrame p.npix e) e

/-- What ends a successful ENC_FRAME: the reference update (R162), then the frame count and the
phase (R157). -/
def closeEncFrame (f : List Pixel) (e : Enc) : Enc :=
  { e with
    ref := e.ref.writeList 0 f
    frames := e.frames + 1
    phase := if e.frames + 1 = e.nframes then .done else .stream }

/-! ## The commands -/

/-- ENC_RESET (R151): accepted in every phase, changes no memory. -/
def execEncReset (s : State) : Host.Outcome State Fault Refusal :=
  .next { s with enc := resetEncRegisters s.enc }

/-- ENC_HEADER nf, iv, bpp (R152 to R154), its checks in the order of R240. -/
def execEncHeader (nf iv bpp : Byte) (s : State) : Host.Outcome State Fault Refusal :=
  unlessEncError s <|
    if s.enc.phase ≠ .idle then .next (raise .enc .illegalCommand s)
    else if headerValid nf.toNat iv.toNat bpp.toNat s.enc.palLen.toNat then
      match writeHeader s.params.obufCap nf iv bpp s.enc with
      | .error c => .next (raise .enc c (loseEncOutput s))
      | .ok e =>
        .next { s with
          enc := { e with nframes := nf, interval := iv, bpp := bppField bpp, phase := .header } }
    else .next (raise .enc .config s)

/-- ENC_FRAME len (R155 to R162), its checks in the order of R240. -/
def execEncFrame (len : BitVec 24) (s : State) : Host.Outcome State Fault Refusal :=
  unlessEncError s <|
    if s.enc.phase = .header ∨ s.enc.phase = .stream then
      if frameValid s.params.npix len s.enc then
        match encodeFrame s.params s.enc with
        | .error c => .next (raise .enc c (loseEncOutput s))
        | .ok e => .next { s with enc := closeEncFrame (frameIn s.params.npix s.enc) e }
      else .next (raise .enc .encodeInvariant s)
    else .next (raise .enc .illegalCommand s)

/-- A reserved OP written to E_CMD (R103, R150, R235): ignored in EP_ERROR, else ILLEGAL_COMMAND. -/
def reservedEncCommand (s : State) : Host.Outcome State Fault Refusal :=
  unlessEncError s (.next (raise .enc .illegalCommand s))

end Sys2Proof.Machine
end

