-- ==== Sys2Proof/Machine/HostPort.lean ====
section
/-!
DEFINITION. What the host reaches (R23, R60, R65 to R67, R69): the register window and the memory
ports. A write of E_CMD or D_CMD is a command word and is taken by the step; no other host access
has a side effect.
-/

namespace Sys2Proof.Machine

/-! ## The register window -/

/-- The register window is 512 bytes (R23). -/
def windowBytes : Nat := 512

/-- The offset of a platform address within the register window, if it lies there (R23, log 12). -/
def windowOffset (p : Params) (addr : Nat) : Option Nat :=
  if p.blockBase ≤ addr ∧ addr < p.blockBase + windowBytes then some (addr - p.blockBase) else none

/-- The offset of E_CMD (R24). -/
def offECmd : Nat := 0x000

/-- The offset of D_CMD (R38). -/
def offDCmd : Nat := 0x100

/-- The offset of E_PAL_LEN, the one register the host may write (R28). -/
def offEPalLen : Nat := 0x008

/-- A header register: [7:0] NFRAMES, [15:8] INTERVAL, [18:16] BPP (R30, R46). -/
def hdrWord (nframes interval : BitVec 8) (bpp : BitVec 3) : Word :=
  0#13 ++ bpp ++ interval ++ nframes

/-- What a read of the register word at a window offset returns (R23). The command registers, an
offset that names no register and an unaligned offset read 0 (R23, R24, R38, R66). -/
def readRegister (s : State) (off : Nat) : Word :=
  match off with
  | 0x004 => encStatus s.enc
  | 0x008 => s.enc.palLen.setWidth 32
  | 0x00C => s.enc.outLen.setWidth 32
  | 0x010 => hdrWord s.enc.nframes s.enc.interval s.enc.bpp
  | 0x014 => s.enc.frames.setWidth 32
  | 0x104 => decStatus s.dec
  | 0x108 => s.dec.inLen.setWidth 32
  | 0x10C => s.dec.pos.setWidth 32
  | 0x110 => hdrWord s.dec.nframes s.dec.interval s.dec.bpp
  | 0x114 => s.dec.frames.setWidth 32
  | _ => 0

/-- A write of a register word that is no command register: E_PAL_LEN takes bits [15:0] (R28); every
other write is ignored (R23, R66). -/
def writeRegister (off : Nat) (w : Word) (s : State) : State :=
  if off = offEPalLen then { s with enc := { s.enc with palLen := w.extractLsb' 0 16 } } else s

/-! ## The memory ports -/

/-- The number of entries of a memory (R60). -/
def hostMemSize (p : Params) : HostMem → Nat
  | .ePal => palCap
  | .eFin => p.npix
  | .eObuf => p.obufCap
  | .dIbuf => p.ibufCap
  | .dPal => palCap
  | .dCur => p.npix

/-- Entry `i` of a memory as a byte; D_CUR is zero-extended (R50). -/
def hostMemEntry (s : State) (m : HostMem) (i : Nat) : Byte :=
  match m with
  | .ePal => s.enc.pal.read i
  | .eFin => s.enc.fin.read i
  | .eObuf => s.enc.obuf.read i
  | .dIbuf => s.dec.ibuf.read i
  | .dPal => s.dec.pal.read i
  | .dCur => (s.dec.cur.read i).setWidth 8

/-- A host read through a memory port: 0 at or beyond the memory's size (R67). -/
def readPort (s : State) (m : HostMem) (i : Nat) : Byte :=
  if i < hostMemSize s.params m then hostMemEntry s m i else 0

/-- A host write through a memory port: ignored at or beyond the memory's size and in the memories
the host may only read (R67). D_IBUF takes a write in every phase (R78, log 10). -/
def writePort (m : HostMem) (i : Nat) (b : Byte) (s : State) : State :=
  if i < hostMemSize s.params m then
    match m with
    | .ePal => { s with enc := { s.enc with pal := s.enc.pal.write i b } }
    | .eFin => { s with enc := { s.enc with fin := s.enc.fin.write i b } }
    | .dIbuf => { s with dec := { s.dec with ibuf := s.dec.ibuf.write i b } }
    | .eObuf => s
    | .dPal => s
    | .dCur => s
  else s

/-! ## Events -/

/-- The command word an event starts, with the unit that interprets it: a write of E_CMD (R24) or
of D_CMD (R38). -/
def commandOf (p : Params) : HostEvent → Option Code
  | .regWrite addr w =>
    match windowOffset p addr with
    | some off => if off = offECmd then some (.eCmd w) else if off = offDCmd then some (.dCmd w) else none
    | none => none
  | .regRead _ => none
  | .memWrite _ _ _ => none
  | .memRead _ _ => none
  | .resetInput => none

/-- The effect of an event that starts no command (R69, R260). A register access outside the window
does not reach the block (log 12). -/
def hostAccess (ev : HostEvent) (s : State) : State :=
  match ev with
  | .regWrite addr w =>
    match windowOffset s.params addr with
    | some off => writeRegister off w s
    | none => s
  | .regRead addr =>
    match windowOffset s.params addr with
    | some off => { s with rdata := readRegister s off }
    | none => s
  | .memWrite m i b => writePort m i b s
  | .memRead m i => { s with rdata := (readPort s m i).setWidth 32 }
  | .resetInput => resetBlock s

/-- A command word that decodes to no instruction (R103, R150, R190). -/
def rejectedCommand (e : DecodeError) (s : State) : Host.Outcome State Fault Refusal :=
  match e with
  | .reservedEncOp _ => reservedEncCommand s
  | .reservedDecOp _ => reservedDecCommand s

end Sys2Proof.Machine
end

