-- ==== Sys2Proof/Machine/Dispatch.lean ====
section
/-!
DEFINITION. The meaning of each instruction, one arm per constructor.
-/

namespace Sys2Proof.Machine

def exec (i : Instr) (s : State) : Host.Outcome State Fault Refusal :=
  match i with
  | .encReset => Sys2Proof.Machine.execEncReset s
  | .encHeader nf iv bpp => Sys2Proof.Machine.execEncHeader nf iv bpp s
  | .encFrame len => Sys2Proof.Machine.execEncFrame len s
  | .decReset => Sys2Proof.Machine.execDecReset s
  | .decInit len => Sys2Proof.Machine.execDecInit len s
  | .decFrame => Sys2Proof.Machine.execDecFrame s
  | .decCheckEnd => Sys2Proof.Machine.execDecCheckEnd s
  | .same n => Sys2Proof.Machine.execSame n s
  | .diff n => Sys2Proof.Machine.execDiff n s

end Sys2Proof.Machine
end

