-- ==== Sys2Proof/Machine/Fetch.lean ====
section
/-!
DEFINITION. How an instruction's bits are laid where the step fetches them (log 14): a command word
as the host's next write of its command register, a run header as the next byte of a run frame.
-/

namespace Sys2Proof.Machine

/-- The bytes that stand in D_IBUF for a run header whose higher bits are all 0, up to the longest
token: 8 + 128 · 7 bits, which is 113 bytes (R96). -/
def tokenBytes (h : Byte) : List Byte := h :: List.replicate 112 0

/-- DEC inside DEC_FRAME, at the start of the second of two frames of 7-bit pixels, with the bytes of
the run header `h` as its whole input and the cursor at the first of them (log 14). -/
def stageToken (h : Byte) (d : Dec) : Dec :=
  { d with
    phase := .active, err := .none, busy := true, pix := 0
    inLen := 113, pos := 0, rAcc := 0, rCnt := 0
    nframes := 2, bpp := 7, frames := 1
    ibuf := d.ibuf.writeList 0 (tokenBytes h) }

/-- The state whose next step fetches the given code: for a command, the decoder is between commands
and the host's next event is the write of the command register. -/
def stageCode (c : Code) (s : State) : State :=
  match c with
  | .eCmd w =>
    { s with
      dec := { s.dec with busy := false }
      host := .regWrite (s.params.blockBase + offECmd) w :: s.host }
  | .dCmd w =>
    { s with
      dec := { s.dec with busy := false }
      host := .regWrite (s.params.blockBase + offDCmd) w :: s.host }
  | .wire h => { s with dec := stageToken h s.dec }

end Sys2Proof.Machine
end

