-- ==== Sys2Proof/Machine/Step.lean ====
section
/-!
DEFINITION. One step of the machine. Between commands the host's next event is taken; a write of a
command register runs the command it encodes, whole (R17, R70). Inside a run frame the token at
the stream cursor is fetched and executed (R196, log 7).
-/

namespace Sys2Proof.Machine

/-- One host event, already taken off the list: the decoded command, or the access. -/
def takeEvent (ev : HostEvent) (s : State) : Host.Outcome State Fault Refusal :=
  match commandOf s.params ev with
  | some c =>
    match decode c with
    | .ok i => exec i s
    | .error e => rejectedCommand e s
  | none => .next (hostAccess ev s)

/-- One step (R17, R74). With no event pending and no run frame in progress the block waits for a
command word (R263). -/
def step (s : State) : Host.Outcome State Fault Refusal :=
  if s.dec.busy then tokenCycle (fun h t => exec (decodeRunHeader h) t) s
  else
    match s.host with
    | [] => .next s
    | ev :: rest => takeEvent ev { s with host := rest }

/-- `s` with the instruction of an opcode-table row stored where `step` fetches its next
instruction (logs 9 and 14). -/
def State.withFetchWord (s : State) (nbits w : Nat) : State := stageCode (tableCode nbits w) s

end Sys2Proof.Machine
end

