-- ==== Sys2Proof/Machine/Wire.lean ====
section
/-!
DEFINITION. The wire format as bit sequences (30_encoding.md R90 to R98, 00_scope.md R14): what a
field, a run, a frame and a header are as bits and bytes, and what a sequence of runs does to
a frame. The machine does not use these; statements say with them what the units write and read.
-/

namespace Sys2Proof.Machine

/-! ## Bits and bytes -/

/-- A field of `n` bits with value `v`, LSB first (R14). -/
def fieldBits (n v : Nat) : List Bool := (List.range n).map fun j => v.testBit j

/-- The value of a bit sequence, LSB first (R14). -/
def bitsValue : List Bool → Nat
  | [] => 0
  | b :: bs => b.toNat + 2 * bitsValue bs

/-- The bits of a byte sequence: bit `s` is bit `s mod 8` of byte `s div 8` (R14, R61). -/
def byteBits (bs : List Byte) : List Bool := bs.flatMap fun b => fieldBits 8 b.toNat

/-- A bit sequence followed by zero bits up to the next byte boundary (R92, R98, R123). -/
def padded (bits : List Bool) : List Bool :=
  bits ++ List.replicate ((8 - bits.length % 8) % 8) false

/-- The first `count` bytes of a bit sequence, zero bits standing for what is missing. -/
def packBytes : Nat → List Bool → List Byte
  | 0, _ => []
  | count + 1, bits => BitVec.ofNat 8 (bitsValue (bits.take 8)) :: packBytes count (bits.drop 8)

/-- A bit sequence as bytes, zero-padded to a byte boundary (R61, R90). -/
def wireBytes (bits : List Bool) : List Byte := packBytes ((bits.length + 7) / 8) bits

/-- The `k`-th of the `n`-bit fields of a bit sequence. -/
def fieldAt (n : Nat) (bits : List Bool) (k : Nat) : Nat := bitsValue ((bits.drop (k * n)).take n)

/-! ## Fields, runs and headers -/

/-- Literal fields, `bpp` bits each (R97). -/
def pixelBits (bpp : Nat) (px : List Pixel) : List Bool := px.flatMap fun v => fieldBits bpp v.toNat

/-- The first `n` pixels of a bit sequence, `bpp` bits each, as frame-buffer entries (R97). -/
def pixelFields (bpp n : Nat) (bits : List Bool) : List Pixel :=
  ((List.range n).map (fieldAt bpp bits)).map (BitVec.ofNat 7)

/-- A run header: MODE, then LENGTH_FIELD (R93, R94). -/
def runHeaderBits (mode n : Nat) : List Bool := fieldBits 1 mode ++ fieldBits 7 (lengthField n)

/-- A token (R95, R96). -/
def runBits (bpp : Nat) : Run → List Bool
  | .same n => runHeaderBits 0 n
  | .diff literals => runHeaderBits 1 literals.length ++ pixelBits bpp literals

/-- Tokens one after another, with no padding between them (R98). -/
def runsBits (bpp : Nat) (runs : List Run) : List Bool := runs.flatMap (runBits bpp)

/-- The run length in pixels (R15). -/
def runPixels : Run → Nat
  | .same n => n
  | .diff literals => literals.length

/-- The pixels a sequence of runs covers. -/
def runsPixels (runs : List Run) : Nat := (runs.map runPixels).sum

/-- A run a token can carry (R94), its literals `bpp`-bit values (R97). -/
def runOk (bpp : Nat) : Run → Bool
  | .same n => runLengthOk n
  | .diff literals => runLengthOk literals.length && literals.all fun v => v.toNat < 2 ^ bpp

/-- The container header's bytes (R91). -/
def headerBytes (nf iv bpp : Byte) (pal : List Byte) : List Byte := nf :: iv :: bpp :: pal

/-- What runs make of the previous frame: a SAME keeps its span (R95) and a DIFF replaces it (R96). -/
def applyRuns : List Run → List Pixel → List Pixel
  | [], _ => []
  | .same n :: runs, prev => prev.take n ++ applyRuns runs (prev.drop n)
  | .diff literals :: runs, prev => literals ++ applyRuns runs (prev.drop literals.length)

/-! ## The streams of the two units -/

/-- What the writer has appended: the output stream of R61, then the pending bits (R31, R126). -/
def writtenBits (e : Enc) : List Bool :=
  byteBits (e.obuf.readList 0 e.outLen.toNat) ++ fieldBits e.wCnt.toNat e.wAcc.toNat

/-- What the reader has not yet returned: the pending bits (R45), then the rest of the input
stream of R61. -/
def unreadBits (d : Dec) : List Bool :=
  fieldBits d.rCnt.toNat d.rAcc.toNat ++
    byteBits (d.ibuf.readList d.pos.toNat (d.inLen.toNat - d.pos.toNat))

/-! ## Sequences of primitives -/

/-- A call of a writer primitive (R126). -/
inductive WriterCall where
  /-- WriteBits(v, n) -/
  | bits (v n : Nat)
  /-- Flush() -/
  | flush
  /-- WriteByte(b) -/
  | byte (b : Nat)
  /-- WriteBytes(bs) -/
  | bytes (bs : List Nat)
  deriving DecidableEq, Repr

/-- One writer call. -/
def callWriter (cap : Nat) : WriterCall → Enc → Except ErrCode Enc
  | .bits v n, e => writeBits cap v n e
  | .flush, e => flush cap e
  | .byte b, e => writeByte cap b e
  | .bytes bs, e => writeBytes cap bs e

/-- Writer calls in turn. -/
def callsWriter (cap : Nat) : List WriterCall → Enc → Except ErrCode Enc
  | [], e => .ok e
  | c :: cs, e =>
    match callWriter cap c e with
    | .error code => .error code
    | .ok e' => callsWriter cap cs e'

/-- The bits `F` of R126 after one more call. -/
def appendCall (bits : List Bool) : WriterCall → List Bool
  | .bits v n => bits ++ fieldBits n v
  | .flush => padded bits
  | .byte b => padded bits ++ fieldBits 8 b
  | .bytes bs => padded bits ++ bs.flatMap (fieldBits 8)

/-- The fields a call writes, in order: what the mirroring reader call returns (R135). -/
def callValues : WriterCall → List Nat
  | .bits v _ => [v]
  | .flush => []
  | .byte b => [b]
  | .bytes bs => bs

/-- The reader call that mirrors a writer call (R135): ReadBits for WriteBits, Align for Flush, ReadByte
for WriteByte, ReadBytes for WriteBytes. -/
def callReader : WriterCall → Dec → Except ErrCode (List Nat × Dec)
  | .bits _ n, d =>
    match readBits n d with
    | .error c => .error c
    | .ok (v, d') => .ok ([v], d')
  | .flush, d => .ok ([], align d)
  | .byte _, d =>
    match readByte d with
    | .error c => .error c
    | .ok (v, d') => .ok ([v], d')
  | .bytes bs, d => readBytes bs.length d

/-- The mirroring reader calls in turn, with all the values they return. -/
def callsReader : List WriterCall → Dec → Except ErrCode (List Nat × Dec)
  | [], d => .ok ([], d)
  | c :: cs, d =>
    match callReader c d with
    | .error code => .error code
    | .ok (vs, d') =>
      match callsReader cs d' with
      | .error code => .error code
      | .ok (ws, d'') => .ok (vs ++ ws, d'')

end Sys2Proof.Machine
end

