-- ==== Sys2Proof/Safety.lean ====
section
/-!
DEFINITION. What the claims speak of: the invariant of the machine, what it means that a memory
stores a run of entries and nothing else, and the host's encode and decode sequences (R265, R266).
-/

namespace Sys2Proof.Machine

/-! ## Units -/

/-- The unit that executes an instruction (R17). -/
def unitOf : Instr → BlockUnit
  | .encReset => .enc
  | .encHeader _ _ _ => .enc
  | .encFrame _ => .enc
  | .decReset => .dec
  | .decInit _ => .dec
  | .decFrame => .dec
  | .decCheckEnd => .dec
  | .same _ => .dec
  | .diff _ => .dec

/-- Two encoder states that agree on every register and on everything the next frame may depend on:
the input frame, the reference frame and the bytes already written (R169). -/
def encAgree (npix : Nat) (e e' : Enc) : Prop :=
  e' = { e with pal := e'.pal, fin := e'.fin, obuf := e'.obuf, ref := e'.ref } ∧
    e.fin.readList 0 npix = e'.fin.readList 0 npix ∧
    e.ref.readList 0 npix = e'.ref.readList 0 npix ∧
    e.obuf.readList 0 e.outLen.toNat = e'.obuf.readList 0 e.outLen.toNat

/-! ## Frames of memory -/

/-- `m'` is `m` with the entries `vs` stored from index `i` on: those read as stored, and every other
entry reads as before. -/
def Mem.storesAt {w : Nat} (m m' : Mem w) (i : Nat) (vs : List (BitVec w)) : Prop :=
  m'.readList i vs.length = vs ∧ ∀ a, a < i ∨ i + vs.length ≤ a → m'.read a = m.read a

/-! ## The invariant -/

/-- What holds of ENC in every state a run reaches. -/
structure EncInv (p : Params) (e : Enc) : Prop where
  /-- every host read of E_STATUS finds BUSY = 0 (R33) -/
  notBusy : e.busy = false
  /-- ERR is NONE exactly outside the ERROR phase (R27, R238) -/
  errPhase : e.err = .none ↔ e.phase ≠ .error
  /-- ENC never records codes 3, 4 or 5 (R230) -/
  errOwn : e.err ≠ .decodeTruncated ∧ e.err ≠ .decodeFraming ∧ e.err ≠ .decodeTrailing
  /-- OUT_LEN never exceeds OBUF_CAP (R29) -/
  outBound : e.outLen.toNat ≤ p.obufCap
  /-- every bit of W_ACC at or above W_CNT is 0 (R31) -/
  pending : e.wAcc.toNat < 2 ^ e.wCnt.toNat
  /-- no bit is pending between commands (R31), but after an error (R238) -/
  aligned : e.phase ≠ .error → e.wCnt = 0 ∧ e.wAcc = 0
  /-- FRAMES never exceeds NFRAMES (R32) -/
  framesBound : e.frames ≤ e.nframes
  /-- before the header: nothing written (R26, R263) -/
  idle : e.phase = .idle →
    e.outLen = 0 ∧ e.frames = 0 ∧ e.nframes = 0 ∧ e.interval = 0 ∧ e.bpp = 0
  /-- a header has been written and no frame yet (R26) -/
  header : e.phase = .header → e.frames = 0
  /-- at least 1 and fewer than NFRAMES frames (R26) -/
  stream : e.phase = .stream → 0 < e.frames ∧ e.frames < e.nframes
  /-- NFRAMES frames (R26, R157) -/
  done : e.phase = .done → e.frames = e.nframes
  /-- a written header is in range (R152) -/
  headerRange : e.phase = .header ∨ e.phase = .stream ∨ e.phase = .done →
    0 < e.nframes ∧ 0 < e.interval ∧ 0 < e.bpp
  /-- the reference frame's pixels are `bpp`-bit values (R97, R162) -/
  refLegal : e.phase = .stream ∨ e.phase = .done →
    ∀ k < p.npix, (e.ref.read k).toNat < 2 ^ e.bpp.toNat
  /-- the memories have their canonical form (R60) -/
  palWf : e.pal.wf palCap = true
  finWf : e.fin.wf p.npix = true
  obufWf : e.obuf.wf p.obufCap = true
  refWf : e.ref.wf p.npix = true

/-- What holds of DEC in every state a run reaches. -/
structure DecInv (p : Params) (d : Dec) : Prop where
  /-- ERR is NONE exactly outside the ERROR phase (R42, R238) -/
  errPhase : d.err = .none ↔ d.phase ≠ .error
  /-- DEC never records codes 2 or 7 (R230) -/
  errOwn : d.err ≠ .encodeInvariant ∧ d.err ≠ .outputOverflow
  /-- IN_LEN never exceeds IBUF_CAP (R41) -/
  inBound : d.inLen.toNat ≤ p.ibufCap
  /-- POS never exceeds IN_LEN (R44) -/
  posBound : d.pos ≤ d.inLen
  /-- every bit of R_ACC at or above R_CNT is 0 (R45) -/
  pending : d.rAcc.toNat < 2 ^ d.rCnt.toNat
  /-- no bit is pending between commands (R43), but after an error (R238) -/
  aligned : d.phase ≠ .error → d.busy = false → d.rCnt = 0 ∧ d.rAcc = 0
  /-- the pixel position is 0 between commands (R196) -/
  pixRest : d.busy = false → d.pix = 0
  /-- BUSY only inside a run frame that has pixels left (R33, R196) -/
  insideFrame : d.busy = true → d.phase = .active ∧ 0 < d.frames ∧ d.pix < p.npix
  /-- FRAMES never exceeds NFRAMES (R47) -/
  framesBound : d.frames ≤ d.nframes
  /-- no stream: nothing read (R40, R263) -/
  idle : d.phase = .idle →
    d.inLen = 0 ∧ d.pos = 0 ∧ d.frames = 0 ∧ d.nframes = 0 ∧ d.interval = 0 ∧ d.bpp = 0
  /-- fewer than NFRAMES frames read (R40) -/
  active : d.phase = .active → d.frames < d.nframes
  /-- NFRAMES frames read (R40) -/
  allRead : d.phase = .allRead ∨ d.phase = .done → d.frames = d.nframes
  /-- the trailing-data check passed (R40, R201) -/
  done : d.phase = .done → d.pos = d.inLen
  /-- a header that was read is in range (R192) -/
  headerRange : d.phase = .active ∨ d.phase = .allRead ∨ d.phase = .done →
    0 < d.nframes ∧ 0 < d.interval ∧ 0 < d.bpp
  /-- the current frame's pixels are `bpp`-bit values (R205) -/
  curLegal : d.phase ≠ .error → 0 < d.frames →
    ∀ k < p.npix, (d.cur.read k).toNat < 2 ^ d.bpp.toNat
  /-- the memories have their canonical form (R60) -/
  ibufWf : d.ibuf.wf p.ibufCap = true
  palWf : d.pal.wf palCap = true
  curWf : d.cur.wf p.npix = true

/-- The invariant of the machine. -/
structure State.Inv (s : State) : Prop where
  params : s.params.valid
  enc : EncInv s.params s.enc
  dec : DecInv s.params s.dec

/-- The reader's registers are as R44 and R45 say they always are. -/
def readerOk (d : Dec) : Prop := d.rAcc.toNat < 2 ^ d.rCnt.toNat ∧ d.pos ≤ d.inLen

/-- The reader at a byte boundary, as between two commands (R43, R44). -/
def readerReady (d : Dec) : Prop := d.rCnt = 0 ∧ d.rAcc = 0 ∧ d.pos ≤ d.inLen

/-- The writer at a byte boundary with its output within E_OBUF, as between two commands (R10, R29,
R31). -/
def writerReady (s : State) : Prop :=
  s.enc.wCnt = 0 ∧ s.enc.wAcc = 0 ∧ s.enc.outLen.toNat ≤ s.params.obufCap ∧ s.params.obufCap < 2 ^ 24

/-- A mid-operation error of ENC (R238): what the command may write is whatever `t` holds, within the
bound of R29; ERR and PHASE are set; nothing else changes. -/
def encFailed (code : ErrCode) (s t : State) : Prop :=
  t = { s with
    enc := { s.enc with
      phase := .error, err := code, busy := false
      obuf := t.enc.obuf, outLen := t.enc.outLen, wAcc := t.enc.wAcc, wCnt := t.enc.wCnt }
    free := t.free } ∧
  t.enc.outLen.toNat ≤ s.params.obufCap

/-- A mid-operation error of DEC_FRAME or of a token (R238): what the command may write is whatever `t`
holds, within the bound of R44; ERR and PHASE are set; nothing else changes. -/
def decFrameFailed (code : ErrCode) (s t : State) : Prop :=
  t = { s with
    dec := { s.dec with
      phase := .error, err := code, busy := false, pix := 0
      pos := t.dec.pos, rAcc := t.dec.rAcc, rCnt := t.dec.rCnt, cur := t.dec.cur }
    free := t.free } ∧
  t.dec.pos ≤ s.dec.inLen

/-- A mid-operation error of DEC_INIT `len` (R238): D_IN_LEN is `len`; what else the command may write
is whatever `t` holds, within the bound of R44; ERR and PHASE are set; nothing else changes. -/
def decInitFailed (code : ErrCode) (len : BitVec 24) (s t : State) : Prop :=
  t = { s with
    dec := { s.dec with
      phase := .error, err := code, busy := false, pix := 0, inLen := len
      pos := t.dec.pos, rAcc := t.dec.rAcc, rCnt := t.dec.rCnt
      nframes := t.dec.nframes, interval := t.dec.interval, bpp := t.dec.bpp, pal := t.dec.pal }
    free := t.free } ∧
  t.dec.pos ≤ len

/-! ## Host sequences -/

/-- The state with a frame loaded into E_FIN (LOAD_FRAME, R107). -/
def loadFrame (g : List Byte) (s : State) : State :=
  { s with enc := { s.enc with fin := s.enc.fin.writeList 0 g } }

/-- Step 4 of the encode sequence (R265): each frame is loaded and encoded, and PHASE is checked; with
E_REF as each frame leaves it (R162). -/
def encodeFrames : List (List Byte) → State → Option (List (List Pixel) × State)
  | [], s => some ([], s)
  | g :: gs, s =>
    match exec (.encFrame (BitVec.ofNat 24 s.params.npix)) (loadFrame g s) with
    | .next t =>
      if t.enc.phase = .error then none
      else
        match encodeFrames gs t with
        | some (refs, u) => some (t.enc.ref.readList 0 t.params.npix :: refs, u)
        | none => none
    | .fault _ => none
    | .refused _ => none

/-- Step 4 of the decode sequence (R266): DEC_FRAME `count` times, D_CUR copied out after each. -/
def decodeFrames : Nat → State → Option (List (List Pixel) × State)
  | 0, s => some ([], s)
  | count + 1, s =>
    match exec .decFrame s with
    | .next t =>
      if t.dec.phase = .error then none
      else
        match decodeFrames count t with
        | some (gs, u) => some (t.dec.cur.readList 0 t.params.npix :: gs, u)
        | none => none
    | .fault _ => none
    | .refused _ => none

/-- The pixels of a frame in E_FIN as frame-buffer entries. -/
def pixelsOf (g : List Byte) : List Pixel := g.map fun b => b.setWidth 7

end Sys2Proof.Machine
end

