-- ==== Sys2Proof/Certificates/Slice0/Obligations.lean ====
section
/-!
DEFINITION. The statements for the provers, one definition each; OBLIGATIONS.json says which rules of
spec/ they formalise. Statements about `step` take the host's events from the list `host` (log 2), and
what the host's reads return from `rdata` (log 3); both are the model's own fields.
-/

open Sys2Proof Sys2Proof.Machine

/-! ## Encoding -/

/-- Every well-formed instruction is read back from its own word (R93, R94, R101, R102). -/
def Obligations.EncodedInstructionDecodesToItself : Prop :=
  ∀ i : Instr, i.wf = true → decode (encode i) = .ok i

/-- The other direction: a word that decodes to an instruction is that instruction's own word once the
bits no operand uses are written as 0, and the instruction is well formed (R103). Every command word
whose OP is not reserved decodes, with the operands of its fields and whatever its unused bits
(R100 to R102), and so does every run header (R93, R94, R104). -/
def Obligations.DecodedWordIsTheEncodingUpToUnusedBits : Prop :=
  (∀ (c : Code) (i : Instr), decode c = .ok i → i.wf = true ∧ encode i = maskCode (usedBits i) c) ∧
  (∀ w : Word,
    ((w.extractLsb' 0 4).toNat = 1 → decode (.eCmd w) = .ok .encReset) ∧
    ((w.extractLsb' 0 4).toNat = 2 → decode (.eCmd w) =
      .ok (.encHeader (w.extractLsb' 8 8) (w.extractLsb' 16 8) (w.extractLsb' 24 8))) ∧
    ((w.extractLsb' 0 4).toNat = 3 → decode (.eCmd w) = .ok (.encFrame (w.extractLsb' 8 24))) ∧
    ((w.extractLsb' 0 4).toNat = 1 → decode (.dCmd w) = .ok .decReset) ∧
    ((w.extractLsb' 0 4).toNat = 2 → decode (.dCmd w) = .ok (.decInit (w.extractLsb' 8 24))) ∧
    ((w.extractLsb' 0 4).toNat = 3 → decode (.dCmd w) = .ok .decFrame) ∧
    ((w.extractLsb' 0 4).toNat = 4 → decode (.dCmd w) = .ok .decCheckEnd)) ∧
  (∀ h : Byte,
    (h.toNat % 2 = 0 → decode (.wire h) = .ok (.same (if h.toNat / 2 = 0 then 128 else h.toNat / 2))) ∧
    (h.toNat % 2 = 1 → decode (.wire h) = .ok (.diff (if h.toNat / 2 = 0 then 128 else h.toNat / 2))))

/-- A few words, written out by hand from the encoding tables (R93, R101, R102). -/
def Obligations.SampleWordsDecode : Prop :=
  decode (.eCmd 0xFFFFFFF1#32) = .ok .encReset ∧
  decode (.eCmd 0x010A0302#32) = .ok (.encHeader 3#8 10#8 1#8) ∧
  decode (.eCmd 0x00000403#32) = .ok (.encFrame 4#24) ∧
  decode (.dCmd 0x00000001#32) = .ok .decReset ∧
  decode (.dCmd 0x00000D02#32) = .ok (.decInit 13#24) ∧
  decode (.dCmd 0x00000003#32) = .ok .decFrame ∧
  decode (.dCmd 0x00000004#32) = .ok .decCheckEnd ∧
  decode (.wire 0x08#8) = .ok (.same 4) ∧
  decode (.wire 0x00#8) = .ok (.same 128) ∧
  decode (.wire 0x09#8) = .ok (.diff 4)

/-- A run's length and its LENGTH_FIELD determine each other (R94): the maps and their inverses. -/
def Obligations.LengthFieldIsABijection : Prop :=
  (∀ n, 1 ≤ n → n ≤ 128 →
    lengthField n = n % 128 ∧ lengthField n < 128 ∧ runLength (lengthField n) = n) ∧
  (∀ f, f < 128 →
    (f = 0 → runLength f = 128) ∧ (f ≠ 0 → runLength f = f) ∧
      1 ≤ runLength f ∧ runLength f ≤ 128 ∧ lengthField (runLength f) = f)

/-! ## The step -/

/-- Between commands, a word the host writes to E_CMD or D_CMD runs the instruction it encodes, whole,
in one step (R24, R38, R70; the host's list is the model's, log 2). -/
def Obligations.StepRunsTheCommandTheHostWrites : Prop :=
  ∀ (s : State) (w : Word) (rest : List HostEvent) (i : Instr), s.dec.busy = false →
    (s.host = .regWrite (s.params.blockBase + 0x000) w :: rest → decode (.eCmd w) = .ok i →
      step s = exec i { s with host := rest }) ∧
    (s.host = .regWrite (s.params.blockBase + 0x100) w :: rest → decode (.dCmd w) = .ok i →
      step s = exec i { s with host := rest })

/-- Inside a run frame, the step takes the next 8 bits of the stream as a run header, executes the token
it encodes, and ends the frame if all pixels are covered (R93, R196; log 7). -/
def Obligations.StepRunsTheTokenAtTheCursor : Prop :=
  ∀ s : State, s.dec.busy = true → readerOk s.dec → 8 ≤ (unreadBits s.dec).length →
    ∃ d : Dec,
      d = { s.dec with pos := d.pos, rAcc := d.rAcc, rCnt := d.rCnt } ∧
      unreadBits d = (unreadBits s.dec).drop 8 ∧
      ∀ i, decode (.wire (BitVec.ofNat 8 (bitsValue ((unreadBits s.dec).take 8)))) = .ok i →
        ∀ t, exec i { s with dec := d } = .next t → step s = .next (settle t)

/-- Inside a run frame with fewer than 8 bits left, the step raises DECODE_TRUNCATED (R131, R196; logs 5
and 7). -/
def Obligations.TokenFetchPastTheInputIsTruncated : Prop :=
  ∀ s : State, s.dec.busy = true → readerOk s.dec → (unreadBits s.dec).length < 8 →
    ∃ t, step s = .next t ∧ decFrameFailed .decodeTruncated s t

/-- A reserved OP raises ILLEGAL_COMMAND in the unit whose register was written, and is ignored in that
unit's ERROR phase (R103). -/
def Obligations.ReservedCommandIsIllegal : Prop :=
  ∀ (s : State) (w : Word) (rest : List HostEvent), s.dec.busy = false →
    (s.host = .regWrite (s.params.blockBase + 0x000) w :: rest →
      (w.extractLsb' 0 4).toNat = 0 ∨ 4 ≤ (w.extractLsb' 0 4).toNat →
      step s = .next (if s.enc.phase = .error then { s with host := rest } else
        { s with
          host := rest
          enc := { s.enc with err := .illegalCommand, phase := .error, busy := false } })) ∧
    (s.host = .regWrite (s.params.blockBase + 0x100) w :: rest →
      (w.extractLsb' 0 4).toNat = 0 ∨ 5 ≤ (w.extractLsb' 0 4).toNat →
      step s = .next (if s.dec.phase = .error then { s with host := rest } else
        { s with
          host := rest
          dec := { s.dec with err := .illegalCommand, phase := .error, busy := false, pix := 0 } }))

/-- In a unit's ERROR phase every command word but its RESET changes nothing (R239). -/
def Obligations.ErrorPhaseIgnoresCommands : Prop :=
  ∀ (s : State) (w : Word) (rest : List HostEvent), s.dec.busy = false →
    (w.extractLsb' 0 4).toNat ≠ 1 →
    (s.host = .regWrite (s.params.blockBase + 0x000) w :: rest → s.enc.phase = .error →
      step s = .next { s with host := rest }) ∧
    (s.host = .regWrite (s.params.blockBase + 0x100) w :: rest → s.dec.phase = .error →
      step s = .next { s with host := rest })

/-- Only the unit's RESET command and the reset input leave its ERROR phase, and until then ERR keeps the
first error's code (R239, R243). -/
def Obligations.OnlyResetLeavesTheErrorPhase : Prop :=
  ∀ (s t : State) (ev : HostEvent) (rest : List HostEvent), s.dec.busy = false →
    s.host = ev :: rest → step s = .next t → ev ≠ .resetInput →
    (s.enc.phase = .error →
      (∀ w, ev = .regWrite (s.params.blockBase + 0x000) w → (w.extractLsb' 0 4).toNat ≠ 1) →
      t.enc.phase = .error ∧ t.enc.err = s.enc.err) ∧
    (s.dec.phase = .error →
      (∀ w, ev = .regWrite (s.params.blockBase + 0x100) w → (w.extractLsb' 0 4).toNat ≠ 1) →
      t.dec.phase = .error ∧ t.dec.err = s.dec.err)

/-! ## Host accesses -/

/-- A host read puts the register word or the memory entry into the host's hands and has no side effect
(R69); `rdata` is the model's own field (log 3). Through a memory port the host reads, below the
memory's size, entry `i` of that memory, D_CUR's 7 bits zero-extended (R34 to R36, R48 to R50,
R60). -/
def Obligations.HostReadsHaveNoSideEffect : Prop :=
  (∀ (s : State) (rest : List HostEvent), s.dec.busy = false →
    (∀ off, off < 512 → s.host = .regRead (s.params.blockBase + off) :: rest →
      step s = .next { s with host := rest, rdata := readRegister s off }) ∧
    (∀ m i, s.host = .memRead m i :: rest →
      step s = .next { s with host := rest, rdata := (readPort s m i).setWidth 32 })) ∧
  (∀ (s : State) (i : Nat),
    (i < 384 → readPort s .ePal i = s.enc.pal.read i) ∧
    (i < s.params.npix → readPort s .eFin i = s.enc.fin.read i) ∧
    (i < s.params.obufCap → readPort s .eObuf i = s.enc.obuf.read i) ∧
    (i < s.params.ibufCap → readPort s .dIbuf i = s.dec.ibuf.read i) ∧
    (i < 384 → readPort s .dPal i = s.dec.pal.read i) ∧
    (i < s.params.npix → readPort s .dCur i = 0#1 ++ s.dec.cur.read i))

/-- The fields of the registers the host reads are where the register map puts them, and the bits no
field occupies read 0 (R25, R28 to R30, R32, R39, R41, R43, R44, R46, R47). PHASE shows the numbers
R26 and R40 give the phases, and ERR those R230 gives the errors. -/
def Obligations.RegisterReadsShowTheirFields : Prop :=
  let encNumber (p : EncPhase) : Nat :=
    match p with | .idle => 0 | .header => 1 | .stream => 2 | .done => 3 | .error => 7
  let decNumber (p : DecPhase) : Nat :=
    match p with | .idle => 0 | .active => 1 | .allRead => 2 | .done => 3 | .error => 7
  let errNumber (e : ErrCode) : Nat :=
    match e with
    | .none => 0 | .config => 1 | .encodeInvariant => 2 | .decodeTruncated => 3
    | .decodeFraming => 4 | .decodeTrailing => 5 | .illegalCommand => 6 | .outputOverflow => 7
  ∀ s : State,
    (((readRegister s 0x004).extractLsb' 0 3).toNat = encNumber s.enc.phase ∧
      (readRegister s 0x004).extractLsb' 3 1 = 0 ∧
      ((readRegister s 0x004).extractLsb' 4 4).toNat = errNumber s.enc.err ∧
      (readRegister s 0x004).extractLsb' 8 1 = BitVec.ofBool s.enc.busy ∧
      (readRegister s 0x004).extractLsb' 9 23 = 0) ∧
    (((readRegister s 0x104).extractLsb' 0 3).toNat = decNumber s.dec.phase ∧
      (readRegister s 0x104).extractLsb' 3 1 = 0 ∧
      ((readRegister s 0x104).extractLsb' 4 4).toNat = errNumber s.dec.err ∧
      (readRegister s 0x104).extractLsb' 8 1 = BitVec.ofBool s.dec.busy ∧
      (readRegister s 0x104).extractLsb' 9 1 = BitVec.ofBool (decide (s.dec.pos = s.dec.inLen)) ∧
      (readRegister s 0x104).extractLsb' 10 22 = 0) ∧
    ((readRegister s 0x010).extractLsb' 0 8 = s.enc.nframes ∧
      (readRegister s 0x010).extractLsb' 8 8 = s.enc.interval ∧
      (readRegister s 0x010).extractLsb' 16 3 = s.enc.bpp ∧
      (readRegister s 0x010).extractLsb' 19 13 = 0) ∧
    ((readRegister s 0x110).extractLsb' 0 8 = s.dec.nframes ∧
      (readRegister s 0x110).extractLsb' 8 8 = s.dec.interval ∧
      (readRegister s 0x110).extractLsb' 16 3 = s.dec.bpp ∧
      (readRegister s 0x110).extractLsb' 19 13 = 0) ∧
    (readRegister s 0x008).toNat = s.enc.palLen.toNat ∧
    (readRegister s 0x00C).toNat = s.enc.outLen.toNat ∧
    (readRegister s 0x014).toNat = s.enc.frames.toNat ∧
    (readRegister s 0x108).toNat = s.dec.inLen.toNat ∧
    (readRegister s 0x10C).toNat = s.dec.pos.toNat ∧
    (readRegister s 0x114).toNat = s.dec.frames.toNat

/-- A write within the window that is no command word reaches E_PAL_LEN's 16 bits or nothing; an
unaligned offset, a command register and an offset that names no register read 0 (R23, R28, R66). -/
def Obligations.OnlyPaletteLengthIsWritable : Prop :=
  (∀ (s : State) (w : Word) (off : Nat) (rest : List HostEvent), s.dec.busy = false → off < 512 →
    off ≠ 0x000 → off ≠ 0x100 → s.host = .regWrite (s.params.blockBase + off) w :: rest →
    step s = .next { s with
      host := rest
      enc := { s.enc with palLen := if off = 0x008 then w.extractLsb' 0 16 else s.enc.palLen } }) ∧
  (∀ (s : State) (off : Nat),
    off % 4 ≠ 0 ∨ off = 0x000 ∨ off = 0x100 ∨ (0x014 < off ∧ off < 0x100) ∨ 0x114 < off →
    readRegister s off = 0)

/-- Host writes to the read-only memories, and to an index at or beyond a memory's size, are ignored;
a read there returns 0; and no host access reaches E_REF (R67). -/
def Obligations.HostMemoryAccessRules : Prop :=
  ∀ (s : State) (rest : List HostEvent), s.dec.busy = false →
    (∀ m i b, s.host = .memWrite m i b :: rest →
      m = .eObuf ∨ m = .dPal ∨ m = .dCur ∨ hostMemSize s.params m ≤ i →
      step s = .next { s with host := rest }) ∧
    (∀ m i, hostMemSize s.params m ≤ i → readPort s m i = 0) ∧
    (∀ ev t, s.host = ev :: rest → commandOf s.params ev = none → ev ≠ .resetInput →
      step s = .next t → t.enc.ref = s.enc.ref) ∧
    (∀ s' : State, s' = { s with enc := { s.enc with ref := s'.enc.ref } } →
      (∀ off, readRegister s' off = readRegister s off) ∧ (∀ m i, readPort s' m i = readPort s m i))

/-- A host write to a writable memory within its size stores that entry and changes nothing else
(R34, R35, R48, R60, R78). That D_IBUF takes the write in DP_ACTIVE and DP_ALLREAD too is the model's
choice: R271 forbids the host that write, and W1 would let a model refuse it (log 10). -/
def Obligations.HostMemoryWriteStoresOneEntry : Prop :=
  ∀ (s : State) (rest : List HostEvent) (i : Nat) (b : Byte), s.dec.busy = false →
    (s.host = .memWrite .ePal i b :: rest → i < 384 →
      ∃ t, step s = .next t ∧ s.enc.pal.storesAt t.enc.pal i [b] ∧
        t = { s with host := rest, enc := { s.enc with pal := t.enc.pal } }) ∧
    (s.host = .memWrite .eFin i b :: rest → i < s.params.npix →
      ∃ t, step s = .next t ∧ s.enc.fin.storesAt t.enc.fin i [b] ∧
        t = { s with host := rest, enc := { s.enc with fin := t.enc.fin } }) ∧
    (s.host = .memWrite .dIbuf i b :: rest → i < s.params.ibufCap →
      ∃ t, step s = .next t ∧ s.dec.ibuf.storesAt t.dec.ibuf i [b] ∧
        t = { s with host := rest, dec := { s.dec with ibuf := t.dec.ibuf } })

/-- Commands are atomic (R17, R70): a step taken between commands, with any host event or none, leaves no
unit executing one, and both status registers then read BUSY = 0 (R33). E_STATUS does so in every
state that meets the invariant. That ENC has no state inside a command is log 8; that DEC has
states inside a run frame, which no step between commands leaves behind, is log 7. -/
def Obligations.BusyReadsZero : Prop :=
  ∀ s : State, s.Inv →
    (readRegister s 0x004).getLsbD 8 = false ∧
    (s.dec.busy = false → ∀ t, step s = .next t →
      t.dec.busy = false ∧ t.enc.busy = false ∧
      (readRegister t 0x004).getLsbD 8 = false ∧ (readRegister t 0x104).getLsbD 8 = false)

/-! ## Reset -/

/-- After either kind of reset every register of the unit reads its reset value (R261). -/
def Obligations.ResetRegisterValues : Prop :=
  let encReset (t : State) : Prop :=
    readRegister t 0x000 = 0 ∧ readRegister t 0x004 = 0 ∧ readRegister t 0x008 = 0 ∧
      readRegister t 0x00C = 0 ∧ readRegister t 0x010 = 0 ∧ readRegister t 0x014 = 0 ∧
      t.enc.phase = .idle ∧ t.enc.err = .none ∧ t.enc.wAcc = 0 ∧ t.enc.wCnt = 0
  let decReset (t : State) : Prop :=
    readRegister t 0x100 = 0 ∧ readRegister t 0x104 = 0x200#32 ∧ readRegister t 0x108 = 0 ∧
      readRegister t 0x10C = 0 ∧ readRegister t 0x110 = 0 ∧ readRegister t 0x114 = 0 ∧
      t.dec.phase = .idle ∧ t.dec.err = .none ∧ t.dec.rAcc = 0 ∧ t.dec.rCnt = 0
  (∀ (s : State) (rest : List HostEvent), s.dec.busy = false → s.host = .resetInput :: rest →
    ∃ t, step s = .next t ∧ encReset t ∧ decReset t) ∧
  (∀ s : State, ∃ t, exec .encReset s = .next t ∧ encReset t) ∧
  (∀ s : State, ∃ t, exec .decReset s = .next t ∧ decReset t)

/-- Every word of OP 1 at E_CMD is ENC_RESET, whatever its other bits; it completes in every phase, sets
every ENC register to its reset value and changes no memory (R151). -/
def Obligations.EncResetRestoresRegisters : Prop :=
  (∀ w : Word, (w.extractLsb' 0 4).toNat = 1 → decode (.eCmd w) = .ok .encReset) ∧
  ∀ s : State, exec .encReset s = .next { s with
    enc := { s.enc with
      phase := .idle, err := .none, busy := false, palLen := 0, outLen := 0, nframes := 0
      interval := 0, bpp := 0, frames := 0, wAcc := 0, wCnt := 0 } }

/-- Every word of OP 1 at D_CMD is DEC_RESET, whatever its other bits; it completes in every phase, sets
every DEC register to its reset value and changes no memory, and D_STATUS then reads 0x200
(R193). -/
def Obligations.DecResetRestoresRegisters : Prop :=
  (∀ w : Word, (w.extractLsb' 0 4).toNat = 1 → decode (.dCmd w) = .ok .decReset) ∧
  ∀ s : State, ∃ t, exec .decReset s = .next t ∧ readRegister t 0x104 = 0x200#32 ∧
    t = { s with
      dec := { s.dec with
        phase := .idle, err := .none, busy := false, inLen := 0, pos := 0, nframes := 0
        interval := 0, bpp := 0, frames := 0, rAcc := 0, rCnt := 0, pix := 0 } }

/-! ## ENC_HEADER -/

/-- A valid ENC_HEADER in EP_IDLE that fits E_OBUF stores the header's bytes at E_OUT_LEN, sets E_HDR and
enters EP_HEADER; every other register and memory entry is unchanged (R152, R154). That E_OBUF entries
above the new E_OUT_LEN are unchanged too is the model's choice: R36 and U3 leave them unspecified
(log 11). -/
def Obligations.EncHeaderStoresTheHeader : Prop :=
  ∀ (s : State) (nf iv bpp : Byte), s.enc.phase = .idle → writerReady s →
    0 < nf.toNat → 0 < iv.toNat → 0 < bpp.toNat → bpp.toNat < 8 →
    s.enc.palLen.toNat = 3 * 2 ^ bpp.toNat →
    s.enc.outLen.toNat + (3 + 3 * 2 ^ bpp.toNat) ≤ s.params.obufCap →
    ∃ t, exec (.encHeader nf iv bpp) s = .next t ∧
      s.enc.obuf.storesAt t.enc.obuf s.enc.outLen.toNat
        (headerBytes nf iv bpp (s.enc.pal.readList 0 (3 * 2 ^ bpp.toNat))) ∧
      t = { s with
        enc := { s.enc with
          obuf := t.enc.obuf
          outLen := s.enc.outLen + BitVec.ofNat 24 (3 + 3 * 2 ^ bpp.toNat)
          nframes := nf, interval := iv, bpp := bpp.extractLsb' 0 3, phase := .header } }

/-- ENC_HEADER outside EP_IDLE and EP_ERROR raises ILLEGAL_COMMAND whatever its operands; in EP_ERROR it
is ignored (R153). -/
def Obligations.EncHeaderOnlyInIdle : Prop :=
  ∀ (s : State) (nf iv bpp : Byte),
    (s.enc.phase ≠ .idle → s.enc.phase ≠ .error →
      exec (.encHeader nf iv bpp) s = .next { s with
        enc := { s.enc with phase := .error, err := .illegalCommand, busy := false } }) ∧
    (s.enc.phase = .error → exec (.encHeader nf iv bpp) s = .next s)

/-- In EP_IDLE, ENC_HEADER raises CONFIG exactly when a header value is out of range or the palette length
is not 3 · 2^bpp, and then no byte is written (R152). -/
def Obligations.EncHeaderValidation : Prop :=
  ∀ (s : State) (nf iv bpp : Byte), s.enc.phase = .idle →
    (¬ (0 < nf.toNat ∧ nf.toNat < 256 ∧ 0 < iv.toNat ∧ iv.toNat < 256 ∧ 0 < bpp.toNat ∧
        bpp.toNat < 8 ∧ s.enc.palLen.toNat = 3 * 2 ^ bpp.toNat) →
      exec (.encHeader nf iv bpp) s = .next { s with
        enc := { s.enc with phase := .error, err := .config, busy := false } }) ∧
    (0 < nf.toNat ∧ nf.toNat < 256 ∧ 0 < iv.toNat ∧ iv.toNat < 256 ∧ 0 < bpp.toNat ∧
        bpp.toNat < 8 ∧ s.enc.palLen.toNat = 3 * 2 ^ bpp.toNat → writerReady s →
      ∃ t, exec (.encHeader nf iv bpp) s = .next t ∧
        (t.enc.phase = .header ∨ t.enc.phase = .error ∧ t.enc.err = .outputOverflow))

/-- A valid ENC_HEADER that does not fit E_OBUF raises OUTPUT_OVERFLOW; what it may write is unspecified,
the rest, E_HDR among it, is unchanged (R30, R122, R154, R238; logs 5, 6 and 15). -/
def Obligations.EncHeaderOverflow : Prop :=
  ∀ (s : State) (nf iv bpp : Byte), s.enc.phase = .idle → writerReady s →
    0 < nf.toNat → 0 < iv.toNat → 0 < bpp.toNat → bpp.toNat < 8 →
    s.enc.palLen.toNat = 3 * 2 ^ bpp.toNat →
    s.params.obufCap < s.enc.outLen.toNat + (3 + 3 * 2 ^ bpp.toNat) →
    ∃ t, exec (.encHeader nf iv bpp) s = .next t ∧ encFailed .outputOverflow s t

/-! ## ENC_FRAME -/

/-- The first frame: every pixel is stored at `bpp` bits in raster order, zero-padded to a byte boundary;
the frame becomes the reference, the frame count and the phase advance, and every other register
and memory entry is unchanged (R155, R157, R159, R162). That E_OBUF entries above the new E_OUT_LEN are
unchanged too is the model's choice: R36 and U3 leave them unspecified (log 11). -/
def Obligations.EncFrameStoresTheLiteralFrame : Prop :=
  ∀ (s : State) (len : BitVec 24), s.enc.phase = .header → s.enc.frames = 0 → writerReady s →
    len.toNat = s.params.npix →
    (∀ k < s.params.npix, (s.enc.fin.read k).toNat < 2 ^ s.enc.bpp.toNat) →
    s.enc.outLen.toNat + (s.params.npix * s.enc.bpp.toNat + 7) / 8 ≤ s.params.obufCap →
    let f : List Pixel := pixelsOf (s.enc.fin.readList 0 s.params.npix)
    let bytes := wireBytes (pixelBits s.enc.bpp.toNat f)
    bytes.length = (s.params.npix * s.enc.bpp.toNat + 7) / 8 ∧
    ∃ t, exec (.encFrame len) s = .next t ∧
      s.enc.obuf.storesAt t.enc.obuf s.enc.outLen.toNat bytes ∧
      s.enc.ref.storesAt t.enc.ref 0 f ∧
      t = { s with
        enc := { s.enc with
          obuf := t.enc.obuf, ref := t.enc.ref
          outLen := s.enc.outLen + BitVec.ofNat 24 bytes.length
          frames := s.enc.frames + 1
          phase := if s.enc.frames + 1 = s.enc.nframes then .done else .stream } }

/-- A later frame: the bits of the runs chosen against the reference are stored one token after another,
zero-padded to a byte boundary; the frame becomes the reference, the frame count and the phase
advance, and every other register and memory entry is unchanged (R155, R157, R161, R162, R164, R165).
That E_OBUF entries above the new E_OUT_LEN are unchanged too is the model's choice: R36 and U3 leave
them unspecified (log 11). -/
def Obligations.EncFrameStoresTheRunFrame : Prop :=
  ∀ (s : State) (len : BitVec 24), s.enc.phase = .header ∨ s.enc.phase = .stream →
    s.enc.frames ≠ 0 → writerReady s → len.toNat = s.params.npix →
    (∀ k < s.params.npix, (s.enc.fin.read k).toNat < 2 ^ s.enc.bpp.toNat) →
    let f : List Pixel := pixelsOf (s.enc.fin.readList 0 s.params.npix)
    let runs := chooseRuns f (s.enc.ref.readList 0 s.params.npix)
    let bytes := wireBytes (runsBits s.enc.bpp.toNat runs)
    s.enc.outLen.toNat + bytes.length ≤ s.params.obufCap →
    ∃ t, exec (.encFrame len) s = .next t ∧
      s.enc.obuf.storesAt t.enc.obuf s.enc.outLen.toNat bytes ∧
      s.enc.ref.storesAt t.enc.ref 0 f ∧
      t = { s with
        enc := { s.enc with
          obuf := t.enc.obuf, ref := t.enc.ref
          outLen := s.enc.outLen + BitVec.ofNat 24 bytes.length
          frames := s.enc.frames + 1
          phase := if s.enc.frames + 1 = s.enc.nframes then .done else .stream } }

/-- ENC_FRAME in EP_IDLE or EP_DONE raises ILLEGAL_COMMAND before any other check; in EP_ERROR it is
ignored (R156). -/
def Obligations.EncFrameOnlyInAStream : Prop :=
  ∀ (s : State) (len : BitVec 24),
    (s.enc.phase = .idle ∨ s.enc.phase = .done → exec (.encFrame len) s = .next { s with
      enc := { s.enc with phase := .error, err := .illegalCommand, busy := false } }) ∧
    (s.enc.phase = .error → exec (.encFrame len) s = .next s)

/-- A frame whose declared length is not NPIX, or with a pixel that does not fit `bpp` bits, raises
ENCODE_INVARIANT before any bit is written, and every register and memory but ERR and PHASE keeps
its value (R158). -/
def Obligations.EncFrameValidation : Prop :=
  ∀ (s : State) (len : BitVec 24), s.enc.phase = .header ∨ s.enc.phase = .stream →
    len.toNat ≠ s.params.npix ∨
      (∃ k < s.params.npix, 2 ^ s.enc.bpp.toNat ≤ (s.enc.fin.read k).toNat) →
    exec (.encFrame len) s = .next { s with
      enc := { s.enc with phase := .error, err := .encodeInvariant, busy := false } }

/-- A valid frame that does not fit E_OBUF raises OUTPUT_OVERFLOW; the reference frame, the frame count
and everything the command may not write are unchanged (R37, R122, R157, R238; logs 5, 6 and 15). -/
def Obligations.EncFrameOverflow : Prop :=
  ∀ (s : State) (len : BitVec 24), s.enc.phase = .header ∨ s.enc.phase = .stream → writerReady s →
    len.toNat = s.params.npix →
    (∀ k < s.params.npix, (s.enc.fin.read k).toNat < 2 ^ s.enc.bpp.toNat) →
    let f : List Pixel := pixelsOf (s.enc.fin.readList 0 s.params.npix)
    let bits := if s.enc.frames = 0 then pixelBits s.enc.bpp.toNat f
      else runsBits s.enc.bpp.toNat (chooseRuns f (s.enc.ref.readList 0 s.params.npix))
    s.params.obufCap < s.enc.outLen.toNat + (wireBytes bits).length →
    ∃ t, exec (.encFrame len) s = .next t ∧ encFailed .outputOverflow s t

/-- ENC's output depends on its registers, the input frame and the reference frame alone: a state that
agrees on those produces the same registers and the same bytes, whatever else its memories hold
(R169). -/
def Obligations.EncoderOutputIsDetermined : Prop :=
  ∀ (s s' t : State) (len : BitVec 24), s'.params = s.params → writerReady s →
    encAgree s.params.npix s.enc s'.enc → exec (.encFrame len) s = .next t →
    t.enc.phase ≠ .error →
    ∃ t', exec (.encFrame len) s' = .next t' ∧ encAgree s.params.npix t.enc t'.enc

/-! ## Run selection -/

/-- EqRun measures the run of consecutive pixels equal to the reference, capped at 128 and at the frame
end (R160, R163). -/
def Obligations.EqRunMeasuresTheMatch : Prop :=
  ∀ f r : List Pixel, f.length = r.length →
    eqRun 128 f r ≤ 128 ∧ eqRun 128 f r ≤ f.length ∧
    (∀ j < eqRun 128 f r, f[j]? = r[j]?) ∧
    (eqRun 128 f r = 128 ∨ eqRun 128 f r = f.length ∨ f[eqRun 128 f r]? ≠ r[eqRun 128 f r]?)

/-- The four steps of the greedy policy, at any position with pixels left: a match of 4 or more is a
SAME; fewer than 4 pixels left are a DIFF; otherwise a DIFF up to the first position with a match of
4 or more, at most 128 pixels and at most to the frame end (R160, R167, R168). -/
def Obligations.RunSelectionIsGreedy : Prop :=
  ∀ f r : List Pixel, f.length = r.length → f ≠ [] →
    ∃ n, chooseRuns f r =
        (if 4 ≤ eqRun 128 f r then Run.same n else Run.diff (f.take n)) ::
          chooseRuns (f.drop n) (r.drop n) ∧
      (4 ≤ eqRun 128 f r → n = eqRun 128 f r) ∧
      (eqRun 128 f r < 4 → f.length < 4 → n = f.length) ∧
      (eqRun 128 f r < 4 → 4 ≤ f.length →
        1 ≤ n ∧ n ≤ 128 ∧ n ≤ f.length ∧
        (∀ j, 1 ≤ j → j < n → eqRun 128 (f.drop j) (r.drop j) < 4) ∧
        (n = 128 ∨ n = f.length ∨ 4 ≤ eqRun 128 (f.drop n) (r.drop n)))

/-- The properties of the encoder's runs (R166): their bounds, that they cover the frame exactly, where a
DIFF ends, and that two SAME runs are adjacent only if the first has length 128. -/
def Obligations.ChosenRunsBounds : Prop :=
  ∀ f r : List Pixel, f.length = r.length →
    (∀ n, Run.same n ∈ chooseRuns f r → 4 ≤ n ∧ n ≤ 128) ∧
    (∀ l, Run.diff l ∈ chooseRuns f r → 1 ≤ l.length ∧ l.length ≤ 128) ∧
    runsPixels (chooseRuns f r) = f.length ∧
    (∀ before l after, chooseRuns f r = before ++ Run.diff l :: after →
      l.length = 128 ∨ runsPixels before + l.length = f.length ∨
      4 ≤ eqRun 128 (f.drop (runsPixels before + l.length))
        (r.drop (runsPixels before + l.length))) ∧
    (∀ before l l' after, chooseRuns f r = before ++ Run.diff l :: Run.diff l' :: after →
      l.length = 128) ∧
    (∀ before n n' after, chooseRuns f r = before ++ Run.same n :: Run.same n' :: after → n = 128)

/-- The chosen runs, applied to the reference, rebuild the frame: the codec is lossless (R162, R203). -/
def Obligations.ChosenRunsRebuildTheFrame : Prop :=
  ∀ f r : List Pixel, f.length = r.length → applyRuns (chooseRuns f r) r = f

/-- A frame equal to its reference encodes as SAME(128) runs and a tail (R155). -/
def Obligations.UnchangedFrameRuns : Prop :=
  ∀ f : List Pixel, 4 ≤ f.length →
    chooseRuns f f = List.replicate (f.length / 128) (Run.same 128) ++
      (if f.length % 128 = 0 then []
       else if 4 ≤ f.length % 128 then [Run.same (f.length % 128)]
       else [Run.diff (f.drop (f.length - f.length % 128))])

/-- The size of a run frame in bytes: at least one byte for 128 pixels, at most one for each pixel and the
literals (R108). -/
def Obligations.RunFrameSizeBounds : Prop :=
  ∀ (f r : List Pixel) (bpp : Nat), f.length = r.length →
    (f.length + 127) / 128 ≤ (wireBytes (runsBits bpp (chooseRuns f r))).length ∧
    (wireBytes (runsBits bpp (chooseRuns f r))).length ≤
      f.length + (bpp * f.length + 7) / 8

/-! ## Bitstream primitives -/

/-- Any sequence of writer primitives that raises no error appends the concatenation of its fields, LSB
first, zero-padded at each Flush, and the stream's length is `8 · E_OUT_LEN + W_CNT` (R126). -/
def Obligations.WriterCallsAppendTheirFields : Prop :=
  ∀ (cap : Nat) (calls : List WriterCall) (e e' : Enc), cap < 2 ^ 24 → e.outLen.toNat ≤ cap →
    e.wAcc.toNat < 2 ^ e.wCnt.toNat →
    (∀ v n, WriterCall.bits v n ∈ calls → n ≤ 8) →
    callsWriter cap calls e = .ok e' →
    writtenBits e' = calls.foldl appendCall (writtenBits e) ∧
    8 * e'.outLen.toNat + e'.wCnt.toNat = (writtenBits e').length

/-- Reader calls that mirror writer calls return the values written, raise no error, and end exactly at
the end of the input when the writer ended with a Flush (R135). -/
def Obligations.ReaderMirrorsWriter : Prop :=
  ∀ (cap : Nat) (calls : List WriterCall) (e e' : Enc) (d : Dec), cap < 2 ^ 24 →
    e.outLen = 0 → e.wAcc = 0 → e.wCnt = 0 →
    (∀ v n, WriterCall.bits v n ∈ calls → n ≤ 8) →
    callsWriter cap (calls ++ [.flush]) e = .ok e' →
    d.rAcc = 0 → d.rCnt = 0 → d.pos = 0 → d.inLen = e'.outLen →
    d.ibuf.readList 0 d.inLen.toNat = e'.obuf.readList 0 e'.outLen.toNat →
    ∃ d', callsReader (calls ++ [.flush]) d = .ok (calls.flatMap callValues, d') ∧
      d'.pos = d'.inLen

/-! ## DEC_INIT -/

/-- DEC_INIT in DP_IDLE on a stream whose header is in range and complete: the header values and the
palette are read, the cursor stands behind them, and the phase is DP_ACTIVE; every other register and
memory entry is unchanged (R191, R192). That D_PAL entries at and above 3 · 2^bpp are unchanged too is
the model's choice: R49 and U4 leave them unspecified (log 11). -/
def Obligations.DecInitReadsTheHeader : Prop :=
  ∀ (s : State) (len : BitVec 24), s.dec.phase = .idle → len.toNat ≤ s.params.ibufCap →
    let nf := s.dec.ibuf.read 0
    let iv := s.dec.ibuf.read 1
    let bpp := s.dec.ibuf.read 2
    0 < nf.toNat → 0 < iv.toNat → 0 < bpp.toNat → bpp.toNat < 8 →
    3 + 3 * 2 ^ bpp.toNat ≤ len.toNat →
    ∃ t, exec (.decInit len) s = .next t ∧
      s.dec.pal.storesAt t.dec.pal 0 (s.dec.ibuf.readList 3 (3 * 2 ^ bpp.toNat)) ∧
      t = { s with
        dec := { s.dec with
          inLen := len, pos := BitVec.ofNat 24 (3 + 3 * 2 ^ bpp.toNat), rAcc := 0, rCnt := 0
          nframes := nf, interval := iv, bpp := bpp.extractLsb' 0 3, frames := 0
          pal := t.dec.pal, phase := .active } }

/-- DEC_INIT outside DP_IDLE, or with a length above IBUF_CAP, raises ILLEGAL_COMMAND and changes nothing
but ERR and PHASE; in DP_ERROR it is ignored (R191, R235). -/
def Obligations.DecInitRejects : Prop :=
  ∀ (s : State) (len : BitVec 24),
    (s.dec.phase ≠ .error → s.dec.phase ≠ .idle ∨ s.params.ibufCap < len.toNat →
      exec (.decInit len) s = .next { s with
        dec := { s.dec with phase := .error, err := .illegalCommand, busy := false, pix := 0 } }) ∧
    (s.dec.phase = .error → exec (.decInit len) s = .next s)

/-- DEC_INIT on a bad stream, in the order of R240: fewer than 3 bytes are DECODE_TRUNCATED whatever their
values; a header value out of range is CONFIG; a short palette is DECODE_TRUNCATED (R192, R238,
R240; logs 5 and 6). -/
def Obligations.DecInitErrors : Prop :=
  ∀ (s : State) (len : BitVec 24), s.dec.phase = .idle → len.toNat ≤ s.params.ibufCap →
    let nf := s.dec.ibuf.read 0
    let iv := s.dec.ibuf.read 1
    let bpp := s.dec.ibuf.read 2
    (len.toNat < 3 →
      ∃ t, exec (.decInit len) s = .next t ∧ decInitFailed .decodeTruncated len s t) ∧
    (3 ≤ len.toNat → nf.toNat = 0 ∨ iv.toNat = 0 ∨ bpp.toNat = 0 ∨ 8 ≤ bpp.toNat →
      ∃ t, exec (.decInit len) s = .next t ∧ decInitFailed .config len s t) ∧
    (3 ≤ len.toNat → 0 < nf.toNat → 0 < iv.toNat → 0 < bpp.toNat → bpp.toNat < 8 →
      len.toNat < 3 + 3 * 2 ^ bpp.toNat →
      ∃ t, exec (.decInit len) s = .next t ∧ decInitFailed .decodeTruncated len s t)

/-! ## DEC_FRAME -/

/-- The first frame: every entry of D_CUR takes the next `bpp` bits of the stream, the rest of the last
byte is discarded, the frame count and the phase advance, and every other register and memory entry is
unchanged (R194, R195, R200). -/
def Obligations.DecFrameReadsTheLiteralFrame : Prop :=
  ∀ s : State, s.dec.phase = .active → s.dec.frames = 0 → readerReady s.dec →
    s.params.npix * s.dec.bpp.toNat ≤ (unreadBits s.dec).length →
    ∃ t, exec .decFrame s = .next t ∧
      s.dec.cur.storesAt t.dec.cur 0
        (pixelFields s.dec.bpp.toNat s.params.npix (unreadBits s.dec)) ∧
      t.dec.pos.toNat = s.dec.pos.toNat + (s.params.npix * s.dec.bpp.toNat + 7) / 8 ∧
      t = { s with
        dec := { s.dec with
          cur := t.dec.cur, pos := t.dec.pos, busy := false, pix := 0
          frames := s.dec.frames + 1
          phase := if s.dec.frames + 1 = s.dec.nframes then .allRead else .active } }

/-- A later frame: on a stream that holds tokens covering the frame exactly, D_CUR becomes what the runs
make of the previous frame, the rest of the last byte is discarded whatever its bits, the frame
count and the phase advance, and every other register and memory entry is unchanged (R194, R196, R198
to R200). -/
def Obligations.DecFrameExecutesTheRuns : Prop :=
  ∀ (s : State) (runs : List Run) (rest : List Bool), s.dec.phase = .active → s.dec.frames ≠ 0 →
    readerReady s.dec → (∀ run ∈ runs, runOk s.dec.bpp.toNat run = true) →
    runsPixels runs = s.params.npix → unreadBits s.dec = runsBits s.dec.bpp.toNat runs ++ rest →
    ∃ t, exec .decFrame s = .next t ∧
      t.dec.cur.readList 0 s.params.npix =
        applyRuns runs (s.dec.cur.readList 0 s.params.npix) ∧
      (∀ a, s.params.npix ≤ a → t.dec.cur.read a = s.dec.cur.read a) ∧
      t.dec.pos.toNat =
        s.dec.pos.toNat + ((runsBits s.dec.bpp.toNat runs).length + 7) / 8 ∧
      t = { s with
        dec := { s.dec with
          cur := t.dec.cur, pos := t.dec.pos, busy := false, pix := 0
          frames := s.dec.frames + 1
          phase := if s.dec.frames + 1 = s.dec.nframes then .allRead else .active } }

/-- DEC_FRAME outside DP_ACTIVE raises ILLEGAL_COMMAND and changes nothing but ERR and PHASE; in DP_ERROR
it is ignored (R194, R200, R235). -/
def Obligations.DecFrameOnlyWhenActive : Prop :=
  ∀ s : State,
    (s.dec.phase ≠ .active → s.dec.phase ≠ .error → exec .decFrame s = .next { s with
      dec := { s.dec with phase := .error, err := .illegalCommand, busy := false, pix := 0 } }) ∧
    (s.dec.phase = .error → exec .decFrame s = .next s)

/-- A run that overshoots the frame raises DECODE_FRAMING right after its header is read, even when its
literals are missing (R196, R197, R240; log 5). -/
def Obligations.OvershootingRunIsAFramingError : Prop :=
  ∀ (s : State) (runs : List Run) (mode n : Nat) (rest : List Bool), s.dec.phase = .active →
    s.dec.frames ≠ 0 → readerReady s.dec → (∀ run ∈ runs, runOk s.dec.bpp.toNat run = true) →
    runsPixels runs < s.params.npix → mode < 2 → 1 ≤ n → n ≤ 128 →
    s.params.npix < runsPixels runs + n →
    unreadBits s.dec = runsBits s.dec.bpp.toNat runs ++ (runHeaderBits mode n ++ rest) →
    ∃ t, exec .decFrame s = .next t ∧ decFrameFailed .decodeFraming s t

/-- A stream that ends inside a literal frame, inside a run header, or among the literals of a DIFF raises
DECODE_TRUNCATED (R131, R195, R196, R199; log 5). -/
def Obligations.FrameThatEndsEarlyIsTruncated : Prop :=
  (∀ s : State, s.dec.phase = .active → s.dec.frames = 0 → readerReady s.dec →
    (unreadBits s.dec).length < s.params.npix * s.dec.bpp.toNat →
    ∃ t, exec .decFrame s = .next t ∧ decFrameFailed .decodeTruncated s t) ∧
  (∀ (s : State) (runs : List Run) (rest : List Bool), s.dec.phase = .active →
    s.dec.frames ≠ 0 → readerReady s.dec → (∀ run ∈ runs, runOk s.dec.bpp.toNat run = true) →
    runsPixels runs < s.params.npix → unreadBits s.dec = runsBits s.dec.bpp.toNat runs ++ rest →
    (rest.length < 8 ∨
      ∃ n literals, 1 ≤ n ∧ n ≤ 128 ∧ runsPixels runs + n ≤ s.params.npix ∧
        rest = runHeaderBits 1 n ++ literals ∧ literals.length < n * s.dec.bpp.toNat) →
    ∃ t, exec .decFrame s = .next t ∧ decFrameFailed .decodeTruncated s t)

/-- DEC_FRAME of a run frame is its tokens, one step each, and nothing else: running the machine from the
opened frame, with no host event pending, ends where the atomic command ends (R70, R196; log 7). -/
def Obligations.DecFrameIsItsTokenSteps : Prop :=
  ∀ s : State, s.dec.phase = .active → s.dec.frames ≠ 0 → s.host = [] →
    exec .decFrame s = Sys2Proof.core.run s.params.npix (openRunFrame s)

/-- DEC_FRAME never moves the cursor back (R22, R44). -/
def Obligations.DecFrameMovesTheCursorForward : Prop :=
  ∀ s t : State, readerReady s.dec → exec .decFrame s = .next t → t.dec.phase ≠ .error →
    s.dec.pos ≤ t.dec.pos ∧ t.dec.pos ≤ t.dec.inLen

/-- A host write to an entry of D_IBUF below D_POS has no effect on decoding (R78). -/
def Obligations.InputBelowTheCursorIsNotReadAgain : Prop :=
  ∀ (s t : State) (i : Nat) (b : Byte), s.dec.pos ≤ s.dec.inLen → i < s.dec.pos.toNat →
    exec .decFrame s = .next t →
    exec .decFrame { s with dec := { s.dec with ibuf := s.dec.ibuf.write i b } } =
      .next { t with dec := { t.dec with ibuf := t.dec.ibuf.write i b } }

/-! ## DEC_CHECK_END -/

/-- DEC_CHECK_END in DP_ALLREAD: DP_DONE when every input byte has been consumed, DECODE_TRAILING
otherwise; elsewhere ILLEGAL_COMMAND, and ignored in DP_ERROR; nothing else changes (R201). -/
def Obligations.DecCheckEndFindsTrailingData : Prop :=
  ∀ s : State,
    (s.dec.phase = .allRead → s.dec.pos = s.dec.inLen →
      exec .decCheckEnd s = .next { s with dec := { s.dec with phase := .done } }) ∧
    (s.dec.phase = .allRead → s.dec.pos ≠ s.dec.inLen → exec .decCheckEnd s = .next { s with
      dec := { s.dec with phase := .error, err := .decodeTrailing, busy := false, pix := 0 } }) ∧
    (s.dec.phase ≠ .allRead → s.dec.phase ≠ .error → exec .decCheckEnd s = .next { s with
      dec := { s.dec with phase := .error, err := .illegalCommand, busy := false, pix := 0 } }) ∧
    (s.dec.phase = .error → exec .decCheckEnd s = .next s)

/-! ## Tokens -/

/-- SAME n within the frame advances the position by `n`, whatever `n` from 1 to 128, and changes nothing
else: the span keeps its values (R198; a token as an instruction is the model's, log 7). -/
def Obligations.SameKeepsItsSpan : Prop :=
  ∀ (s : State) (n : Nat), 1 ≤ n → n ≤ 128 → s.dec.pix + n ≤ s.params.npix →
    exec (.same n) s = .next { s with dec := { s.dec with pix := s.dec.pix + n } }

/-- DIFF n within the frame, with its literals in the stream, overwrites its span with the next `n` fields
of `bpp` bits and advances by `n`; every other register and memory entry is unchanged (R199; a token as an
instruction is the model's, log 7). -/
def Obligations.DiffOverwritesItsSpan : Prop :=
  ∀ (s : State) (n : Nat), 1 ≤ n → n ≤ 128 → s.dec.pix + n ≤ s.params.npix → readerOk s.dec →
    n * s.dec.bpp.toNat ≤ (unreadBits s.dec).length →
    ∃ t, exec (.diff n) s = .next t ∧
      s.dec.cur.storesAt t.dec.cur s.dec.pix
        (pixelFields s.dec.bpp.toNat n (unreadBits s.dec)) ∧
      unreadBits t.dec = (unreadBits s.dec).drop (n * s.dec.bpp.toNat) ∧
      t = { s with
        dec := { s.dec with
          pix := s.dec.pix + n, cur := t.dec.cur
          pos := t.dec.pos, rAcc := t.dec.rAcc, rCnt := t.dec.rCnt } }

/-- A token that overshoots the frame raises DECODE_FRAMING, SAME and DIFF alike, and a run that ends
exactly at the frame end does not (R197; logs 5 and 7). -/
def Obligations.TokenFramingCheck : Prop :=
  ∀ (s : State) (n : Nat),
    (s.params.npix < s.dec.pix + n →
      (∃ t, exec (.same n) s = .next t ∧ decFrameFailed .decodeFraming s t) ∧
      (∃ t, exec (.diff n) s = .next t ∧ decFrameFailed .decodeFraming s t)) ∧
    (s.dec.pix + n = s.params.npix → s.dec.phase ≠ .error → readerOk s.dec →
      n * s.dec.bpp.toNat ≤ (unreadBits s.dec).length →
      (∃ t, exec (.same n) s = .next t ∧ t.dec.phase ≠ .error) ∧
      (∃ t, exec (.diff n) s = .next t ∧ t.dec.phase ≠ .error))

/-- A DIFF whose literals the stream does not hold raises DECODE_TRUNCATED (R131, R199; logs 5 and 7). -/
def Obligations.DiffWithoutItsLiteralsIsTruncated : Prop :=
  ∀ (s : State) (n : Nat), s.dec.pix + n ≤ s.params.npix → readerOk s.dec →
    (unreadBits s.dec).length < n * s.dec.bpp.toNat →
    ∃ t, exec (.diff n) s = .next t ∧ decFrameFailed .decodeTruncated s t

/-! ## The whole machine -/

/-- The invariant holds after reset, in the build that log 1 chooses (R261, R263). -/
def Obligations.ResetMeetsTheInvariant : Prop := State.reset.Inv

/-- Every step keeps the invariant: the bounds on the counters, the lifecycle of the phases, no pending
bits between commands, legal pixels, and the canonical form of every memory (R26 to R53, R205; what
an error leaves and the form of a memory are the model's, logs 4, 5, 6 and 15). -/
def Obligations.EveryStepKeepsTheInvariant : Prop :=
  ∀ s t : State, s.Inv → step s = .next t → t.Inv

/-- Every instruction leaves the other unit, the parameters and the host's fields as they are (R17, R20,
R248). -/
def Obligations.InstructionsLeaveTheOtherUnitAlone : Prop :=
  ∀ (i : Instr) (s t : State), exec i s = .next t →
    (unitOf i = .enc → t.dec = s.dec) ∧ (unitOf i = .dec → t.enc = s.enc) ∧
    t.params = s.params ∧ t.host = s.host ∧ t.rdata = s.rdata

/-- What an instruction does to its unit does not depend on the other unit (R17, R248). -/
def Obligations.UnitsDoNotDependOnEachOther : Prop :=
  ∀ (i : Instr) (s t : State), exec i s = .next t →
    (unitOf i = .enc → ∀ d, exec i { s with dec := d } = .next { t with dec := d }) ∧
    (unitOf i = .dec → ∀ e, exec i { s with enc := e } = .next { t with enc := e })

/-- The machine never stops: every step of every state answers a next state, since every error is a code
in its unit (R18, R238). -/
def Obligations.EveryStepHasANextState : Prop := ∀ s : State, ∃ t, step s = .next t

/-! ## Round trips -/

/-- One frame: a decoder at the same frame of the stream, with the reference frame in D_CUR and the bytes
ENC_FRAME stored at its cursor, decodes the frame ENC encoded and consumes exactly those bytes
(R135, R162, R203). -/
def Obligations.DecFrameInvertsEncFrame : Prop :=
  ∀ (s t u : State) (len : BitVec 24), writerReady s → exec (.encFrame len) s = .next t →
    s.enc.phase = .header ∨ s.enc.phase = .stream → t.enc.phase ≠ .error →
    u.params.npix = s.params.npix → u.dec.phase = .active → readerReady u.dec →
    u.dec.frames = s.enc.frames → u.dec.bpp = s.enc.bpp →
    (s.enc.frames ≠ 0 →
      u.dec.cur.readList 0 s.params.npix = s.enc.ref.readList 0 s.params.npix) →
    let n := t.enc.outLen.toNat - s.enc.outLen.toNat
    u.dec.pos.toNat + n ≤ u.dec.inLen.toNat →
    u.dec.ibuf.readList u.dec.pos.toNat n = t.enc.obuf.readList s.enc.outLen.toNat n →
    ∃ v, exec .decFrame u = .next v ∧ v.dec.phase ≠ .error ∧
      v.dec.cur.readList 0 s.params.npix = t.enc.ref.readList 0 s.params.npix ∧
      v.dec.cur.readList 0 s.params.npix =
        pixelsOf (s.enc.fin.readList 0 s.params.npix) ∧
      v.dec.pos.toNat = u.dec.pos.toNat + n ∧ readerReady v.dec

/-- The whole stream (R203): from ENC's reset state, ENC_HEADER and the frames of the header's count reach
EP_DONE; then a reset decoder given the stream reads back the header and the palette, decodes every
frame as encoded, each equal to ENC's reference after that frame, and finds no trailing data. -/
def Obligations.DecodingInvertsEncoding : Prop :=
  ∀ (s t u v : State) (nf iv bpp : Byte) (frames : List (List Byte))
    (refs : List (List Pixel)),
    s.params.valid → v.params = s.params →
    s.enc = { resetEncRegisters s.enc with palLen := s.enc.palLen } →
    frames.length = nf.toNat → (∀ g ∈ frames, g.length = s.params.npix) →
    exec (.encHeader nf iv bpp) s = .next t → t.enc.phase = .header →
    encodeFrames frames t = some (refs, u) →
    v.dec = resetDecRegisters v.dec → u.enc.outLen.toNat ≤ s.params.ibufCap →
    v.dec.ibuf.readList 0 u.enc.outLen.toNat = u.enc.obuf.readList 0 u.enc.outLen.toNat →
    u.enc.phase = .done ∧ refs = frames.map pixelsOf ∧
    ∃ w, exec (.decInit u.enc.outLen) v = .next w ∧
      w.dec.nframes = u.enc.nframes ∧ w.dec.interval = u.enc.interval ∧ w.dec.bpp = u.enc.bpp ∧
      w.dec.nframes = nf ∧ w.dec.interval = iv ∧ w.dec.bpp.toNat = bpp.toNat ∧
      w.dec.pal.readList 0 (3 * 2 ^ bpp.toNat) = s.enc.pal.readList 0 (3 * 2 ^ bpp.toNat) ∧
      ∃ x, decodeFrames frames.length w = some (refs, x) ∧
        ∃ y, exec .decCheckEnd x = .next y ∧ y.dec.phase = .done
end

