-- ==== Sys2Proof/Laws/State.lean ====
section
/-!
SUPPORT. Reading a field after a record update or a shared operation: one lemma per field that a later
proof reads, each true by definition.
-/

namespace Sys2Proof.Machine

/-! ## Memories -/

@[simp] theorem Mem.write_fill {w : Nat} (m : Mem w) (i : Nat) (v : BitVec w) :
    (m.write i v).fill = m.fill := rfl

@[simp] theorem Mem.write_cells {w : Nat} (m : Mem w) (i : Nat) (v : BitVec w) :
    (m.write i v).cells = insertCell m.cells i v := rfl

@[simp] theorem Mem.unspecified_cells (w k : Nat) : (Mem.unspecified w k).cells = [] := rfl

@[simp] theorem Mem.unspecified_fill (w k : Nat) : (Mem.unspecified w k).fill = k := rfl

@[simp] theorem Mem.writeList_nil {w : Nat} (m : Mem w) (i : Nat) : m.writeList i [] = m := rfl

@[simp] theorem Mem.writeList_cons {w : Nat} (m : Mem w) (i : Nat) (v : BitVec w)
    (vs : List (BitVec w)) : m.writeList i (v :: vs) = (m.write i v).writeList (i + 1) vs := rfl

/-- Every memory of the machine right after reset has its canonical form (R262). -/
theorem State.reset_memories_wf :
    State.reset.enc.pal.wf palCap = true ∧ State.reset.enc.fin.wf State.reset.params.npix = true ∧
      State.reset.enc.obuf.wf State.reset.params.obufCap = true ∧
      State.reset.enc.ref.wf State.reset.params.npix = true ∧
      State.reset.dec.ibuf.wf State.reset.params.ibufCap = true ∧
      State.reset.dec.pal.wf palCap = true ∧ State.reset.dec.cur.wf State.reset.params.npix = true :=
  ⟨rfl, rfl, rfl, rfl, rfl, rfl, rfl⟩

/-! ## The error step (R238) -/

@[simp] theorem raise_enc_dec (c : ErrCode) (s : State) : (raise .enc c s).dec = s.dec := rfl
@[simp] theorem raise_enc_params (c : ErrCode) (s : State) : (raise .enc c s).params = s.params := rfl
@[simp] theorem raise_enc_host (c : ErrCode) (s : State) : (raise .enc c s).host = s.host := rfl
@[simp] theorem raise_enc_rdata (c : ErrCode) (s : State) : (raise .enc c s).rdata = s.rdata := rfl
@[simp] theorem raise_enc_free (c : ErrCode) (s : State) : (raise .enc c s).free = s.free := rfl
@[simp] theorem raise_enc_phase (c : ErrCode) (s : State) : (raise .enc c s).enc.phase = .error := rfl
@[simp] theorem raise_enc_err (c : ErrCode) (s : State) : (raise .enc c s).enc.err = c := rfl
@[simp] theorem raise_enc_busy (c : ErrCode) (s : State) : (raise .enc c s).enc.busy = false := rfl
@[simp] theorem raise_enc_outLen (c : ErrCode) (s : State) :
    (raise .enc c s).enc.outLen = s.enc.outLen := rfl
@[simp] theorem raise_enc_obuf (c : ErrCode) (s : State) :
    (raise .enc c s).enc.obuf = s.enc.obuf := rfl
@[simp] theorem raise_enc_ref (c : ErrCode) (s : State) :
    (raise .enc c s).enc.ref = s.enc.ref := rfl
@[simp] theorem raise_enc_frames (c : ErrCode) (s : State) :
    (raise .enc c s).enc.frames = s.enc.frames := rfl

@[simp] theorem raise_dec_enc (c : ErrCode) (s : State) : (raise .dec c s).enc = s.enc := rfl
@[simp] theorem raise_dec_params (c : ErrCode) (s : State) : (raise .dec c s).params = s.params := rfl
@[simp] theorem raise_dec_host (c : ErrCode) (s : State) : (raise .dec c s).host = s.host := rfl
@[simp] theorem raise_dec_rdata (c : ErrCode) (s : State) : (raise .dec c s).rdata = s.rdata := rfl
@[simp] theorem raise_dec_free (c : ErrCode) (s : State) : (raise .dec c s).free = s.free := rfl
@[simp] theorem raise_dec_phase (c : ErrCode) (s : State) : (raise .dec c s).dec.phase = .error := rfl
@[simp] theorem raise_dec_err (c : ErrCode) (s : State) : (raise .dec c s).dec.err = c := rfl
@[simp] theorem raise_dec_busy (c : ErrCode) (s : State) : (raise .dec c s).dec.busy = false := rfl
@[simp] theorem raise_dec_pix (c : ErrCode) (s : State) : (raise .dec c s).dec.pix = 0 := rfl
@[simp] theorem raise_dec_pos (c : ErrCode) (s : State) : (raise .dec c s).dec.pos = s.dec.pos := rfl
@[simp] theorem raise_dec_inLen (c : ErrCode) (s : State) :
    (raise .dec c s).dec.inLen = s.dec.inLen := rfl
@[simp] theorem raise_dec_frames (c : ErrCode) (s : State) :
    (raise .dec c s).dec.frames = s.dec.frames := rfl

/-! ## What a mid-operation error loses (R238) -/

@[simp] theorem loseEncOutput_dec (s : State) : (loseEncOutput s).dec = s.dec := rfl
@[simp] theorem loseEncOutput_params (s : State) : (loseEncOutput s).params = s.params := rfl
@[simp] theorem loseEncOutput_host (s : State) : (loseEncOutput s).host = s.host := rfl
@[simp] theorem loseEncOutput_rdata (s : State) : (loseEncOutput s).rdata = s.rdata := rfl
@[simp] theorem loseEncOutput_frames (s : State) : (loseEncOutput s).enc.frames = s.enc.frames := rfl
@[simp] theorem loseEncOutput_nframes (s : State) :
    (loseEncOutput s).enc.nframes = s.enc.nframes := rfl
@[simp] theorem loseEncOutput_bpp (s : State) : (loseEncOutput s).enc.bpp = s.enc.bpp := rfl
@[simp] theorem loseEncOutput_ref (s : State) : (loseEncOutput s).enc.ref = s.enc.ref := rfl
@[simp] theorem loseEncOutput_pal (s : State) : (loseEncOutput s).enc.pal = s.enc.pal := rfl
@[simp] theorem loseEncOutput_fin (s : State) : (loseEncOutput s).enc.fin = s.enc.fin := rfl

@[simp] theorem loseDecHeader_enc (l : BitVec 24) (s : State) : (loseDecHeader l s).enc = s.enc := rfl
@[simp] theorem loseDecHeader_params (l : BitVec 24) (s : State) :
    (loseDecHeader l s).params = s.params := rfl
@[simp] theorem loseDecHeader_host (l : BitVec 24) (s : State) :
    (loseDecHeader l s).host = s.host := rfl
@[simp] theorem loseDecHeader_rdata (l : BitVec 24) (s : State) :
    (loseDecHeader l s).rdata = s.rdata := rfl
@[simp] theorem loseDecHeader_inLen (l : BitVec 24) (s : State) :
    (loseDecHeader l s).dec.inLen = l := rfl
@[simp] theorem loseDecHeader_frames (l : BitVec 24) (s : State) :
    (loseDecHeader l s).dec.frames = s.dec.frames := rfl
@[simp] theorem loseDecHeader_ibuf (l : BitVec 24) (s : State) :
    (loseDecHeader l s).dec.ibuf = s.dec.ibuf := rfl
@[simp] theorem loseDecHeader_cur (l : BitVec 24) (s : State) :
    (loseDecHeader l s).dec.cur = s.dec.cur := rfl

@[simp] theorem loseDecFrame_enc (s : State) : (loseDecFrame s).enc = s.enc := rfl
@[simp] theorem loseDecFrame_params (s : State) : (loseDecFrame s).params = s.params := rfl
@[simp] theorem loseDecFrame_host (s : State) : (loseDecFrame s).host = s.host := rfl
@[simp] theorem loseDecFrame_rdata (s : State) : (loseDecFrame s).rdata = s.rdata := rfl
@[simp] theorem loseDecFrame_inLen (s : State) : (loseDecFrame s).dec.inLen = s.dec.inLen := rfl
@[simp] theorem loseDecFrame_frames (s : State) : (loseDecFrame s).dec.frames = s.dec.frames := rfl
@[simp] theorem loseDecFrame_nframes (s : State) :
    (loseDecFrame s).dec.nframes = s.dec.nframes := rfl
@[simp] theorem loseDecFrame_bpp (s : State) : (loseDecFrame s).dec.bpp = s.dec.bpp := rfl
@[simp] theorem loseDecFrame_ibuf (s : State) : (loseDecFrame s).dec.ibuf = s.dec.ibuf := rfl
@[simp] theorem loseDecFrame_pal (s : State) : (loseDecFrame s).dec.pal = s.dec.pal := rfl

/-! ## Align and the end of a frame (R132, R196, R200) -/

@[simp] theorem align_rAcc (d : Dec) : (align d).rAcc = 0 := rfl
@[simp] theorem align_rCnt (d : Dec) : (align d).rCnt = 0 := rfl
@[simp] theorem align_pos (d : Dec) : (align d).pos = d.pos := rfl
@[simp] theorem align_inLen (d : Dec) : (align d).inLen = d.inLen := rfl
@[simp] theorem align_ibuf (d : Dec) : (align d).ibuf = d.ibuf := rfl
@[simp] theorem align_cur (d : Dec) : (align d).cur = d.cur := rfl
@[simp] theorem align_pal (d : Dec) : (align d).pal = d.pal := rfl
@[simp] theorem align_bpp (d : Dec) : (align d).bpp = d.bpp := rfl

@[simp] theorem finishFrame_enc (s : State) : (finishFrame s).enc = s.enc := rfl
@[simp] theorem finishFrame_params (s : State) : (finishFrame s).params = s.params := rfl
@[simp] theorem finishFrame_host (s : State) : (finishFrame s).host = s.host := rfl
@[simp] theorem finishFrame_rdata (s : State) : (finishFrame s).rdata = s.rdata := rfl
@[simp] theorem finishFrame_free (s : State) : (finishFrame s).free = s.free := rfl
@[simp] theorem finishFrame_busy (s : State) : (finishFrame s).dec.busy = false := rfl
@[simp] theorem finishFrame_pix (s : State) : (finishFrame s).dec.pix = 0 := rfl
@[simp] theorem finishFrame_cur (s : State) : (finishFrame s).dec.cur = s.dec.cur := rfl
@[simp] theorem finishFrame_pos (s : State) : (finishFrame s).dec.pos = s.dec.pos := rfl
@[simp] theorem finishFrame_frames (s : State) :
    (finishFrame s).dec.frames = s.dec.frames + 1 := rfl

@[simp] theorem failDecFrame_busy (c : ErrCode) (s : State) : (failDecFrame c s).dec.busy = false := rfl
@[simp] theorem failDecFrame_phase (c : ErrCode) (s : State) :
    (failDecFrame c s).dec.phase = .error := rfl
@[simp] theorem failDecFrame_err (c : ErrCode) (s : State) : (failDecFrame c s).dec.err = c := rfl
@[simp] theorem failDecFrame_enc (c : ErrCode) (s : State) : (failDecFrame c s).enc = s.enc := rfl
@[simp] theorem failDecFrame_params (c : ErrCode) (s : State) :
    (failDecFrame c s).params = s.params := rfl
@[simp] theorem failDecFrame_host (c : ErrCode) (s : State) : (failDecFrame c s).host = s.host := rfl
@[simp] theorem failDecFrame_rdata (c : ErrCode) (s : State) : (failDecFrame c s).rdata = s.rdata := rfl

end Sys2Proof.Machine
end

