-- ==== Sys2Proof/Laws/Memory.lean ====
section
/-!
SUPPORT. The laws of memory: a read after a write, a write leaves every other entry alone, and every
operation keeps the canonical form.
-/

namespace Sys2Proof.Machine

variable {w : Nat}

/-! ## Cells -/

theorem findCell_insertCell (cells : List (Nat × BitVec w)) (i a : Nat) (v : BitVec w) :
    findCell (insertCell cells i v) a = if a = i then some v else findCell cells a := by
  induction cells with
  | nil => simp [insertCell, findCell]
  | cons c rest ih =>
    obtain ⟨j, u⟩ := c
    simp only [insertCell]
    split
    · simp [findCell]
    · split
      · subst_vars
        by_cases h : a = j <;> simp [findCell, h]
      · simp only [findCell, ih]
        by_cases h : a = j
        · subst h; simp; omega
        · simp [h]

theorem cellsWf_insertCell (size : Nat) (cells : List (Nat × BitVec w)) (lo i : Nat) (v : BitVec w)
    (h : cellsWf size lo cells = true) (hlo : lo ≤ i) (hi : i < size) :
    cellsWf size lo (insertCell cells i v) = true := by
  induction cells generalizing lo with
  | nil => simp [insertCell, cellsWf, hlo, hi]
  | cons c rest ih =>
    obtain ⟨j, u⟩ := c
    simp only [cellsWf, Bool.and_eq_true, decide_eq_true_eq] at h
    obtain ⟨⟨hj, hjs⟩, hr⟩ := h
    simp only [insertCell]
    split
    · simp [cellsWf, hlo, hi, hjs, hr]; omega
    · split
      · subst_vars; simp [cellsWf, hlo, hi, hr]
      · simp only [cellsWf, Bool.and_eq_true, decide_eq_true_eq]
        exact ⟨⟨hj, hjs⟩, ih (j + 1) hr (by omega)⟩

/-! ## One entry -/

/-- Everything a write does to what is read: the entry written reads as written, every other entry as
before. -/
theorem Mem.read_write (m : Mem w) (i a : Nat) (v : BitVec w) :
    (m.write i v).read a = if a = i then v else m.read a := by
  simp only [Mem.read, Mem.write_cells, Mem.write_fill, findCell_insertCell]
  split <;> rfl

@[simp] theorem Mem.read_write_same (m : Mem w) (i : Nat) (v : BitVec w) :
    (m.write i v).read i = v := by
  simp [Mem.read_write]

theorem Mem.read_write_other (m : Mem w) {i a : Nat} (v : BitVec w) (h : a ≠ i) :
    (m.write i v).read a = m.read a := by
  simp [Mem.read_write, h]

theorem Mem.write_wf {size : Nat} {m : Mem w} (i : Nat) (v : BitVec w) (h : m.wf size = true)
    (hi : i < size) : (m.write i v).wf size = true :=
  cellsWf_insertCell size m.cells 0 i v h (Nat.zero_le i) hi

@[simp] theorem Mem.unspecified_wf (size k : Nat) : (Mem.unspecified w k).wf size = true := rfl

/-! ## Several entries -/

@[simp] theorem Mem.readList_length (m : Mem w) (i n : Nat) : (m.readList i n).length = n := by
  simp [Mem.readList]

theorem Mem.getElem_readList (m : Mem w) (i n k : Nat) (h : k < (m.readList i n).length) :
    (m.readList i n)[k] = m.read (i + k) := by
  simp [Mem.readList]

@[simp] theorem Mem.readList_zero (m : Mem w) (i : Nat) : m.readList i 0 = [] := rfl

theorem Mem.readList_succ (m : Mem w) (i n : Nat) :
    m.readList i (n + 1) = m.read i :: m.readList (i + 1) n := by
  apply List.ext_getElem (by simp)
  intro k h1 h2
  cases k with
  | zero => simp [Mem.readList]
  | succ k => simp [Mem.readList]; congr 1; omega

theorem Mem.readList_add (m : Mem w) (i a b : Nat) :
    m.readList i (a + b) = m.readList i a ++ m.readList (i + a) b := by
  induction a generalizing i with
  | zero => simp
  | succ a ih =>
    rw [show a + 1 + b = (a + b) + 1 by omega, Mem.readList_succ, Mem.readList_succ, ih,
      show i + 1 + a = i + (a + 1) by omega]
    rfl

theorem Mem.readList_congr {m m' : Mem w} {i n : Nat}
    (h : ∀ a, i ≤ a → a < i + n → m.read a = m'.read a) : m.readList i n = m'.readList i n := by
  apply List.ext_getElem (by simp)
  intro k h1 h2
  simp only [Mem.getElem_readList]
  exact h (i + k) (by omega) (by simp at h1; omega)

/-- Everything a sequence of writes does to what is read. -/
theorem Mem.read_writeList (m : Mem w) (i a : Nat) (vs : List (BitVec w)) :
    (m.writeList i vs).read a =
      if h : i ≤ a ∧ a - i < vs.length then vs[a - i]'h.2 else m.read a := by
  induction vs generalizing m i with
  | nil => simp
  | cons v vs ih =>
    rw [Mem.writeList_cons, ih]
    by_cases h1 : i + 1 ≤ a ∧ a - (i + 1) < vs.length
    · have h2 : i ≤ a ∧ a - i < (v :: vs).length := by simp; omega
      rw [dif_pos h1, dif_pos h2]
      have h3 : a - i = (a - (i + 1)) + 1 := by omega
      simp [h3]
    · rw [dif_neg h1, Mem.read_write]
      by_cases h2 : a = i
      · subst h2; simp
      · rw [if_neg h2, dif_neg (by simp; omega)]

theorem Mem.readList_writeList (m : Mem w) (i : Nat) (vs : List (BitVec w)) :
    (m.writeList i vs).readList i vs.length = vs := by
  apply List.ext_getElem (by simp)
  intro k h1 h2
  rw [Mem.getElem_readList, Mem.read_writeList, dif_pos (by omega)]
  simp

/-- A sequence of writes stores its values and nothing else. -/
theorem Mem.storesAt_writeList (m : Mem w) (i : Nat) (vs : List (BitVec w)) :
    m.storesAt (m.writeList i vs) i vs := by
  refine ⟨m.readList_writeList i vs, fun a h => ?_⟩
  rw [Mem.read_writeList, dif_neg (by omega)]

theorem Mem.writeList_append (m : Mem w) (i : Nat) (vs us : List (BitVec w)) :
    m.writeList i (vs ++ us) = (m.writeList i vs).writeList (i + vs.length) us := by
  induction vs generalizing m i with
  | nil => simp
  | cons v vs ih =>
    simp only [List.cons_append, Mem.writeList_cons, ih, List.length_cons]
    congr 1; omega

theorem Mem.writeList_wf {size : Nat} {m : Mem w} (i : Nat) (vs : List (BitVec w))
    (h : m.wf size = true) (hi : i + vs.length ≤ size) : (m.writeList i vs).wf size = true := by
  induction vs generalizing m i with
  | nil => simpa using h
  | cons v vs ih =>
    simp only [List.length_cons] at hi
    rw [Mem.writeList_cons]
    exact ih (i + 1) (Mem.write_wf i v h (by omega)) (by omega)

end Sys2Proof.Machine
end

