-- ==== Sys2Proof/Laws/Bits.lean ====
section
/-!
SUPPORT. Fields as bit sequences (R14): how long a field is, how fields join and split, and that a
field's bits and its value determine each other.
-/

namespace Sys2Proof.Machine

/-! ## Fields -/

@[simp] theorem fieldBits_length (n v : Nat) : (fieldBits n v).length = n := by simp [fieldBits]

@[simp] theorem fieldBits_zero (v : Nat) : fieldBits 0 v = [] := rfl

theorem getElem_fieldBits (n v j : Nat) (h : j < (fieldBits n v).length) :
    (fieldBits n v)[j] = v.testBit j := by simp [fieldBits]

theorem fieldBits_congr {n v u : Nat} (h : ∀ j < n, v.testBit j = u.testBit j) :
    fieldBits n v = fieldBits n u := by
  apply List.ext_getElem (by simp)
  intro j h1 h2
  simp only [getElem_fieldBits]
  exact h j (by simpa using h1)

/-- Only a field's own bits matter. -/
theorem fieldBits_mod {n m : Nat} (v : Nat) (h : n ≤ m) : fieldBits n (v % 2 ^ m) = fieldBits n v := by
  apply fieldBits_congr
  intro j hj
  simp [Nat.testBit_mod_two_pow, show j < m by omega]

/-- A field splits into its low bits and the rest. -/
theorem fieldBits_add (a b v : Nat) :
    fieldBits (a + b) v = fieldBits a v ++ fieldBits b (v >>> a) := by
  apply List.ext_getElem (by simp)
  intro j h1 h2
  rw [List.getElem_append]
  simp only [getElem_fieldBits, fieldBits_length]
  split
  · rfl
  · simp [Nat.testBit_shiftRight]; congr 1; omega

/-- A field placed above pending bits (R127): the pending bits, then the field's. -/
theorem fieldBits_or_shift {c n a : Nat} (v : Nat) (h : a < 2 ^ c) :
    fieldBits (c + n) (a ||| (v <<< c)) = fieldBits c a ++ fieldBits n v := by
  rw [fieldBits_add]
  congr 1
  · apply fieldBits_congr
    intro j hj
    simp [Nat.testBit_or, Nat.testBit_shiftLeft, show ¬ c ≤ j by omega]
  · apply fieldBits_congr
    intro j hj
    have : a.testBit (c + j) = false :=
      Nat.testBit_lt_two_pow (lt_of_lt_of_le h (Nat.pow_le_pow_right (by omega) (by omega)))
    simp [Nat.testBit_shiftRight, Nat.testBit_or, Nat.testBit_shiftLeft, this]

theorem or_shift_lt {c n a v : Nat} (ha : a < 2 ^ c) (hv : v < 2 ^ n) :
    a ||| (v <<< c) < 2 ^ (c + n) := by
  apply Nat.or_lt_two_pow
  · exact lt_of_lt_of_le ha (Nat.pow_le_pow_right (by omega) (by omega))
  · rw [Nat.shiftLeft_eq, Nat.pow_add, Nat.mul_comm]
    exact Nat.mul_lt_mul_of_pos_left hv (by positivity)

/-! ## Values -/

@[simp] theorem bitsValue_nil : bitsValue [] = 0 := rfl

theorem bitsValue_append (a b : List Bool) :
    bitsValue (a ++ b) = bitsValue a + 2 ^ a.length * bitsValue b := by
  induction a with
  | nil => simp
  | cons x a ih => simp only [List.cons_append, bitsValue, ih, List.length_cons, Nat.pow_succ]; ring

theorem bitsValue_lt (bits : List Bool) : bitsValue bits < 2 ^ bits.length := by
  induction bits with
  | nil => simp
  | cons b bits ih =>
    simp only [bitsValue, List.length_cons, Nat.pow_succ]
    have : b.toNat ≤ 1 := Bool.toNat_le b
    omega

theorem bitsValue_fieldBits (n v : Nat) : bitsValue (fieldBits n v) = v % 2 ^ n := by
  induction n generalizing v with
  | zero => simp [Nat.mod_one]
  | succ n ih =>
    rw [Nat.add_comm, fieldBits_add, bitsValue_append, ih]
    have h1 : fieldBits 1 v = [v.testBit 0] := rfl
    have h2 : (v.testBit 0).toNat = v % 2 := by
      rw [Nat.testBit_zero]; rcases Nat.mod_two_eq_zero_or_one v with h | h <;> simp [h]
    rw [h1]
    simp only [bitsValue, h2, List.length_singleton, Nat.shiftRight_eq_div_pow, pow_one,
      Nat.mul_zero, Nat.add_zero]
    rw [Nat.add_comm 1 n, Nat.pow_succ, Nat.mul_comm (2 ^ n) 2, Nat.mod_mul]

theorem bitsValue_fieldBits_of_lt {n v : Nat} (h : v < 2 ^ n) : bitsValue (fieldBits n v) = v := by
  rw [bitsValue_fieldBits, Nat.mod_eq_of_lt h]

/-- A bit sequence is the field of its value. -/
theorem fieldBits_bitsValue (bits : List Bool) : fieldBits bits.length (bitsValue bits) = bits := by
  induction bits with
  | nil => rfl
  | cons b bits ih =>
    have hb : b.toNat ≤ 1 := Bool.toNat_le b
    rw [List.length_cons, Nat.add_comm, fieldBits_add]
    have h1 : (bitsValue (b :: bits)) >>> 1 = bitsValue bits := by
      simp only [bitsValue, Nat.shiftRight_eq_div_pow]; omega
    have h2 : fieldBits 1 (bitsValue (b :: bits)) = [b] := by
      simp only [fieldBits, List.range_one, List.map_cons, List.map_nil, Nat.testBit_zero, bitsValue]
      cases b <;> simp
    rw [h1, h2, ih]
    rfl

/-! ## Bytes -/

@[simp] theorem byteBits_nil : byteBits [] = [] := rfl

@[simp] theorem byteBits_cons (b : Byte) (bs : List Byte) :
    byteBits (b :: bs) = fieldBits 8 b.toNat ++ byteBits bs := rfl

theorem byteBits_append (a b : List Byte) : byteBits (a ++ b) = byteBits a ++ byteBits b := by
  simp [byteBits]

@[simp] theorem byteBits_length (bs : List Byte) : (byteBits bs).length = 8 * bs.length := by
  induction bs with
  | nil => rfl
  | cons b bs ih => simp [ih]; omega

theorem fieldBits_toByte (v : Nat) : fieldBits 8 (BitVec.ofNat 8 v).toNat = fieldBits 8 v := by
  rw [BitVec.toNat_ofNat]; exact fieldBits_mod v (le_refl 8)

@[simp] theorem packBytes_length (n : Nat) (bits : List Bool) : (packBytes n bits).length = n := by
  induction n generalizing bits with
  | zero => rfl
  | succ n ih => simp [packBytes, ih]

/-- The bytes of a byte sequence's bits are the bytes. -/
theorem packBytes_byteBits (bs : List Byte) (rest : List Bool) :
    packBytes bs.length (byteBits bs ++ rest) = bs := by
  induction bs with
  | nil => rfl
  | cons b bs ih =>
    have h : (fieldBits 8 b.toNat ++ (byteBits bs ++ rest)).take 8 = fieldBits 8 b.toNat := by
      rw [List.take_append_of_le_length (by simp)]; simp
    have h2 : (fieldBits 8 b.toNat ++ (byteBits bs ++ rest)).drop 8 = byteBits bs ++ rest := by
      rw [List.drop_append_of_le_length (by simp)]; simp
    simp only [List.length_cons, byteBits_cons, List.append_assoc, packBytes, h, h2, ih]
    rw [bitsValue_fieldBits_of_lt (by simpa using b.isLt)]
    simp

theorem bitsValue_replicate_false (k : Nat) : bitsValue (List.replicate k false) = 0 := by
  induction k with
  | zero => rfl
  | succ k ih => simp [List.replicate_succ, bitsValue, ih]

/-- Packing and unpacking bits that fit the bytes gives the bits with zero padding. -/
theorem byteBits_packBytes (n : Nat) (bits : List Bool) (h : bits.length ≤ 8 * n) :
    byteBits (packBytes n bits) = bits ++ List.replicate (8 * n - bits.length) false := by
  induction n generalizing bits with
  | zero =>
    have : bits = [] := List.length_eq_zero_iff.mp (by omega)
    simp [packBytes, this]
  | succ n ih =>
    simp only [packBytes, byteBits_cons, fieldBits_toByte]
    by_cases hl : 8 ≤ bits.length
    · have h8 : (bits.take 8).length = 8 := by simp; omega
      have := fieldBits_bitsValue (bits.take 8)
      rw [h8] at this
      rw [this, ih (bits.drop 8) (by simp; omega), ← List.append_assoc, List.take_append_drop]
      congr 2
      simp; omega
    · have ht : bits.take 8 = bits := List.take_of_length_le (by omega)
      have hd : bits.drop 8 = [] := List.drop_of_length_le (by omega)
      rw [ht, hd, ih [] (by simp)]
      have hp : bitsValue (bits ++ List.replicate (8 - bits.length) false) = bitsValue bits := by
        rw [bitsValue_append, bitsValue_replicate_false]; simp
      have := fieldBits_bitsValue (bits ++ List.replicate (8 - bits.length) false)
      rw [hp, List.length_append, List.length_replicate,
        show bits.length + (8 - bits.length) = 8 by omega] at this
      rw [this]
      simp only [List.length_nil, List.nil_append, List.append_assoc, ← List.replicate_add]
      congr 2
      omega

/-- The bits of a packed sequence are the sequence, padded. -/
theorem byteBits_wireBytes (bits : List Bool) : byteBits (wireBytes bits) = padded bits := by
  rw [wireBytes, byteBits_packBytes _ _ (by omega), padded]
  congr 2
  omega

@[simp] theorem wireBytes_length (bits : List Bool) :
    (wireBytes bits).length = (bits.length + 7) / 8 := by simp [wireBytes]

theorem pixelBits_length (bpp : Nat) (px : List Pixel) :
    (pixelBits bpp px).length = px.length * bpp := by
  induction px with
  | nil => simp [pixelBits]
  | cons v px ih =>
    have : pixelBits bpp (v :: px) = fieldBits bpp v.toNat ++ pixelBits bpp px := rfl
    rw [this]; simp [ih]; ring

end Sys2Proof.Machine
end

