-- ==== Sys2Proof/Laws/Writer.lean ====
section
/-!
SUPPORT. What the writer primitives do, said once (R121 to R127): `Appends e e' bits` says that going
from `e` to `e'` appended exactly `bits` to the output stream and changed nothing else, and every
primitive either appends its bits or runs out of room.
-/

namespace Sys2Proof.Machine

/-- The writer went from `e` to `e'` by appending `bits`: some whole bytes were stored at E_OUT_LEN and
the rest is pending. -/
def Appends (e e' : Enc) (bits : List Bool) : Prop :=
  ∃ bs : List Byte,
    e' = { e with
      obuf := e.obuf.writeList e.outLen.toNat bs
      outLen := e.outLen + BitVec.ofNat 24 bs.length
      wAcc := e'.wAcc
      wCnt := e'.wCnt } ∧
    e'.outLen.toNat = e.outLen.toNat + bs.length ∧
    e'.wAcc.toNat < 2 ^ e'.wCnt.toNat ∧
    byteBits bs ++ fieldBits e'.wCnt.toNat e'.wAcc.toNat =
      fieldBits e.wCnt.toNat e.wAcc.toNat ++ bits

theorem Appends.refl (e : Enc) (h : e.wAcc.toNat < 2 ^ e.wCnt.toNat) : Appends e e [] :=
  ⟨[], by simp, by simp, h, by simp⟩

theorem Appends.pending {e e' : Enc} {bits : List Bool} (h : Appends e e' bits) :
    e'.wAcc.toNat < 2 ^ e'.wCnt.toNat := by obtain ⟨_, _, _, h, _⟩ := h; exact h

theorem Appends.trans {e e1 e2 : Enc} {a b : List Bool} (h1 : Appends e e1 a)
    (h2 : Appends e1 e2 b) : Appends e e2 (a ++ b) := by
  obtain ⟨bs, r1, l1, p1, q1⟩ := h1
  obtain ⟨cs, r2, l2, p2, q2⟩ := h2
  refine ⟨bs ++ cs, ?_, ?_, p2, ?_⟩
  · rw [r2, l1, Mem.writeList_append]
    rw [r1]
    simp only [List.length_append, BitVec.ofNat_add, BitVec.add_assoc]
  · rw [l2, l1, List.length_append]; omega
  · rw [byteBits_append, List.append_assoc, q2, ← List.append_assoc, q1, List.append_assoc]

/-- How the stream's length and the count of pending bits are tied (R126). -/
theorem Appends.length {e e' : Enc} {bits : List Bool} (h : Appends e e' bits) :
    8 * e'.outLen.toNat + e'.wCnt.toNat = 8 * e.outLen.toNat + e.wCnt.toNat + bits.length := by
  obtain ⟨bs, _, l, _, q⟩ := h
  have := congrArg List.length q
  simp at this
  omega

/-- The stream after is the stream before and the bits (R126). -/
theorem Appends.writtenBits {e e' : Enc} {bits : List Bool} (h : Appends e e' bits) :
    writtenBits e' = writtenBits e ++ bits := by
  obtain ⟨bs, r, l, _, q⟩ := h
  unfold Machine.writtenBits
  have h1 : e'.obuf.readList 0 e'.outLen.toNat = e.obuf.readList 0 e.outLen.toNat ++ bs := by
    rw [l, Mem.readList_add]
    congr 1
    · apply Mem.readList_congr
      intro a _ h2
      rw [r]
      simp only [Mem.read_writeList]
      rw [dif_neg (by omega)]
    · rw [r, Nat.zero_add]; exact Mem.readList_writeList _ _ _
  rw [h1, byteBits_append, List.append_assoc, q, List.append_assoc]

/-- What a sequence of writer primitives that appends `bits` does from `e`: it runs out of room
(R122, R236) exactly when the bytes it completes do not fit, and otherwise appends `bits`. -/
def Emits (cap : Nat) (e : Enc) (bits : List Bool) (r : Except ErrCode Enc) : Prop :=
  (cap < e.outLen.toNat + (e.wCnt.toNat + bits.length) / 8 ∧ r = .error .outputOverflow) ∨
  (e.outLen.toNat + (e.wCnt.toNat + bits.length) / 8 ≤ cap ∧ ∃ e', r = .ok e' ∧ Appends e e' bits)

/-- The writer's registers are as R29 and R31 say they always are. -/
def writerOk (cap : Nat) (e : Enc) : Prop :=
  cap < 2 ^ 24 ∧ e.outLen.toNat ≤ cap ∧ e.wAcc.toNat < 2 ^ e.wCnt.toNat

theorem Appends.writerOk {cap : Nat} {e e' : Enc} {bits : List Bool} (h : Appends e e' bits)
    (ho : Machine.writerOk cap e) (hr : e.outLen.toNat + (e.wCnt.toNat + bits.length) / 8 ≤ cap) :
    Machine.writerOk cap e' := by
  have := h.length
  exact ⟨ho.1, by omega, h.pending⟩

theorem Emits.nil {cap : Nat} {e : Enc} (ho : writerOk cap e) : Emits cap e [] (.ok e) := by
  have hw : e.wCnt.toNat < 8 := e.wCnt.isLt
  have := ho.2.1
  exact .inr ⟨by simp; omega, e, rfl, Appends.refl e ho.2.2⟩

/-- One emission after another. -/
theorem Emits.andThen {cap : Nat} {e : Enc} {a b : List Bool} {r : Except ErrCode Enc}
    {f : Enc → Except ErrCode Enc} (h : Emits cap e a r) (ho : writerOk cap e)
    (hf : ∀ e', Appends e e' a → writerOk cap e' → Emits cap e' b (f e')) :
    Emits cap e (a ++ b) (match (generalizing := false) r with
      | .error c => .error c
      | .ok e' => f e') := by
  rcases h with ⟨hr, he⟩ | ⟨hr, e1, he, ha⟩
  · refine .inl ⟨?_, by rw [he]⟩
    have : (e.wCnt.toNat + a.length) / 8 ≤ (e.wCnt.toNat + (a ++ b).length) / 8 :=
      Nat.div_le_div_right (by simp)
    omega
  · have ho1 := ha.writerOk ho hr
    have hl := ha.length
    have hw : e.wCnt.toNat < 8 := e.wCnt.isLt
    have hw1 : e1.wCnt.toNat < 8 := e1.wCnt.isLt
    subst he
    rcases hf e1 ha ho1 with ⟨hr', he'⟩ | ⟨hr', e2, he', ha'⟩
    · exact .inl ⟨by simp only [List.length_append]; omega, he'⟩
    · exact .inr ⟨by simp only [List.length_append]; omega, e2, he', ha.trans ha'⟩

/-! ## EmitByte -/

/-- EmitByte stores the byte unless E_OBUF is full (R122). -/
theorem emitByte_cases (cap : Nat) (b : Byte) (e : Enc) :
    (e.outLen.toNat = cap ∧ emitByte cap b e = .error .outputOverflow) ∨
    (e.outLen.toNat ≠ cap ∧ emitByte cap b e =
      .ok { e with obuf := e.obuf.write e.outLen.toNat b, outLen := e.outLen + 1 }) := by
  unfold emitByte
  split
  · exact .inl ⟨‹_›, rfl⟩
  · exact .inr ⟨‹_›, rfl⟩

theorem outLen_succ {cap : Nat} {e : Enc} (hc : cap < 2 ^ 24) (ho : e.outLen.toNat ≤ cap)
    (hn : e.outLen.toNat ≠ cap) : (e.outLen + 1).toNat = e.outLen.toNat + 1 := by
  rw [BitVec.toNat_add, show (1 : BitVec 24).toNat = 1 from rfl]
  omega

/-! ## WriteBits -/

/-- WriteBits of a value that fits appends the field (R121). -/
theorem writeBits_emits {cap v n : Nat} {e : Enc} (ho : writerOk cap e) (hn : n ≤ 8)
    (hv : v < 2 ^ n) : Emits cap e (fieldBits n v) (writeBits cap v n e) := by
  obtain ⟨hc, ho, hp⟩ := ho
  unfold Emits
  rw [fieldBits_length]
  have hw : e.wCnt.toNat < 8 := e.wCnt.isLt
  have hacc := or_shift_lt hp hv
  have hbits := fieldBits_or_shift (n := n) v hp
  unfold writeBits
  rw [if_neg (by omega)]
  generalize hA : e.wAcc.toNat ||| (v <<< e.wCnt.toNat) = acc at *
  simp only []
  by_cases h8 : 8 ≤ e.wCnt.toNat + n
  · rw [if_pos h8]
    have hd : (e.wCnt.toNat + n) / 8 = 1 := by omega
    rcases emitByte_cases cap (BitVec.ofNat 8 acc) e with ⟨hf, he⟩ | ⟨hf, he⟩
    · exact .inl ⟨by omega, by rw [he]⟩
    · refine .inr ⟨by omega, _, by rw [he], [BitVec.ofNat 8 acc], ?_, ?_, ?_, ?_⟩
      · rfl
      · simpa using outLen_succ hc ho hf
      · have : acc >>> 8 < 2 ^ (e.wCnt.toNat + n - 8) := by
          rw [Nat.shiftRight_eq_div_pow, Nat.div_lt_iff_lt_mul (by positivity), ← Nat.pow_add]
          exact lt_of_lt_of_le hacc (Nat.pow_le_pow_right (by omega) (by omega))
        simp only [BitVec.toNat_ofNat]
        rw [Nat.mod_eq_of_lt (show e.wCnt.toNat + n - 8 < 2 ^ 3 by omega)]
        exact lt_of_le_of_lt (Nat.mod_le _ _) this
      · have h3 : acc >>> 8 < 2 ^ 7 := by
          rw [Nat.shiftRight_eq_div_pow, Nat.div_lt_iff_lt_mul (by positivity), ← Nat.pow_add]
          exact lt_of_lt_of_le hacc (Nat.pow_le_pow_right (by omega) (by omega))
        simp only [byteBits_cons, byteBits_nil, List.append_nil, BitVec.toNat_ofNat]
        rw [Nat.mod_eq_of_lt (show e.wCnt.toNat + n - 8 < 2 ^ 3 by omega), Nat.mod_eq_of_lt h3,
          fieldBits_mod acc (le_refl 8), ← fieldBits_add, show 8 + (e.wCnt.toNat + n - 8) = e.wCnt.toNat + n by omega]
        exact hbits
  · rw [if_neg h8]
    have hd : (e.wCnt.toNat + n) / 8 = 0 := by omega
    have h3 : acc < 2 ^ 7 := lt_of_lt_of_le hacc (Nat.pow_le_pow_right (by omega) (by omega))
    have hc3 : e.wCnt.toNat + n < 2 ^ 3 := by omega
    refine .inr ⟨by omega, _, rfl, [], ?_, ?_, ?_, ?_⟩
    · simp
    · simp
    · simp only [BitVec.toNat_ofNat]
      rw [Nat.mod_eq_of_lt h3, Nat.mod_eq_of_lt hc3]
      exact hacc
    · simp only [BitVec.toNat_ofNat, byteBits_nil, List.nil_append]
      rw [Nat.mod_eq_of_lt h3, Nat.mod_eq_of_lt hc3]
      exact hbits

/-- WriteBits of a value that does not fit raises, and has appended nothing (R121). -/
theorem writeBits_misfit (cap : Nat) {v n : Nat} (e : Enc) (h : 2 ^ n ≤ v) :
    writeBits cap v n e = .error .encodeInvariant := by simp [writeBits, h]

/-! ## Flush -/

/-- The zero bits a Flush appends (R123). -/
def flushBits (e : Enc) : List Bool := List.replicate ((8 - e.wCnt.toNat % 8) % 8) false

/-- Flush appends zero bits up to the byte boundary (R123). -/
theorem flush_emits {cap : Nat} {e : Enc} (ho : writerOk cap e) :
    Emits cap e (flushBits e) (flush cap e) := by
  obtain ⟨hc, ho, hp⟩ := ho
  unfold Emits flushBits
  rw [List.length_replicate]
  have hw : e.wCnt.toNat < 8 := e.wCnt.isLt
  unfold flush
  by_cases h0 : 0 < e.wCnt.toNat
  · rw [if_pos h0]
    have hd : (e.wCnt.toNat + (8 - e.wCnt.toNat % 8) % 8) / 8 = 1 := by omega
    rcases emitByte_cases cap (e.wAcc.setWidth 8) e with ⟨hf, he⟩ | ⟨hf, he⟩
    · exact .inl ⟨by omega, by rw [he]⟩
    · refine .inr ⟨by omega, _, by rw [he], [e.wAcc.setWidth 8], rfl, ?_, ?_, ?_⟩
      · simpa using outLen_succ hc ho hf
      · simp
      · have hz : (e.wAcc.setWidth 8).toNat = e.wAcc.toNat := by
          simp only [BitVec.toNat_setWidth]; omega
        have hsplit : fieldBits 8 e.wAcc.toNat =
            fieldBits e.wCnt.toNat e.wAcc.toNat ++ fieldBits (8 - e.wCnt.toNat) 0 := by
          rw [show 8 = e.wCnt.toNat + (8 - e.wCnt.toNat) by omega, fieldBits_add,
            Nat.shiftRight_eq_div_pow, Nat.div_eq_of_lt hp]
          simp
        have hrep : fieldBits (8 - e.wCnt.toNat) 0 =
            List.replicate ((8 - e.wCnt.toNat % 8) % 8) false := by
          apply List.ext_getElem
          · simp; omega
          · intro j h1 h2
            simp [getElem_fieldBits]
        simp only [byteBits_cons, byteBits_nil, List.append_nil, hz]
        rw [hsplit, hrep]
        simp
  · rw [if_neg h0]
    have hz : e.wCnt.toNat = 0 := by omega
    refine .inr ⟨by omega, _, rfl, [], ?_, ?_, ?_, ?_⟩
    · simp
    · simp
    · simp
    · simp [hz]

/-! ## Fields in turn -/

/-- WriteBits of a list of values that fit appends every field in order. -/
theorem writeFields_emits {cap n : Nat} (hn : n ≤ 8) (vs : List Nat) (hv : ∀ v ∈ vs, v < 2 ^ n)
    {e : Enc} (ho : writerOk cap e) :
    Emits cap e (vs.flatMap (fieldBits n)) (writeFields cap n vs e) := by
  induction vs generalizing e with
  | nil => exact Emits.nil ho
  | cons v vs ih =>
    rw [List.flatMap_cons]
    exact (writeBits_emits ho hn (hv v (by simp))).andThen ho fun e' _ ho' =>
      ih (fun v h => hv v (by simp [h])) ho'

/-! ## Aligned output -/

/-- From a byte boundary, bits and then a Flush: exactly the packed bytes of the bits are stored at
E_OUT_LEN. -/
theorem Appends.aligned {e e1 e' : Enc} {bits : List Bool} (h : Appends e e1 bits)
    (hf : Appends e1 e' (flushBits e1)) (h0 : e.wCnt = 0) :
    e' = { e with
      obuf := e.obuf.writeList e.outLen.toNat (wireBytes bits)
      outLen := e.outLen + BitVec.ofNat 24 (wireBytes bits).length
      wAcc := 0
      wCnt := 0 } := by
  have hl := h.length
  have hl' := hf.length
  have hw : e'.wCnt.toNat < 8 := e'.wCnt.isLt
  have hw1 : e1.wCnt.toNat < 8 := e1.wCnt.isLt
  have h00 : e.wCnt.toNat = 0 := by rw [h0]; rfl
  simp only [flushBits, List.length_replicate] at hl'
  have h1 : e'.wCnt = 0 := BitVec.eq_of_toNat_eq (by show e'.wCnt.toNat = 0; omega)
  obtain ⟨bs, r, l, p, q⟩ := h.trans hf
  rw [h0, h1, show (0 : BitVec 3).toNat = 0 from rfl] at q
  simp only [fieldBits_zero, List.append_nil, List.nil_append, flushBits] at q
  have hlen := congrArg List.length q
  simp only [byteBits_length, List.length_append, List.length_replicate] at hlen
  have hbs : bs = wireBytes bits := by
    have h8 : (wireBytes bits).length = bs.length := by rw [wireBytes_length]; omega
    have hb : byteBits (wireBytes bits) = byteBits bs := by
      rw [byteBits_wireBytes, padded, q]
      congr 2
      omega
    have e1 := packBytes_byteBits bs []
    have e2 := packBytes_byteBits (wireBytes bits) []
    rw [h8, hb, e1] at e2
    exact e2
  have hz : e'.wAcc = 0 := by
    rw [h1] at p
    apply BitVec.eq_of_toNat_eq
    simp at p
    simp [p]
  rw [r, hbs, hz, h1]

/-- Flush at a byte boundary with nothing pending changes nothing (R123). -/
theorem flush_aligned (cap : Nat) {e : Enc} (hc : e.wCnt = 0) (ha : e.wAcc = 0) :
    flush cap e = .ok e := by
  unfold flush
  rw [if_neg (by rw [hc]; decide)]
  cases e
  simp_all

end Sys2Proof.Machine
end

