-- ==== Sys2Proof/Laws/Encoder.lean ====
section
/-!
SUPPORT. What the encoder's emissions append (R154, R159, R161, R164, R165), said once each: a token
appends its bits, and a header, a literal frame or a run frame stores exactly its bytes.
-/

namespace Sys2Proof.Machine

/-! ## Tokens -/

theorem lengthField_lt (n : Nat) : lengthField n < 2 ^ 7 := Nat.mod_lt _ (by omega)

theorem emitRunHeader_emits {cap mode n : Nat} {e : Enc} (hm : mode < 2) (ho : writerOk cap e) :
    Emits cap e (runHeaderBits mode n) (emitRunHeader cap mode n e) :=
  (writeBits_emits ho (by omega) (by simpa using hm)).andThen ho fun _ _ ho' =>
    writeBits_emits ho' (by omega) (lengthField_lt n)

theorem pixelBits_eq (bpp : Nat) (px : List Pixel) :
    pixelBits bpp px = (px.map BitVec.toNat).flatMap (fieldBits bpp) := by
  simp [pixelBits, List.flatMap_map]

theorem writePixels_emits {cap bpp : Nat} {px : List Pixel} {e : Enc} (hb : bpp ≤ 8)
    (hp : ∀ v ∈ px, v.toNat < 2 ^ bpp) (ho : writerOk cap e) :
    Emits cap e (pixelBits bpp px) (writeFields cap bpp (px.map BitVec.toNat) e) := by
  rw [pixelBits_eq]
  exact writeFields_emits hb _ (by simpa using hp) ho

/-- The literals of a run are `bpp`-bit values (R158, R165). -/
def literalsFit (bpp : Nat) : Run → Prop
  | .same _ => True
  | .diff literals => ∀ v ∈ literals, v.toNat < 2 ^ bpp

theorem emitRun_emits {cap bpp : Nat} {run : Run} {e : Enc} (hb : bpp ≤ 8)
    (hr : literalsFit bpp run) (ho : writerOk cap e) :
    Emits cap e (runBits bpp run) (emitRun cap bpp run e) := by
  cases run with
  | same n => exact emitRunHeader_emits (by omega) ho
  | diff literals =>
    exact (emitRunHeader_emits (by omega) ho).andThen ho fun _ _ ho' =>
      writePixels_emits hb hr ho'

theorem emitRuns_emits {cap bpp : Nat} (runs : List Run) {e : Enc} (hb : bpp ≤ 8)
    (hr : ∀ run ∈ runs, literalsFit bpp run) (ho : writerOk cap e) :
    Emits cap e (runsBits bpp runs) (emitRuns cap bpp runs e) := by
  induction runs generalizing e with
  | nil => exact Emits.nil ho
  | cons run runs ih =>
    have : runsBits bpp (run :: runs) = runBits bpp run ++ runsBits bpp runs := rfl
    rw [this]
    exact (emitRun_emits hb (hr run (by simp)) ho).andThen ho fun _ _ ho' =>
      ih (fun r h => hr r (by simp [h])) ho'

/-! ## Whole outputs -/

/-- ENC after the bytes of a bit sequence have been stored from a byte boundary on (R61, R123). -/
def Enc.withOutput (e : Enc) (bits : List Bool) : Enc :=
  { e with
    obuf := e.obuf.writeList e.outLen.toNat (wireBytes bits)
    outLen := e.outLen + BitVec.ofNat 24 (wireBytes bits).length
    wAcc := 0
    wCnt := 0 }

/-- An emission from a byte boundary and a Flush after it: out of room exactly when the packed bytes do
not fit E_OBUF, and otherwise exactly those bytes are stored. -/
theorem Emits.flushed {cap : Nat} {e : Enc} {bits : List Bool} {r : Except ErrCode Enc}
    (h : Emits cap e bits r) (ho : writerOk cap e) (h0 : e.wCnt = 0) :
    (cap < e.outLen.toNat + (bits.length + 7) / 8 ∧
      (match (generalizing := false) r with
        | Except.error c => Except.error c
        | Except.ok e' => flush cap e') = .error .outputOverflow) ∨
    (e.outLen.toNat + (bits.length + 7) / 8 ≤ cap ∧
      (match (generalizing := false) r with
        | Except.error c => Except.error c
        | Except.ok e' => flush cap e') = .ok (e.withOutput bits)) := by
  have h00 : e.wCnt.toNat = 0 := by rw [h0]; rfl
  rcases h with ⟨hr, he⟩ | ⟨hr, e1, he, ha⟩
  · exact .inl ⟨by omega, by rw [he]⟩
  · have ho1 := ha.writerOk ho hr
    have hl := ha.length
    have hw1 : e1.wCnt.toNat < 8 := e1.wCnt.isLt
    subst he
    rcases flush_emits ho1 with ⟨hr', he'⟩ | ⟨hr', e2, he', ha'⟩
    · simp only [flushBits, List.length_replicate] at hr'
      exact .inl ⟨by omega, he'⟩
    · simp only [flushBits, List.length_replicate] at hr'
      refine .inr ⟨by omega, ?_⟩
      show flush cap e1 = _
      rw [he', ha.aligned ha' h0]
      rfl

/-- EncodeLiteral from a byte boundary (R159). -/
theorem encodeLiteral_cases {cap bpp : Nat} {f : List Pixel} {e : Enc} (hb : bpp ≤ 8)
    (hf : ∀ v ∈ f, v.toNat < 2 ^ bpp) (ho : writerOk cap e) (h0 : e.wCnt = 0) :
    (cap < e.outLen.toNat + (f.length * bpp + 7) / 8 ∧
      encodeLiteral cap bpp f e = .error .outputOverflow) ∨
    (e.outLen.toNat + (f.length * bpp + 7) / 8 ≤ cap ∧
      encodeLiteral cap bpp f e = .ok (e.withOutput (pixelBits bpp f))) := by
  have := (writePixels_emits hb hf ho).flushed ho h0
  rw [pixelBits_length] at this
  exact this

/-- EncodeRuns from a byte boundary (R161). -/
theorem encodeRuns_cases {cap bpp : Nat} {f r : List Pixel} {e : Enc} (hb : bpp ≤ 8)
    (hr : ∀ run ∈ chooseRuns f r, literalsFit bpp run) (ho : writerOk cap e) (h0 : e.wCnt = 0) :
    (cap < e.outLen.toNat + ((runsBits bpp (chooseRuns f r)).length + 7) / 8 ∧
      encodeRuns cap bpp f r e = .error .outputOverflow) ∨
    (e.outLen.toNat + ((runsBits bpp (chooseRuns f r)).length + 7) / 8 ≤ cap ∧
      encodeRuns cap bpp f r e = .ok (e.withOutput (runsBits bpp (chooseRuns f r)))) :=
  (emitRuns_emits _ hb hr ho).flushed ho h0

/-! ## The header -/

theorem flush_emits_nothing {cap : Nat} {e : Enc} (ho : writerOk cap e) (h0 : e.wCnt = 0) :
    flush cap e = .ok e := by
  have hp := ho.2.2
  rw [h0] at hp
  exact flush_aligned cap h0 (BitVec.eq_of_toNat_eq (by simp at hp; simp [hp]))

/-- Whole bytes from a byte boundary leave nothing pending. -/
theorem Appends.bytes {e e' : Enc} {bs : List Byte} (h : Appends e e' (byteBits bs))
    (h0 : e.wCnt = 0) : e' = e.withOutput (byteBits bs) ∧ e'.wCnt = 0 := by
  have hl := h.length
  have hw : e'.wCnt.toNat < 8 := e'.wCnt.isLt
  have h00 : e.wCnt.toNat = 0 := by rw [h0]; rfl
  rw [byteBits_length] at hl
  have h1 : e'.wCnt = 0 := BitVec.eq_of_toNat_eq (by show e'.wCnt.toNat = 0; omega)
  have hf : Appends e' e' (flushBits e') := by
    have : flushBits e' = [] := by rw [flushBits, h1]; rfl
    rw [this]
    exact Appends.refl e' h.pending
  exact ⟨h.aligned hf h0, h1⟩

theorem byteBits_eq (bs : List Byte) :
    byteBits bs = (bs.map BitVec.toNat).flatMap (fieldBits 8) := by
  simp [byteBits, List.flatMap_map]

theorem wireBytes_byteBits (bs : List Byte) : wireBytes (byteBits bs) = bs := by
  have h := packBytes_byteBits bs []
  rw [List.append_nil] at h
  rw [wireBytes, byteBits_length, show (8 * bs.length + 7) / 8 = bs.length by omega, h]

/-- WriteByte at a byte boundary (R124). -/
theorem writeByte_emits {cap : Nat} {e : Enc} (b : Byte) (ho : writerOk cap e) (h0 : e.wCnt = 0) :
    Emits cap e (byteBits [b]) (writeByte cap b.toNat e) := by
  unfold writeByte
  rw [flush_emits_nothing ho h0]
  simpa using writeBits_emits (n := 8) ho (by omega) b.isLt

/-- WriteBytes at a byte boundary (R125). -/
theorem writeBytes_emits {cap : Nat} {e : Enc} (bs : List Byte) (ho : writerOk cap e)
    (h0 : e.wCnt = 0) : Emits cap e (byteBits bs) (writeBytes cap (bs.map BitVec.toNat) e) := by
  unfold writeBytes
  rw [flush_emits_nothing ho h0, byteBits_eq]
  refine writeFields_emits (by omega) _ ?_ ho
  intro v hv
  simp only [List.mem_map] at hv
  obtain ⟨b, _, rfl⟩ := hv
  exact b.isLt

/-- The header writer from a byte boundary (R91, R154): out of room exactly when the header does not
fit, and otherwise exactly its bytes are stored. -/
theorem writeHeader_cases {cap : Nat} {nf iv bpp : Byte} {e : Enc} (ho : writerOk cap e)
    (h0 : e.wCnt = 0) :
    (cap < e.outLen.toNat + (3 + paletteBytes bpp.toNat) ∧
      writeHeader cap nf iv bpp e = .error .outputOverflow) ∨
    (e.outLen.toNat + (3 + paletteBytes bpp.toNat) ≤ cap ∧
      writeHeader cap nf iv bpp e = .ok (e.withOutput
        (byteBits (headerBytes nf iv bpp (e.pal.readList 0 (paletteBytes bpp.toNat)))))) := by
  have h00 : e.wCnt.toNat = 0 := by rw [h0]; rfl
  have hb : byteBits (headerBytes nf iv bpp (e.pal.readList 0 (paletteBytes bpp.toNat))) =
      byteBits [nf] ++ (byteBits [iv] ++ (byteBits [bpp] ++
        byteBits (e.pal.readList 0 (paletteBytes bpp.toNat)))) := by
    simp [headerBytes]
  have hE : Emits cap e
      (byteBits (headerBytes nf iv bpp (e.pal.readList 0 (paletteBytes bpp.toNat))))
      (writeHeader cap nf iv bpp e) := by
    rw [hb]
    refine (writeByte_emits nf ho h0).andThen ho fun e1 a1 o1 => ?_
    have z1 := (a1.bytes h0).2
    refine (writeByte_emits iv o1 z1).andThen o1 fun e2 a2 o2 => ?_
    have z2 := (a2.bytes z1).2
    refine (writeByte_emits bpp o2 z2).andThen o2 fun e3 a3 o3 => ?_
    exact writeBytes_emits _ o3 (a3.bytes z2).2
  have hlen : (byteBits (headerBytes nf iv bpp
      (e.pal.readList 0 (paletteBytes bpp.toNat)))).length = 8 * (3 + paletteBytes bpp.toNat) := by
    simp [headerBytes]; omega
  rcases hE with ⟨hr, he⟩ | ⟨hr, e', he, ha⟩
  · rw [hlen] at hr
    exact .inl ⟨by omega, he⟩
  · rw [hlen] at hr
    exact .inr ⟨by omega, by rw [he, (ha.bytes h0).1]⟩

end Sys2Proof.Machine
end

