-- ==== Sys2Proof/Laws/RunSelect.lean ====
section
/-!
SUPPORT. What the run selection can choose (R160, R163): the bounds of EqRun, of the scan and of a
selected run, and that a chosen DIFF carries pixels of the frame.
-/

namespace Sys2Proof.Machine

theorem eqRun_le_cap (cap : Nat) (f r : List Pixel) : eqRun cap f r ≤ cap := by
  induction cap generalizing f r with
  | zero => cases f <;> cases r <;> simp [eqRun]
  | succ cap ih =>
    cases f with
    | nil => simp [eqRun]
    | cons a f =>
      cases r with
      | nil => simp [eqRun]
      | cons b r =>
        simp only [eqRun]
        split
        · have := ih f r; omega
        · omega

theorem eqRun_le_length (cap : Nat) (f r : List Pixel) : eqRun cap f r ≤ f.length := by
  induction cap generalizing f r with
  | zero => cases f <;> cases r <;> simp [eqRun]
  | succ cap ih =>
    cases f with
    | nil => simp [eqRun]
    | cons a f =>
      cases r with
      | nil => simp [eqRun]
      | cons b r =>
        simp only [eqRun, List.length_cons]
        split
        · have := ih f r; omega
        · omega

/-- The pixels EqRun counts are equal in the frame and in the reference. -/
theorem take_eqRun (cap : Nat) (f r : List Pixel) :
    r.take (eqRun cap f r) = f.take (eqRun cap f r) := by
  induction cap generalizing f r with
  | zero => cases f <;> cases r <;> simp [eqRun]
  | succ cap ih =>
    cases f with
    | nil => simp [eqRun]
    | cons a f =>
      cases r with
      | nil => simp [eqRun]
      | cons b r =>
        simp only [eqRun]
        split
        · subst_vars; simp [ih f r]
        · simp

theorem scanDiff_le_budget (b : Nat) (f r : List Pixel) : scanDiff b f r ≤ b := by
  induction b generalizing f r with
  | zero => cases f <;> cases r <;> simp [scanDiff]
  | succ b ih =>
    cases f with
    | nil => simp [scanDiff]
    | cons x f =>
      cases r with
      | nil => simp [scanDiff]
      | cons y r =>
        simp only [scanDiff]
        split
        · have := ih f r; omega
        · omega

theorem scanDiff_le_length (b : Nat) (f r : List Pixel) : scanDiff b f r ≤ f.length := by
  induction b generalizing f r with
  | zero => cases f <;> cases r <;> simp [scanDiff]
  | succ b ih =>
    cases f with
    | nil => simp [scanDiff]
    | cons x f =>
      cases r with
      | nil => simp [scanDiff]
      | cons y r =>
        simp only [scanDiff, List.length_cons]
        split
        · have := ih f r; omega
        · omega

/-- Everything SelectRun can answer (R160): step 2, step 3 or step 4. -/
theorem selectRun_cases (f r : List Pixel) :
    (4 ≤ eqRun 128 f r ∧ selectRun f r = (true, eqRun 128 f r)) ∨
    (eqRun 128 f r < 4 ∧ f.length < 4 ∧ selectRun f r = (false, f.length)) ∨
    (eqRun 128 f r < 4 ∧ 4 ≤ f.length ∧
      selectRun f r = (false, scanDiff 127 f.tail r.tail + 1)) := by
  unfold selectRun minSame maxRun
  split
  · exact .inl ⟨‹_›, rfl⟩
  · split
    · exact .inr (.inl ⟨by omega, ‹_›, rfl⟩)
    · exact .inr (.inr ⟨by omega, by omega, rfl⟩)

/-- A selected run covers 1 to 128 pixels, all within the frame (R160, R161). -/
theorem selectRun_bounds {f : List Pixel} (r : List Pixel) (h : f ≠ []) :
    1 ≤ (selectRun f r).2 ∧ (selectRun f r).2 ≤ 128 ∧ (selectRun f r).2 ≤ f.length := by
  have hl : 0 < f.length := List.length_pos_iff.mpr h
  rcases selectRun_cases f r with ⟨h1, he⟩ | ⟨_, h2, he⟩ | ⟨_, h2, he⟩
  · have := eqRun_le_cap 128 f r
    have := eqRun_le_length 128 f r
    rw [he]; simp only; omega
  · rw [he]; simp only; omega
  · have h3 := scanDiff_le_budget 127 f.tail r.tail
    have h4 := scanDiff_le_length 127 f.tail r.tail
    rw [List.length_tail] at h4
    rw [he]; simp only; omega

/-- The literals of a chosen DIFF are pixels of the frame (R165). -/
theorem chooseRunsFuel_literalsFit (bpp fuel : Nat) (f r : List Pixel)
    (hf : ∀ v ∈ f, v.toNat < 2 ^ bpp) : ∀ run ∈ chooseRunsFuel fuel f r, literalsFit bpp run := by
  induction fuel generalizing f r with
  | zero => simp [chooseRunsFuel]
  | succ fuel ih =>
    cases f with
    | nil => simp [chooseRunsFuel]
    | cons a f =>
      intro run hrun
      simp only [chooseRunsFuel] at hrun
      rcases List.mem_cons.mp hrun with rfl | hrun
      · split
        · trivial
        · intro v hv
          exact hf v (List.mem_of_mem_take hv)
      · exact ih _ _ (fun v hv => hf v (List.mem_of_mem_drop hv)) run hrun

theorem chooseRuns_literalsFit (bpp : Nat) (f r : List Pixel) (hf : ∀ v ∈ f, v.toNat < 2 ^ bpp) :
    ∀ run ∈ chooseRuns f r, literalsFit bpp run :=
  chooseRunsFuel_literalsFit bpp f.length f r hf

end Sys2Proof.Machine
end

