-- ==== Sys2Proof/Laws/Reader.lean ====
section
/-!
SUPPORT. What the reader primitives do, said once (R128 to R134): `Reads d d' n` says that going from
`d` to `d'` consumed exactly `n` bits of the input stream and changed nothing else, and every
primitive either returns the next bits or finds the stream too short.
-/

namespace Sys2Proof.Machine

/-- The reader went from `d` to `d'` by consuming the next `n` bits. -/
def Reads (d d' : Dec) (n : Nat) : Prop :=
  d' = { d with pos := d'.pos, rAcc := d'.rAcc, rCnt := d'.rCnt } ∧
    readerOk d' ∧ d.pos ≤ d'.pos ∧ n ≤ (unreadBits d).length ∧
    unreadBits d' = (unreadBits d).drop n

theorem Reads.refl (d : Dec) (h : readerOk d) : Reads d d 0 :=
  ⟨rfl, h, BitVec.le_refl _, by simp, by simp⟩

theorem Reads.ok {d d' : Dec} {n : Nat} (h : Reads d d' n) : readerOk d' := h.2.1

theorem Reads.trans {d d1 d2 : Dec} {a b : Nat} (h1 : Reads d d1 a) (h2 : Reads d1 d2 b) :
    Reads d d2 (a + b) := by
  obtain ⟨r1, _, p1, l1, u1⟩ := h1
  obtain ⟨r2, o2, p2, l2, u2⟩ := h2
  refine ⟨?_, o2, BitVec.le_trans p1 p2, ?_, ?_⟩
  · rw [r2, r1]
  · rw [u1, List.length_drop] at l2; omega
  · rw [u2, u1, List.drop_drop]

theorem unreadBits_length (d : Dec) :
    (unreadBits d).length = d.rCnt.toNat + 8 * (d.inLen.toNat - d.pos.toNat) := by
  simp [unreadBits]

/-- How the cursor moves (R22, R129): `8 · D_POS - R_CNT` advances by the bits consumed. -/
theorem Reads.cursor {d d' : Dec} {n : Nat} (ho : readerOk d) (h : Reads d d' n) :
    8 * d'.pos.toNat + d.rCnt.toNat = 8 * d.pos.toNat + d'.rCnt.toNat + n := by
  obtain ⟨r, ⟨_, o'⟩, p, l, u⟩ := h
  have hi : d'.inLen = d.inLen := by rw [r]
  have := congrArg List.length u
  rw [List.length_drop, unreadBits_length, unreadBits_length, hi] at this
  rw [unreadBits_length] at l
  have h1 := BitVec.le_def.mp o'
  have h2 := BitVec.le_def.mp ho.2
  rw [hi] at h1
  omega

/-! ## ReadBits -/

/-- Taking `n` of `cnt` pending bits: their value, and the rest stays pending. -/
theorem takeBits_spec {n acc cnt : Nat} {d : Dec} (hn : n ≤ cnt) (h8 : cnt < n + 8)
    (hacc : acc < 2 ^ cnt) :
    (takeBits n acc cnt d).1 = bitsValue (fieldBits n acc) ∧
      (takeBits n acc cnt d).2.rCnt.toNat = cnt - n ∧
      (takeBits n acc cnt d).2.rAcc.toNat = acc >>> n ∧ acc >>> n < 2 ^ (cnt - n) := by
  have h1 : acc >>> n < 2 ^ (cnt - n) := by
    rw [Nat.shiftRight_eq_div_pow, Nat.div_lt_iff_lt_mul (by positivity), ← Nat.pow_add]
    rwa [show cnt - n + n = cnt by omega]
  have h2 : acc >>> n < 2 ^ 7 := lt_of_lt_of_le h1 (Nat.pow_le_pow_right (by omega) (by omega))
  refine ⟨(bitsValue_fieldBits n acc).symm, ?_, ?_, h1⟩
  · simp only [takeBits, BitVec.toNat_ofNat]; omega
  · simp only [takeBits, BitVec.toNat_ofNat]; exact Nat.mod_eq_of_lt h2

/-- ReadBits (R130, R131): DECODE_TRUNCATED exactly when fewer than `n` bits are unread, and otherwise
the next `n` bits as a natural. -/
theorem readBits_cases {n : Nat} {d : Dec} (ho : readerOk d) (hn : n ≤ 8) :
    ((unreadBits d).length < n ∧ readBits n d = .error .decodeTruncated) ∨
    (∃ d', readBits n d = .ok (bitsValue ((unreadBits d).take n), d') ∧ Reads d d' n) := by
  obtain ⟨hp, hpos⟩ := ho
  have hw : d.rCnt.toNat < 8 := d.rCnt.isLt
  have hle := BitVec.le_def.mp hpos
  have hlen := unreadBits_length d
  unfold readBits
  by_cases hlt : d.rCnt.toNat < n
  · rw [if_pos hlt]
    by_cases heq : d.pos = d.inLen
    · rw [if_pos heq]
      rw [heq, Nat.sub_self] at hlen
      exact .inl ⟨by omega, rfl⟩
    · rw [if_neg heq]
      have hpl : d.pos.toNat < d.inLen.toNat :=
        lt_of_le_of_ne hle fun h => heq (BitVec.eq_of_toNat_eq h)
      have hb := (d.ibuf.read d.pos.toNat).isLt
      have hacc := or_shift_lt hp hb
      have hfb := fieldBits_or_shift (n := 8) (d.ibuf.read d.pos.toNat).toNat hp
      generalize hA : d.rAcc.toNat ||| ((d.ibuf.read d.pos.toNat).toNat <<< d.rCnt.toNat) = acc at *
      obtain ⟨hv, hc, ha, hal⟩ :=
        takeBits_spec (d := { d with pos := d.pos + 1 }) (show n ≤ d.rCnt.toNat + 8 by omega) (by omega) hacc
      have hun : unreadBits d = fieldBits n acc ++ (fieldBits (d.rCnt.toNat + 8 - n) (acc >>> n) ++
          byteBits (d.ibuf.readList (d.pos.toNat + 1) (d.inLen.toNat - (d.pos.toNat + 1)))) := by
        unfold unreadBits
        rw [show d.inLen.toNat - d.pos.toNat = (d.inLen.toNat - (d.pos.toNat + 1)) + 1 by omega,
          Mem.readList_succ, byteBits_cons, ← List.append_assoc, ← hfb, ← List.append_assoc,
          ← fieldBits_add, show n + (d.rCnt.toNat + 8 - n) = d.rCnt.toNat + 8 by omega]
      have hp1 : (d.pos + 1).toNat = d.pos.toNat + 1 := by
        rw [BitVec.toNat_add, show (1 : BitVec 24).toNat = 1 from rfl]
        have := d.inLen.isLt
        omega
      refine .inr ⟨(takeBits n acc (d.rCnt.toNat + 8) { d with pos := d.pos + 1 }).2, ?_, rfl,
        ⟨?_, ?_⟩, ?_, ?_, ?_⟩
      · rw [hun, List.take_left' (by simp), ← hv]
      · rw [ha, hc]; exact hal
      · show d.pos + 1 ≤ d.inLen
        rw [BitVec.le_def, hp1]; omega
      · show d.pos ≤ d.pos + 1
        rw [BitVec.le_def, hp1]; omega
      · rw [hun]; simp
      · rw [hun, List.drop_left' (by simp)]
        unfold unreadBits
        rw [hc, ha]
        show _ ++ byteBits (d.ibuf.readList (d.pos + 1).toNat (d.inLen.toNat - (d.pos + 1).toNat)) = _
        rw [hp1]
  · rw [if_neg hlt]
    obtain ⟨hv, hc, ha, hal⟩ := takeBits_spec (d := d) (show n ≤ d.rCnt.toNat by omega) (by omega) hp
    have hun : unreadBits d = fieldBits n d.rAcc.toNat ++
        (fieldBits (d.rCnt.toNat - n) (d.rAcc.toNat >>> n) ++
          byteBits (d.ibuf.readList d.pos.toNat (d.inLen.toNat - d.pos.toNat))) := by
      unfold unreadBits
      rw [← List.append_assoc, ← fieldBits_add, show n + (d.rCnt.toNat - n) = d.rCnt.toNat by omega]
    refine .inr ⟨(takeBits n d.rAcc.toNat d.rCnt.toNat d).2, ?_, rfl, ⟨?_, ?_⟩, ?_, ?_, ?_⟩
    · rw [hun, List.take_left' (by simp), ← hv]
    · rw [ha, hc]; exact hal
    · exact hpos
    · exact BitVec.le_refl _
    · rw [hun]; simp
    · rw [hun, List.drop_left' (by simp)]
      unfold unreadBits
      rw [hc, ha]
      rfl

/-! ## Align -/

theorem align_readerOk {d : Dec} (h : d.pos ≤ d.inLen) : readerOk (align d) := ⟨by simp, h⟩

/-- Align leaves what has not been pulled (R132). -/
theorem unreadBits_align (d : Dec) :
    unreadBits (align d) = byteBits (d.ibuf.readList d.pos.toNat (d.inLen.toNat - d.pos.toNat)) := by
  simp [unreadBits]

theorem align_eq_self {d : Dec} (hc : d.rCnt = 0) (ha : d.rAcc = 0) : align d = d := by
  simp [align, ← hc, ← ha]

/-! ## Fields in turn -/

theorem fieldAt_zero (n : Nat) (bits : List Bool) : fieldAt n bits 0 = bitsValue (bits.take n) := by
  simp [fieldAt]

theorem fieldAt_succ (n : Nat) (bits : List Bool) (k : Nat) :
    fieldAt n bits (k + 1) = fieldAt n (bits.drop n) k := by
  simp only [fieldAt, List.drop_drop]
  congr 3
  ring

theorem fieldAt_lt (n : Nat) (bits : List Bool) (k : Nat) : fieldAt n bits k < 2 ^ n :=
  lt_of_lt_of_le (bitsValue_lt _) (Nat.pow_le_pow_right (by omega) (by simp))

/-- ReadBits(n) `count` times: DECODE_TRUNCATED exactly when the bits do not suffice, and otherwise the
next `count` fields. -/
theorem readFields_cases {n : Nat} (hn : n ≤ 8) (count : Nat) (d : Dec) (ho : readerOk d) :
    ((unreadBits d).length < count * n ∧ readFields n count d = .error .decodeTruncated) ∨
    (∃ d', readFields n count d = .ok ((List.range count).map (fieldAt n (unreadBits d)), d') ∧
      Reads d d' (count * n)) := by
  induction count generalizing d with
  | zero => exact .inr ⟨d, rfl, by simpa using Reads.refl d ho⟩
  | succ count ih =>
    rw [Nat.add_mul, Nat.one_mul, Nat.add_comm (count * n) n]
    rcases readBits_cases ho hn with ⟨hl, he⟩ | ⟨d1, he, h1⟩
    · exact .inl ⟨by omega, by simp [readFields, he]⟩
    · have hu := h1.2.2.2.2
      have hlen := congrArg List.length hu
      rw [List.length_drop] at hlen
      have hl1 := h1.2.2.2.1
      rcases ih d1 h1.ok with ⟨hl', he'⟩ | ⟨d2, he', h2⟩
      · exact .inl ⟨by omega, by simp [readFields, he, he']⟩
      · refine .inr ⟨d2, ?_, h1.trans h2⟩
        simp only [readFields, he, he', hu]
        rw [List.range_succ_eq_map, List.map_cons, List.map_map, fieldAt_zero]
        congr 3
        apply List.map_congr_left
        intro k _
        exact (fieldAt_succ n _ k).symm

end Sys2Proof.Machine
end

