-- ==== Sys2Proof/Laws/Decoder.lean ====
section
/-!
SUPPORT. What the decoder's parts do, said once: the run header fetch (R93, R196), the pixels of a
literal frame or a DIFF (R195, R199), and the header reader (R192).
-/

namespace Sys2Proof.Machine

/-! ## Run headers -/

theorem modeField_toNat (h : Byte) : modeField h = h.toNat % 2 := by
  simp [modeField]

theorem headerLengthField_toNat (h : Byte) : headerLengthField h = h.toNat / 2 := by
  have := h.isLt
  simp only [headerLengthField, BitVec.extractLsb'_toNat, Nat.shiftRight_eq_div_pow, pow_one]
  omega

theorem runHeader_toNat {mode lf : Nat} (hm : mode < 2) (hl : lf < 128) :
    (runHeader mode lf).toNat = mode + 2 * lf := by
  have h : mode ||| (lf <<< 1) = mode + 2 * lf := by
    rw [Nat.shiftLeft_eq, pow_one, Nat.or_comm, Nat.mul_comm, ← pow_one 2,
      ← Nat.two_pow_add_eq_or_of_lt (by simpa using hm)]
    omega
  rw [runHeader, h, BitVec.toNat_ofNat]
  omega

/-- The MODE and LENGTH_FIELD of a run header are the ones it was made of (R93). -/
theorem modeField_runHeader {mode lf : Nat} (hm : mode < 2) (hl : lf < 128) :
    modeField (runHeader mode lf) = mode := by
  rw [modeField_toNat, runHeader_toNat hm hl]; omega

theorem headerLengthField_runHeader {mode lf : Nat} (hm : mode < 2) (hl : lf < 128) :
    headerLengthField (runHeader mode lf) = lf := by
  rw [headerLengthField_toNat, runHeader_toNat hm hl]; omega

theorem runLength_lengthField {n : Nat} (h1 : 1 ≤ n) (h2 : n ≤ 128) :
    runLength (lengthField n) = n := by
  unfold runLength lengthField
  split <;> omega

/-- Executing the token of a run header made for a run length of 1 to 128 (R94, R196). -/
theorem runToken_runHeader {mode n : Nat} (s : State) (hm : mode < 2) (h1 : 1 ≤ n) (h2 : n ≤ 128) :
    runToken (runHeader mode (lengthField n)) s =
      if mode = 1 then execDiff n s else execSame n s := by
  have hl : lengthField n < 128 := Nat.mod_lt _ (by omega)
  unfold runToken
  rw [modeField_runHeader hm hl, headerLengthField_runHeader hm hl, runLength_lengthField h1 h2]

/-- The fetch (R196): DECODE_TRUNCATED exactly when fewer than 8 bits are unread, and otherwise the next
8 bits as a run header. -/
theorem fetchRunHeader_cases {d : Dec} (ho : readerOk d) :
    ((unreadBits d).length < 8 ∧ fetchRunHeader d = .error .decodeTruncated) ∨
    (∃ d', fetchRunHeader d = .ok (BitVec.ofNat 8 (bitsValue ((unreadBits d).take 8)), d') ∧
      Reads d d' 8) := by
  unfold fetchRunHeader
  rcases readBits_cases (n := 1) ho (by omega) with ⟨hl, he⟩ | ⟨d1, he, h1⟩
  · exact .inl ⟨by omega, by rw [he]⟩
  · have hu := h1.2.2.2.2
    have hlen := congrArg List.length hu
    rw [List.length_drop] at hlen
    have hl1 := h1.2.2.2.1
    rw [he]
    rcases readBits_cases (n := 7) h1.ok (by omega) with ⟨hl', he'⟩ | ⟨d2, he', h2⟩
    · exact .inl ⟨by omega, by simp only [he']⟩
    · refine .inr ⟨d2, ?_, h1.trans h2⟩
      simp only [he', hu]
      have hsplit : (unreadBits d).take 8 =
          (unreadBits d).take 1 ++ ((unreadBits d).drop 1).take 7 := by
        rw [← List.take_add]
      have hm : bitsValue ((unreadBits d).take 1) < 2 :=
        lt_of_lt_of_le (bitsValue_lt _) (by simpa using Nat.pow_le_pow_right (n := 2) (by omega) (show ((unreadBits d).take 1).length ≤ 1 by simp))
      have hf : bitsValue (((unreadBits d).drop 1).take 7) < 128 :=
        lt_of_lt_of_le (bitsValue_lt _) (by simpa using Nat.pow_le_pow_right (n := 2) (by omega) (show (((unreadBits d).drop 1).take 7).length ≤ 7 by simp))
      have hv : bitsValue ((unreadBits d).take 8) =
          bitsValue ((unreadBits d).take 1) + 2 * bitsValue (((unreadBits d).drop 1).take 7) := by
        rw [hsplit, bitsValue_append]
        congr 2
        have : ((unreadBits d).take 1).length = 1 := by simp; omega
        rw [this, pow_one]
      congr 2
      apply BitVec.eq_of_toNat_eq
      rw [runHeader_toNat hm hf, BitVec.toNat_ofNat, hv]
      omega

/-! ## Pixels -/

@[simp] theorem pixelFields_length (bpp n : Nat) (bits : List Bool) :
    (pixelFields bpp n bits).length = n := by simp [pixelFields]

/-- The pixels of a literal frame or a DIFF (R195, R199): DECODE_TRUNCATED exactly when their bits do
not suffice, and otherwise they are stored from `p` on and nothing else changes but the cursor. -/
theorem readPixels_cases {p n : Nat} {d : Dec} (ho : readerOk d) :
    ((unreadBits d).length < n * d.bpp.toNat ∧ readPixels p n d = .error .decodeTruncated) ∨
    (∃ d', Reads d d' (n * d.bpp.toNat) ∧
      readPixels p n d =
        .ok { d' with cur := d.cur.writeList p (pixelFields d.bpp.toNat n (unreadBits d)) }) := by
  have hb : d.bpp.toNat ≤ 8 := by have := d.bpp.isLt; omega
  unfold readPixels
  rcases readFields_cases hb n d ho with ⟨hl, he⟩ | ⟨d', he, h⟩
  · exact .inl ⟨hl, by rw [he]⟩
  · refine .inr ⟨d', h, ?_⟩
    rw [he]
    simp only
    rw [show d'.cur = d.cur by rw [h.1]]
    rfl

/-! ## Whole bytes -/

/-- The reader at a byte boundary, `k` bytes in. -/
def atByte (k : Nat) (d : Dec) : Dec :=
  { d with pos := BitVec.ofNat 24 k, rAcc := 0, rCnt := 0 }

@[simp] theorem atByte_atByte (j k : Nat) (d : Dec) : atByte j (atByte k d) = atByte j d := rfl
@[simp] theorem align_atByte (k : Nat) (d : Dec) : align (atByte k d) = atByte k d := rfl
@[simp] theorem atByte_ibuf (k : Nat) (d : Dec) : (atByte k d).ibuf = d.ibuf := rfl
@[simp] theorem atByte_inLen (k : Nat) (d : Dec) : (atByte k d).inLen = d.inLen := rfl

theorem atByte_pos {k : Nat} (d : Dec) (h : k ≤ d.inLen.toNat) : (atByte k d).pos.toNat = k := by
  have := d.inLen.isLt
  simp only [atByte, BitVec.toNat_ofNat]
  omega

/-- ReadBits(8) at a byte boundary (R130, R133): the next byte, or DECODE_TRUNCATED at the end. -/
theorem readBits_atByte {k : Nat} {d : Dec} (h : k ≤ d.inLen.toNat) :
    readBits 8 (atByte k d) =
      if k = d.inLen.toNat then .error .decodeTruncated
      else .ok ((d.ibuf.read k).toNat, atByte (k + 1) d) := by
  have hp := atByte_pos d h
  have hb := (d.ibuf.read k).isLt
  unfold readBits
  rw [if_pos (show (atByte k d).rCnt.toNat < 8 by show 0 < 8; omega)]
  by_cases he : k = d.inLen.toNat
  · rw [if_pos he, if_pos]
    exact BitVec.eq_of_toNat_eq (by rw [hp, he]; rfl)
  · rw [if_neg he, if_neg]
    · rw [hp, atByte_ibuf]
      have hs : BitVec.ofNat 24 k + 1 = BitVec.ofNat 24 (k + 1) := by
        apply BitVec.eq_of_toNat_eq
        simp
      have hz : (d.ibuf.read k).toNat >>> 8 = 0 := by
        rw [Nat.shiftRight_eq_div_pow]; omega
      have ha : (atByte k d).rAcc.toNat = 0 := rfl
      have hc : (atByte k d).rCnt.toNat = 0 := rfl
      rw [ha, hc, Nat.shiftLeft_zero, Nat.zero_or]
      unfold takeBits
      rw [hz, Nat.mod_eq_of_lt (by omega)]
      simp only [atByte, hs]
      rfl
    · intro hq
      apply he
      rw [← hp, hq]
      rfl

/-- ReadBits(8) `m` times from a byte boundary (R134): the next `m` bytes, or DECODE_TRUNCATED when
fewer remain. -/
theorem readFields_atByte (m : Nat) {k : Nat} {d : Dec} (h : k ≤ d.inLen.toNat) :
    readFields 8 m (atByte k d) =
      if d.inLen.toNat < k + m then .error .decodeTruncated
      else .ok ((d.ibuf.readList k m).map BitVec.toNat, atByte (k + m) d) := by
  induction m generalizing k with
  | zero => rw [if_neg (by omega)]; rfl
  | succ m ih =>
    unfold readFields
    rw [readBits_atByte h]
    by_cases he : k = d.inLen.toNat
    · rw [if_pos he, if_pos (by omega)]
    · rw [if_neg he]
      simp only
      rw [ih (by omega)]
      by_cases hl : d.inLen.toNat < k + 1 + m
      · rw [if_pos hl, if_pos (by omega)]
      · rw [if_neg hl, if_neg (by omega), Mem.readList_succ,
          show k + 1 + m = k + (m + 1) by omega]
        rfl

theorem map_ofNat_toNat {w : Nat} (l : List (BitVec w)) :
    (l.map BitVec.toNat).map (BitVec.ofNat w) = l := by
  simp [List.map_map, Function.comp_def]

/-- ReadHeader at the start of the input (R192), in the order of R240: too short for the three header
bytes, header out of range, too short for the palette, or read. -/
theorem readHeader_start (len : BitVec 24) (d : Dec) :
    readHeader (startInput len d) =
      if len.toNat < 3 then .error .decodeTruncated
      else if headerInRange (d.ibuf.read 0).toNat (d.ibuf.read 1).toNat (d.ibuf.read 2).toNat then
        if len.toNat < 3 + paletteBytes (d.ibuf.read 2).toNat then .error .decodeTruncated
        else .ok { startInput len d with
          pos := BitVec.ofNat 24 (3 + paletteBytes (d.ibuf.read 2).toNat)
          pal := d.pal.writeList 0 (d.ibuf.readList 3 (paletteBytes (d.ibuf.read 2).toNat))
          nframes := d.ibuf.read 0
          interval := d.ibuf.read 1
          bpp := bppField (d.ibuf.read 2) }
      else .error .config := by
  have hs : startInput len d = atByte 0 (startInput len d) := rfl
  have hi : (startInput len d).inLen = len := rfl
  have hb : (startInput len d).ibuf = d.ibuf := rfl
  rw [hs]
  unfold readHeader readByte
  rw [align_atByte, readBits_atByte (Nat.zero_le _), hi, hb]
  by_cases h0 : 0 = len.toNat
  · rw [if_pos h0, if_pos (by omega)]
  rw [if_neg h0]
  simp only
  rw [align_atByte, readBits_atByte (by rw [hi]; omega), hi, hb]
  by_cases h1 : 0 + 1 = len.toNat
  · rw [if_pos h1, if_pos (by omega)]
  rw [if_neg h1]
  simp only
  rw [align_atByte, readBits_atByte (by rw [hi]; omega), hi, hb]
  by_cases h2 : 0 + 1 + 1 = len.toNat
  · rw [if_pos h2, if_pos (by omega)]
  rw [if_neg h2, if_neg (by omega)]
  simp only [Nat.zero_add, Nat.reduceAdd]
  split
  · unfold readBytes
    rw [align_atByte, readFields_atByte _ (by rw [hi]; omega), hi, hb]
    by_cases h3 : len.toNat < 3 + paletteBytes (d.ibuf.read 2).toNat
    · rw [if_pos h3, if_pos h3]
    · rw [if_neg h3, if_neg h3]
      simp only [map_ofNat_toNat, BitVec.ofNat_toNat, BitVec.setWidth_eq]
      rfl
  · rfl

end Sys2Proof.Machine
end

