-- ==== Sys2Proof/Laws/Tokens.lean ====
section
/-!
SUPPORT. What the token operations of a run frame can do: SAME, DIFF, one token cycle, and a cycle
sequence that executes a given list of runs.
-/

namespace Sys2Proof.Machine

/-! ## A mid-operation error (R238) -/

theorem freeUpTo_toNat_le (w k bound : Nat) : (freeUpTo w k bound).toNat ≤ bound := by
  unfold freeUpTo
  rw [BitVec.toNat_ofNat]
  have := Nat.mod_lt (Config.freeBits w k).toNat (show 0 < bound + 1 by omega)
  exact Nat.le_trans (Nat.mod_le _ _) (by omega)

theorem freePending_lt (k : Nat) (cnt : BitVec 3) : (freePending k cnt).toNat < 2 ^ cnt.toNat := by
  unfold freePending
  rw [BitVec.toNat_ofNat]
  exact Nat.lt_of_le_of_lt (Nat.mod_le _ _) (Nat.mod_lt _ (Nat.two_pow_pos _))

theorem failDecFrame_failed (c : ErrCode) (s : State) : decFrameFailed c s (failDecFrame c s) :=
  ⟨rfl, BitVec.le_def.2 (freeUpTo_toNat_le 24 s.free s.dec.inLen.toNat)⟩

/-! ## One token -/

/-- Everything SAME can do (R197, R198). -/
theorem execSame_cases (n : Nat) (s : State) :
    (s.params.npix < s.dec.pix + n ∧ execSame n s = .next (failDecFrame .decodeFraming s)) ∨
    (s.dec.pix + n ≤ s.params.npix ∧
      execSame n s = .next { s with dec := { s.dec with pix := s.dec.pix + n } }) := by
  by_cases h : s.params.npix < s.dec.pix + n
  · exact .inl ⟨h, if_pos h⟩
  · exact .inr ⟨by omega, if_neg h⟩

/-- Everything DIFF can do (R197, R199). -/
theorem execDiff_cases (n : Nat) {s : State} (ho : readerOk s.dec) :
    (s.params.npix < s.dec.pix + n ∧ execDiff n s = .next (failDecFrame .decodeFraming s)) ∨
    (s.dec.pix + n ≤ s.params.npix ∧ (unreadBits s.dec).length < n * s.dec.bpp.toNat ∧
      execDiff n s = .next (failDecFrame .decodeTruncated s)) ∨
    (s.dec.pix + n ≤ s.params.npix ∧ ∃ d, Reads s.dec d (n * s.dec.bpp.toNat) ∧
      execDiff n s = .next { s with
        dec := { d with
          cur := s.dec.cur.writeList s.dec.pix (pixelFields s.dec.bpp.toNat n (unreadBits s.dec))
          pix := s.dec.pix + n } }) := by
  unfold execDiff
  by_cases h : s.params.npix < s.dec.pix + n
  · exact .inl ⟨h, if_pos h⟩
  · rw [if_neg h]
    rcases readPixels_cases (p := s.dec.pix) (n := n) ho with ⟨hl, he⟩ | ⟨d, hd, he⟩
    · exact .inr (.inl ⟨by omega, hl, by rw [he]⟩)
    · exact .inr (.inr ⟨by omega, d, hd, by rw [he]⟩)

/-- Executing a token by its run header is executing the instruction the header encodes (R93, R196). -/
theorem runToken_eq_exec (h : Byte) (s : State) : runToken h s = exec (decodeRunHeader h) s := by
  unfold runToken decodeRunHeader
  by_cases hm : modeField h = 1
  · rw [if_pos hm, if_pos hm]; rfl
  · rw [if_neg hm, if_neg hm]; rfl

/-- Everything a token can do. -/
theorem runToken_cases (h : Byte) {s : State} (ho : readerOk s.dec) :
    (∃ c, (c = .decodeFraming ∨ c = .decodeTruncated) ∧
      runToken h s = .next (failDecFrame c s)) ∨
    (∃ n d vs, 1 ≤ n ∧ n ≤ 128 ∧ s.dec.pix + n ≤ s.params.npix ∧
      d = { s.dec with pos := d.pos, rAcc := d.rAcc, rCnt := d.rCnt } ∧ readerOk d ∧
      s.dec.pos ≤ d.pos ∧ vs.length ≤ n ∧
      (∀ v ∈ vs, BitVec.toNat v < 2 ^ s.dec.bpp.toNat) ∧
      runToken h s = .next { s with
        dec := { d with cur := s.dec.cur.writeList s.dec.pix vs, pix := s.dec.pix + n } }) := by
  have hn : 1 ≤ runLength (headerLengthField h) ∧ runLength (headerLengthField h) ≤ 128 := by
    rw [headerLengthField_toNat]
    have := h.isLt
    unfold runLength
    split <;> omega
  unfold runToken
  split
  · rcases execDiff_cases (runLength (headerLengthField h)) ho with
      ⟨_, he⟩ | ⟨_, _, he⟩ | ⟨hp, d, hd, he⟩
    · exact .inl ⟨_, .inl rfl, he⟩
    · exact .inl ⟨_, .inr rfl, he⟩
    · refine .inr ⟨_, d, _, hn.1, hn.2, hp, hd.1, hd.2.1, hd.2.2.1, ?_, ?_, he⟩
      · simp
      · intro v hv
        simp only [pixelFields, List.mem_map] at hv
        obtain ⟨_, ⟨k, _, rfl⟩, rfl⟩ := hv
        rw [BitVec.toNat_ofNat]
        exact Nat.lt_of_le_of_lt (Nat.mod_le _ _) (fieldAt_lt _ _ _)
  · rcases execSame_cases (runLength (headerLengthField h)) s with ⟨_, he⟩ | ⟨hp, he⟩
    · exact .inl ⟨_, .inl rfl, he⟩
    · exact .inr ⟨_, s.dec, [], hn.1, hn.2, hp, rfl, ho, BitVec.le_refl _, by simp, by simp, he⟩

/-! ## The token cycle -/

theorem settle_done {s : State} (hb : s.dec.busy = true) (h : s.params.npix ≤ s.dec.pix) :
    settle s = finishFrame s := if_pos ⟨hb, h⟩

theorem settle_within {s : State} (h : s.dec.pix < s.params.npix) : settle s = s :=
  if_neg fun c => by omega

theorem settle_idle {s : State} (hb : s.dec.busy = false) : settle s = s :=
  if_neg fun c => by rw [hb] at c; exact absurd c.1 (by decide)

/-- Everything a token cycle can do (R196): it fails, or it executes a token that stays within the frame
and settles. -/
theorem tokenCycle_cases {s : State} (ho : readerOk s.dec) :
    (∃ c d, (c = .decodeFraming ∨ c = .decodeTruncated) ∧
      d = { s.dec with pos := d.pos, rAcc := d.rAcc, rCnt := d.rCnt } ∧
      tokenCycle runToken s = .next (failDecFrame c { s with dec := d })) ∨
    (∃ n d vs, 1 ≤ n ∧ n ≤ 128 ∧ s.dec.pix + n ≤ s.params.npix ∧
      d = { s.dec with pos := d.pos, rAcc := d.rAcc, rCnt := d.rCnt } ∧ readerOk d ∧
      s.dec.pos ≤ d.pos ∧ vs.length ≤ n ∧
      (∀ v ∈ vs, BitVec.toNat v < 2 ^ s.dec.bpp.toNat) ∧
      tokenCycle runToken s = .next (settle { s with
        dec := { d with cur := s.dec.cur.writeList s.dec.pix vs, pix := s.dec.pix + n } })) := by
  unfold tokenCycle
  rcases fetchRunHeader_cases ho with ⟨_, he⟩ | ⟨d1, he, hd1⟩
  · exact .inl ⟨_, s.dec, .inr rfl, rfl, by rw [he]⟩
  · rw [he]
    simp only
    have h1 := hd1.1
    rcases runToken_cases (BitVec.ofNat 8 (bitsValue ((unreadBits s.dec).take 8)))
        (s := { s with dec := d1 }) hd1.2.1 with ⟨c, hc, hr⟩ | ⟨n, d, vs, hn, hn', hp, hd, hok, hpos,
        hl, hv, hr⟩
    · refine .inl ⟨c, d1, hc, h1, ?_⟩
      rw [hr]
      simp only
      rw [settle_idle rfl]
    · refine .inr ⟨n, d, vs, hn, hn', ?_, ?_, hok, BitVec.le_trans hd1.2.2.1 hpos, hl, ?_, ?_⟩
      · rw [h1] at hp; exact hp
      · rw [hd, h1]
      · rw [h1] at hv; exact hv
      · rw [hr, h1]

/-! ## A sequence of runs -/

/-- The cycle that meets the header of a run of `n` pixels executes that token (R196). -/
theorem tokenCycle_header {s : State} {mode n : Nat} {rest : List Bool} (ho : readerOk s.dec)
    (hm : mode < 2) (h1 : 1 ≤ n) (h2 : n ≤ 128)
    (hu : unreadBits s.dec = runHeaderBits mode n ++ rest) :
    ∃ d, Reads s.dec d 8 ∧ unreadBits d = rest ∧ tokenCycle runToken s =
      match (if mode = 1 then execDiff n { s with dec := d } else execSame n { s with dec := d }) with
      | .next t => .next (settle t)
      | .fault e => .fault e
      | .refused e => .refused e := by
  have hl : (runHeaderBits mode n).length = 8 := by simp [runHeaderBits]
  rcases fetchRunHeader_cases ho with ⟨hs, _⟩ | ⟨d, he, hd⟩
  · rw [hu, List.length_append, hl] at hs; omega
  · refine ⟨d, hd, ?_, ?_⟩
    · rw [hd.2.2.2.2, hu, ← hl, List.drop_left]
    · have hv : BitVec.ofNat 8 (bitsValue ((unreadBits s.dec).take 8)) =
          runHeader mode (lengthField n) := by
        have ht : (runHeaderBits mode n ++ rest).take 8 = runHeaderBits mode n := List.take_left' hl
        rw [hu, ht]
        apply BitVec.eq_of_toNat_eq
        have hf := lengthField_lt n
        rw [runHeader_toNat hm hf, BitVec.toNat_ofNat, runHeaderBits, bitsValue_append,
          bitsValue_fieldBits_of_lt (by omega), bitsValue_fieldBits_of_lt hf]
        simp only [fieldBits_length]
        omega
      unfold tokenCycle
      rw [he, hv]
      simp only
      show (match runToken (runHeader mode (lengthField n)) { s with dec := d } with
        | .next t => Host.Outcome.next (settle t)
        | .fault e => .fault e
        | .refused e => .refused e) = _
      exact congrArg (fun o : Host.Outcome State Fault Refusal => match o with
        | .next t => Host.Outcome.next (settle t)
        | .fault e => .fault e
        | .refused e => .refused e) (runToken_runHeader { s with dec := d } hm h1 h2)

/-- The decoder after a run that stays within the frame. -/
def afterRun (d : Dec) (run : Run) (d' : Dec) : Prop :=
  d' = { d with
    pix := d.pix + runPixels run
    cur := match run with
      | .same _ => d.cur
      | .diff literals => d.cur.writeList d.pix literals
    pos := d'.pos, rAcc := d'.rAcc, rCnt := d'.rCnt }

/-- `bits` encodes `px`: the pixels read back from their own bits. -/
theorem pixelFields_pixelBits {bpp : Nat} (px : List Pixel) (rest : List Bool)
    (hf : ∀ v ∈ px, v.toNat < 2 ^ bpp) :
    pixelFields bpp px.length (pixelBits bpp px ++ rest) = px := by
  induction px with
  | nil => rfl
  | cons v px ih =>
    have hv := hf v (by simp)
    have hs : pixelBits bpp (v :: px) ++ rest = fieldBits bpp v.toNat ++ (pixelBits bpp px ++ rest) := by
      simp [pixelBits]
    have hd : (fieldBits bpp v.toNat ++ (pixelBits bpp px ++ rest)).drop bpp =
        pixelBits bpp px ++ rest := List.drop_left' (by simp)
    have ht : (fieldBits bpp v.toNat ++ (pixelBits bpp px ++ rest)).take bpp =
        fieldBits bpp v.toNat := List.take_left' (by simp)
    have ih' := ih fun u hu => hf u (by simp [hu])
    rw [hs]
    unfold pixelFields at ih' ⊢
    rw [List.length_cons, List.range_succ_eq_map]
    simp only [List.map_cons, List.map_map, fieldAt_zero]
    rw [ht, bitsValue_fieldBits_of_lt hv]
    have : (fieldAt bpp (fieldBits bpp v.toNat ++ (pixelBits bpp px ++ rest)) ∘ Nat.succ) =
        fieldAt bpp (pixelBits bpp px ++ rest) := by
      funext k
      simp only [Function.comp, Nat.succ_eq_add_one, fieldAt_succ, hd]
    rw [this]
    rw [List.map_map] at ih'
    rw [ih']
    simp

theorem runBits_length (bpp : Nat) (run : Run) :
    8 ≤ (runBits bpp run).length ∧ (runBits bpp run).length =
      8 + match run with
        | .same _ => 0
        | .diff literals => literals.length * bpp := by
  cases run with
  | same n => simp [runBits, runHeaderBits]
  | diff literals => simp [runBits, runHeaderBits, pixelBits_length]; omega

theorem runLengthOk_iff (n : Nat) : runLengthOk n = true ↔ 1 ≤ n ∧ n ≤ 128 := by
  rw [runLengthOk, Bool.and_eq_true, decide_eq_true_eq, decide_eq_true_eq]
  exact Iff.rfl

/-- One cycle on a run the stream holds, within the frame (R198, R199). -/
theorem tokenCycle_run {s : State} {run : Run} {rest : List Bool} (ho : readerOk s.dec)
    (hr : runOk s.dec.bpp.toNat run = true) (hp : s.dec.pix + runPixels run ≤ s.params.npix)
    (hu : unreadBits s.dec = runBits s.dec.bpp.toNat run ++ rest) :
    ∃ d, afterRun s.dec run d ∧ readerOk d ∧ unreadBits d = rest ∧
      8 * d.pos.toNat + s.dec.rCnt.toNat =
        8 * s.dec.pos.toNat + d.rCnt.toNat + (runBits s.dec.bpp.toNat run).length ∧
      tokenCycle runToken s = .next (settle { s with dec := d }) := by
  cases run with
  | same n =>
    simp only [runOk, runLengthOk_iff] at hr
    obtain ⟨d, hd, hrest, hc⟩ := tokenCycle_header ho (by omega) hr.1 hr.2 hu
    have hcur := hd.cursor ho
    have hfe : d.pix = s.dec.pix := by rw [hd.1]
    rcases execSame_cases n { s with dec := d } with ⟨h, _⟩ | ⟨h, he⟩
    · exfalso; simp only [hfe] at h; simp only [runPixels] at hp; omega
    · refine ⟨{ d with pix := s.dec.pix + n }, ?_, hd.2.1, hrest, ?_, ?_⟩
      · unfold afterRun; rw [hd.1]; rfl
      · simpa [runBits, runHeaderBits] using hcur
      · rw [hc, if_neg (by decide), he]; simp only [hfe]
  | diff literals =>
    simp only [runOk, Bool.and_eq_true, runLengthOk_iff, List.all_eq_true, decide_eq_true_eq] at hr
    have hlit : ∀ v ∈ literals, v.toNat < 2 ^ s.dec.bpp.toNat := hr.2
    have hu' : unreadBits s.dec = runHeaderBits 1 literals.length ++
        (pixelBits s.dec.bpp.toNat literals ++ rest) := by
      rw [hu]; simp [runBits]
    obtain ⟨d, hd, hrest, hc⟩ := tokenCycle_header ho (by omega) hr.1.1 hr.1.2 hu'
    have hcur := hd.cursor ho
    have hfe : d.pix = s.dec.pix := by rw [hd.1]
    have hbe : d.bpp = s.dec.bpp := by rw [hd.1]
    have hce : d.cur = s.dec.cur := by rw [hd.1]
    rcases execDiff_cases literals.length (s := { s with dec := d }) hd.2.1 with
      ⟨h, _⟩ | ⟨_, h, _⟩ | ⟨h, d2, hd2, he⟩
    · exfalso; simp only [hfe] at h; simp only [runPixels] at hp; omega
    · exfalso
      simp only [hrest, hbe, List.length_append, pixelBits_length] at h
      omega
    · simp only [hrest, hbe, hce, hfe] at hd2 he
      have hcur2 := hd2.cursor hd.2.1
      rw [pixelFields_pixelBits literals rest hlit] at he
      refine ⟨{ d2 with cur := s.dec.cur.writeList s.dec.pix literals,
                        pix := s.dec.pix + literals.length }, ?_, hd2.2.1, ?_, ?_, ?_⟩
      · unfold afterRun; rw [hd2.1, hd.1]; rfl
      · have h3 := hd2.2.2.2.2
        rw [hrest] at h3
        have h4 : unreadBits d2 = rest := by
          rw [h3]; exact List.drop_left' (by simp [pixelBits_length])
        exact h4
      · have := (runBits_length s.dec.bpp.toNat (.diff literals)).2
        simp only at this hcur hcur2 ⊢
        omega
      · rw [hc, if_pos rfl, he]

end Sys2Proof.Machine
end

