-- ==== Sys2Proof/Laws/RunFrames.lean ====
section
/-!
SUPPORT. Whole run frames: what a list of runs stores, the loop of token cycles over the bits of a list
of runs, and that the runs the encoder chooses are legal and cover its frame.
-/

namespace Sys2Proof.Machine

/-! ## What runs store -/

/-- The stores a list of runs makes from index `p` on (R198, R199). -/
def Mem.writeRuns (m : Mem 7) : Nat → List Run → Mem 7
  | _, [] => m
  | p, .same n :: runs => m.writeRuns (p + n) runs
  | p, .diff literals :: runs =>
    Mem.writeRuns (m.writeList p literals) (p + literals.length) runs

@[simp] theorem runsPixels_nil : runsPixels [] = 0 := rfl

@[simp] theorem runsPixels_cons (run : Run) (runs : List Run) :
    runsPixels (run :: runs) = runPixels run + runsPixels runs := rfl

@[simp] theorem runsBits_nil (bpp : Nat) : runsBits bpp [] = [] := rfl

@[simp] theorem runsBits_cons (bpp : Nat) (run : Run) (runs : List Run) :
    runsBits bpp (run :: runs) = runBits bpp run ++ runsBits bpp runs := rfl

theorem Mem.read_writeRuns_below (m : Mem 7) {p a : Nat} (runs : List Run) (h : a < p) :
    (m.writeRuns p runs).read a = m.read a := by
  induction runs generalizing m p with
  | nil => rfl
  | cons run runs ih =>
    cases run with
    | same n => exact ih m (by omega)
    | diff literals =>
      rw [Mem.writeRuns, ih _ (by omega), Mem.read_writeList, dif_neg (by omega)]

theorem Mem.read_writeRuns_above (m : Mem 7) {p a : Nat} (runs : List Run)
    (h : p + runsPixels runs ≤ a) : (m.writeRuns p runs).read a = m.read a := by
  induction runs generalizing m p with
  | nil => rfl
  | cons run runs ih =>
    cases run with
    | same n =>
      simp only [runsPixels_cons, runPixels] at h
      exact ih m (by omega)
    | diff literals =>
      simp only [runsPixels_cons, runPixels] at h
      rw [Mem.writeRuns, ih _ (by omega), Mem.read_writeList, dif_neg (by omega)]

/-- Runs that cover a span make of it what `applyRuns` says. -/
theorem Mem.readList_writeRuns (m : Mem 7) (p : Nat) (runs : List Run) :
    (m.writeRuns p runs).readList p (runsPixels runs) =
      applyRuns runs (m.readList p (runsPixels runs)) := by
  induction runs generalizing m p with
  | nil => rfl
  | cons run runs ih =>
    cases run with
    | same n =>
      simp only [runsPixels_cons, runPixels, Mem.writeRuns, applyRuns]
      rw [Mem.readList_add, Mem.readList_add, ih,
        List.take_left' (by simp), List.drop_left' (by simp)]
      congr 1
      exact Mem.readList_congr fun a _ h => Mem.read_writeRuns_below m runs (by omega)
    | diff literals =>
      simp only [runsPixels_cons, runPixels, Mem.writeRuns, applyRuns]
      rw [Mem.readList_add, Mem.readList_add, ih, List.drop_left' (by simp)]
      congr 1
      · exact (Mem.readList_congr fun a _ h => Mem.read_writeRuns_below _ runs (by omega)).trans
          (Mem.readList_writeList m p literals)
      · congr 1
        exact Mem.readList_congr fun a h _ => by rw [Mem.read_writeList, dif_neg (by omega)]

/-! ## The loop over a list of runs -/

/-- The decoder after a list of runs that stays within the frame. -/
def afterRuns (d : Dec) (runs : List Run) (d' : Dec) : Prop :=
  d' = { d with
    pix := d.pix + runsPixels runs
    cur := d.cur.writeRuns d.pix runs
    pos := d'.pos, rAcc := d'.rAcc, rCnt := d'.rCnt }

theorem afterRun.andRuns {d d1 d2 : Dec} {run : Run} {runs : List Run} (h : afterRun d run d1)
    (hs : afterRuns d1 runs d2) : afterRuns d (run :: runs) d2 := by
  unfold afterRun at h
  unfold afterRuns at hs ⊢
  rw [hs, h]
  cases run with
  | same n => simp [runPixels, Mem.writeRuns, Nat.add_assoc]
  | diff literals => simp [runPixels, Mem.writeRuns, Nat.add_assoc]

/-- The loop passes over runs that end before the frame does, one cycle each (R196). -/
theorem decodeRunsLoop_runs (runs : List Run) {s : State} {rest : List Bool}
    (hb : s.dec.busy = true) (ho : readerOk s.dec)
    (hr : ∀ run ∈ runs, runOk s.dec.bpp.toNat run = true)
    (hp : s.dec.pix + runsPixels runs < s.params.npix)
    (hu : unreadBits s.dec = runsBits s.dec.bpp.toNat runs ++ rest) :
    ∃ d, afterRuns s.dec runs d ∧ readerOk d ∧ unreadBits d = rest ∧
      8 * d.pos.toNat + s.dec.rCnt.toNat =
        8 * s.dec.pos.toNat + d.rCnt.toNat + (runsBits s.dec.bpp.toNat runs).length ∧
      ∀ fuel, decodeRunsLoop (runs.length + fuel) s = decodeRunsLoop fuel { s with dec := d } := by
  induction runs generalizing s with
  | nil => exact ⟨s.dec, rfl, ho, hu, by simp, fun fuel => by simp⟩
  | cons run runs ih =>
    simp only [runsPixels_cons] at hp
    rw [runsBits_cons, List.append_assoc] at hu
    obtain ⟨d1, h1, ho1, hu1, hc1, ht⟩ :=
      tokenCycle_run ho (hr run (by simp)) (by omega) hu
    have hpix : d1.pix = s.dec.pix + runPixels run := by rw [h1]
    have hbpp : d1.bpp = s.dec.bpp := by rw [h1]
    have hbusy : d1.busy = true := by rw [h1]; exact hb
    obtain ⟨d2, h2, ho2, hu2, hc2, hl⟩ := ih (s := { s with dec := d1 }) hbusy ho1
      (fun r h => by rw [hbpp]; exact hr r (by simp [h])) (by simp only [hpix]; omega)
      (by rw [hbpp]; exact hu1)
    simp only [hbpp] at h2 hc2 hl
    refine ⟨d2, h1.andRuns h2, ho2, hu2, ?_, fun fuel => ?_⟩
    · simp only [runsBits_cons, List.length_append]; omega
    · rw [List.length_cons, show runs.length + 1 + fuel = (runs.length + fuel) + 1 by omega,
        decodeRunsLoop, if_pos hb, ht]
      simp only
      rw [settle_within (by simp only [hpix]; omega)]
      exact hl fuel

/-- A loop that is between frames stays there. -/
theorem decodeRunsLoop_idle (fuel : Nat) {s : State} (hb : s.dec.busy = false) :
    decodeRunsLoop fuel s = .next s := by
  cases fuel with
  | zero => rfl
  | succ fuel => rw [decodeRunsLoop, if_neg (by rw [hb]; decide)]

/-- The loop over what is left of the frame always ends outside it (R196): each cycle covers a pixel,
ends the frame, or fails. -/
theorem decodeRunsLoop_ends {fuel : Nat} {s t : State} (ho : readerOk s.dec)
    (hp : s.dec.busy = true → s.dec.pix < s.params.npix) (hf : s.params.npix ≤ s.dec.pix + fuel)
    (h : decodeRunsLoop fuel s = .next t) : t.dec.busy = false := by
  induction fuel generalizing s with
  | zero =>
    cases h
    cases hb : t.dec.busy with
    | false => rfl
    | true => have := hp hb; omega
  | succ fuel ih =>
    cases hb : s.dec.busy with
    | false => rw [decodeRunsLoop_idle _ hb] at h; cases h; exact hb
    | true =>
      rw [decodeRunsLoop, if_pos hb] at h
      rcases tokenCycle_cases ho with ⟨c, d, _, _, he⟩ | ⟨n, d, vs, hn, _, hle, hd, hok, _, _, _, he⟩
      · rw [he] at h
        simp only at h
        rw [decodeRunsLoop_idle _ rfl] at h
        cases h
        rfl
      · rw [he] at h
        simp only at h
        have hbd : d.busy = true := by rw [hd]; exact hb
        by_cases hfull : s.params.npix ≤ s.dec.pix + n
        · rw [settle_done hbd hfull, decodeRunsLoop_idle _ rfl] at h
          cases h
          rfl
        · have hlt : s.dec.pix + n < s.params.npix := by omega
          rw [settle_within hlt] at h
          exact ih (s := { s with
            dec := { d with cur := s.dec.cur.writeList s.dec.pix vs, pix := s.dec.pix + n } })
            hok (fun _ => hlt) (by simp only; omega) h

/-- The loop over runs that cover the rest of the frame ends it (R196, R200). -/
theorem decodeRunsLoop_covers (runs : List Run) {s : State} {rest : List Bool} {fuel : Nat}
    (hb : s.dec.busy = true) (ho : readerOk s.dec) (hne : runs ≠ [])
    (hr : ∀ run ∈ runs, runOk s.dec.bpp.toNat run = true)
    (hp : s.dec.pix + runsPixels runs = s.params.npix)
    (hu : unreadBits s.dec = runsBits s.dec.bpp.toNat runs ++ rest) (hf : runs.length ≤ fuel) :
    ∃ d, afterRuns s.dec runs d ∧ readerOk d ∧
      8 * d.pos.toNat + s.dec.rCnt.toNat =
        8 * s.dec.pos.toNat + d.rCnt.toNat + (runsBits s.dec.bpp.toNat runs).length ∧
      decodeRunsLoop fuel s = .next (finishFrame { s with dec := d }) := by
  induction runs generalizing s fuel with
  | nil => exact absurd rfl hne
  | cons run runs ih =>
    simp only [runsPixels_cons] at hp
    rw [runsBits_cons, List.append_assoc] at hu
    obtain ⟨fuel, rfl⟩ : ∃ k, fuel = k + 1 := ⟨fuel - 1, by simp at hf; omega⟩
    obtain ⟨d1, h1, ho1, hu1, hc1, ht⟩ :=
      tokenCycle_run ho (hr run (by simp)) (by omega) hu
    have hpix : d1.pix = s.dec.pix + runPixels run := by rw [h1]
    have hbpp : d1.bpp = s.dec.bpp := by rw [h1]
    have hbusy : d1.busy = true := by rw [h1]; exact hb
    rw [decodeRunsLoop, if_pos hb, ht]
    simp only
    cases runs with
    | nil =>
      simp only [runsPixels_nil] at hp
      refine ⟨d1, h1.andRuns rfl, ho1, by simpa using hc1, ?_⟩
      rw [settle_done hbusy (by simp only [hpix]; omega)]
      exact decodeRunsLoop_idle _ rfl
    | cons run' runs =>
      have h1' : 1 ≤ runPixels run' := by
        have := hr run' (by simp)
        cases run' with
        | same n => simp only [runOk, runLengthOk_iff] at this; exact this.1
        | diff literals =>
          simp only [runOk, Bool.and_eq_true, runLengthOk_iff] at this; exact this.1.1
      simp only [runsPixels_cons] at hp
      rw [settle_within (by simp only [hpix]; omega)]
      obtain ⟨d2, h2, ho2, hc2, hl⟩ := ih (s := { s with dec := d1 }) (fuel := fuel) hbusy ho1
        (by simp) (fun r h => by rw [hbpp]; exact hr r (by simp [h]))
        (by simp only [hpix, runsPixels_cons]; omega) (by rw [hbpp]; exact hu1)
        (by simpa using hf)
      simp only [hbpp] at h2 hc2 hl
      refine ⟨d2, h1.andRuns h2, ho2, ?_, hl⟩
      simp only [runsBits_cons, List.length_append] at hc2 ⊢; omega

/-- Every run covers a pixel, so a list of runs is no longer than the pixels it covers. -/
theorem length_le_runsPixels {bpp : Nat} {runs : List Run}
    (hr : ∀ run ∈ runs, runOk bpp run = true) : runs.length ≤ runsPixels runs := by
  induction runs with
  | nil => simp
  | cons run runs ih =>
    have h := ih fun r h => hr r (by simp [h])
    have h1 := hr run (by simp)
    rw [List.length_cons, runsPixels_cons]
    cases run with
    | same n => simp only [runOk, runLengthOk_iff] at h1; simp only [runPixels]; omega
    | diff literals =>
      simp only [runOk, Bool.and_eq_true, runLengthOk_iff] at h1; simp only [runPixels]; omega

/-! ## The encoder's runs -/

theorem chooseRunsFuel_ok (bpp fuel : Nat) (f r : List Pixel) (hf : ∀ v ∈ f, v.toNat < 2 ^ bpp) :
    ∀ run ∈ chooseRunsFuel fuel f r, runOk bpp run = true := by
  induction fuel generalizing f r with
  | zero => simp [chooseRunsFuel]
  | succ fuel ih =>
    cases f with
    | nil => simp [chooseRunsFuel]
    | cons a f =>
      intro run hrun
      have hb := selectRun_bounds (f := a :: f) r (by simp)
      simp only [chooseRunsFuel, List.mem_cons] at hrun
      rcases hrun with hrun | hrun
      · split at hrun
        · rw [hrun]; simp only [runOk, runLengthOk_iff]; omega
        · rw [hrun]
          simp only [runOk, Bool.and_eq_true, runLengthOk_iff, List.all_eq_true, decide_eq_true_eq,
            List.length_take]
          exact ⟨by omega, fun v hv => hf v (List.mem_of_mem_take hv)⟩
      · exact ih _ _ (fun v hv => hf v (List.mem_of_mem_drop hv)) run hrun

theorem chooseRuns_ok (bpp : Nat) (f r : List Pixel) (hf : ∀ v ∈ f, v.toNat < 2 ^ bpp) :
    ∀ run ∈ chooseRuns f r, runOk bpp run = true := chooseRunsFuel_ok bpp f.length f r hf

theorem chooseRunsFuel_pixels (fuel : Nat) (f r : List Pixel) (hf : f.length ≤ fuel) :
    runsPixels (chooseRunsFuel fuel f r) = f.length := by
  induction fuel generalizing f r with
  | zero => simp [chooseRunsFuel]; omega
  | succ fuel ih =>
    cases f with
    | nil => simp [chooseRunsFuel]
    | cons a f =>
      have hb := selectRun_bounds (f := a :: f) r (by simp)
      simp only [chooseRunsFuel, runsPixels_cons]
      rw [ih _ _ (by simp only [List.length_drop, List.length_cons] at hf ⊢; omega)]
      split <;> simp only [runPixels, List.length_take, List.length_drop] <;> omega

end Sys2Proof.Machine
end

