-- ==== Sys2Proof/Laws/Commands.lean ====
section
/-!
SUPPORT. Everything each command can do, once, for the states a run reaches between commands: which check
stops it, or what it stores.
-/

namespace Sys2Proof.Machine

/-! ## The checks -/

theorem ErrorPhase.enc {s : State} (c : Host.Outcome State Fault Refusal)
    (h : s.enc.phase = .error) : unlessEncError s c = .next s := if_pos h

theorem ErrorPhase.enc_other {s : State} (c : Host.Outcome State Fault Refusal)
    (h : s.enc.phase ≠ .error) : unlessEncError s c = c := if_neg h

theorem ErrorPhase.dec {s : State} (c : Host.Outcome State Fault Refusal)
    (h : s.dec.phase = .error) : unlessDecError s c = .next s := if_pos h

theorem ErrorPhase.dec_other {s : State} (c : Host.Outcome State Fault Refusal)
    (h : s.dec.phase ≠ .error) : unlessDecError s c = c := if_neg h

/-- The checks of ENC_HEADER on its operands, as inequalities (R152). -/
theorem headerValid_iff (nf iv bpp : Byte) (plen : Nat) :
    headerValid nf.toNat iv.toNat bpp.toNat plen = true ↔
      0 < nf.toNat ∧ 0 < iv.toNat ∧ 0 < bpp.toNat ∧ bpp.toNat < 8 ∧
        plen = paletteBytes bpp.toNat := by
  simp only [headerValid, headerInRange, Bool.and_eq_true, decide_eq_true_eq]
  have := nf.isLt
  have := iv.isLt
  omega

/-- The checks of DEC_INIT on the header bytes, as inequalities (R192). -/
theorem headerInRange_iff (nf iv bpp : Byte) :
    headerInRange nf.toNat iv.toNat bpp.toNat = true ↔
      0 < nf.toNat ∧ 0 < iv.toNat ∧ 0 < bpp.toNat ∧ bpp.toNat < 8 := by
  simp only [headerInRange, Bool.and_eq_true, decide_eq_true_eq]
  have := nf.isLt
  have := iv.isLt
  omega

/-- The checks of ENC_FRAME on its input (R158). -/
theorem frameValid_iff (npix : Nat) (len : BitVec 24) (e : Enc) :
    frameValid npix len e = true ↔
      len.toNat = npix ∧ ∀ k < npix, (e.fin.read k).toNat < 2 ^ e.bpp.toNat := by
  simp [frameValid, Mem.readList]

/-- BPP of a checked operand is the operand's value. -/
theorem bppField_toNat {bpp : Byte} (h : bpp.toNat < 8) : (bppField bpp).toNat = bpp.toNat := by
  unfold bppField
  rw [BitVec.extractLsb'_toNat, Nat.shiftRight_zero]
  omega

@[simp] theorem frameIn_length (npix : Nat) (e : Enc) : (frameIn npix e).length = npix := by
  simp [frameIn]

@[simp] theorem referenceFrame_length (npix : Nat) (e : Enc) :
    (referenceFrame npix e).length = npix := by simp [referenceFrame]

/-- The pixels of a checked frame are values of the pixel width (R97, R158). -/
theorem frameIn_legal {npix : Nat} {e : Enc}
    (h : ∀ k < npix, (e.fin.read k).toNat < 2 ^ e.bpp.toNat) :
    ∀ v ∈ frameIn npix e, v.toNat < 2 ^ e.bpp.toNat := by
  intro v hv
  simp only [frameIn, Mem.readList, List.map_map, List.mem_map, List.mem_range,
    Function.comp] at hv
  obtain ⟨k, hk, rfl⟩ := hv
  rw [BitVec.toNat_setWidth]
  exact Nat.lt_of_le_of_lt (Nat.mod_le _ _) (by simpa using h k hk)

/-! ## ENC -/

/-- Everything ENC_HEADER can do (R152 to R154). -/
theorem execEncHeader_cases {s : State} (nf iv bpp : Byte) (ho : writerOk s.params.obufCap s.enc)
    (h0 : s.enc.phase ≠ .error → s.enc.wCnt = 0) :
    (s.enc.phase = .error ∧ execEncHeader nf iv bpp s = .next s) ∨
    (∃ c, (c = .illegalCommand ∨ c = .config) ∧ s.enc.phase ≠ .error ∧
      execEncHeader nf iv bpp s = .next (raise .enc c s)) ∨
    (s.enc.phase = .idle ∧
      execEncHeader nf iv bpp s = .next (raise .enc .outputOverflow (loseEncOutput s))) ∨
    (s.enc.phase = .idle ∧ 0 < nf.toNat ∧ 0 < iv.toNat ∧ 0 < bpp.toNat ∧ bpp.toNat < 8 ∧
      s.enc.outLen.toNat + (3 + paletteBytes bpp.toNat) ≤ s.params.obufCap ∧
      execEncHeader nf iv bpp s = .next { s with
        enc := { s.enc.withOutput (byteBits (headerBytes nf iv bpp
            (s.enc.pal.readList 0 (paletteBytes bpp.toNat)))) with
          nframes := nf, interval := iv, bpp := bppField bpp, phase := .header } }) := by
  by_cases he : s.enc.phase = .error
  · exact .inl ⟨he, ErrorPhase.enc _ he⟩
  unfold execEncHeader
  rw [ErrorPhase.enc_other _ he]
  by_cases hi : s.enc.phase = .idle
  · rw [if_neg (fun h => h hi)]
    split
    next hv =>
      have hv := (headerValid_iff nf iv bpp s.enc.palLen.toNat).1 hv
      rcases writeHeader_cases (nf := nf) (iv := iv) (bpp := bpp) ho (h0 he) with ⟨_, hw⟩ | ⟨hc, hw⟩
      · exact .inr (.inr (.inl ⟨hi, by rw [hw]⟩))
      · exact .inr (.inr (.inr ⟨hi, hv.1, hv.2.1, hv.2.2.1, hv.2.2.2.1, hc, by rw [hw]⟩))
    · exact .inr (.inl ⟨.config, .inr rfl, he, rfl⟩)
  · rw [if_pos hi]
    exact .inr (.inl ⟨.illegalCommand, .inl rfl, he, rfl⟩)

/-- The bits ENC_FRAME stores (R155, R159, R161). -/
def frameBits (npix : Nat) (e : Enc) : List Bool :=
  if e.frames.toNat = 0 then pixelBits e.bpp.toNat (frameIn npix e)
  else runsBits e.bpp.toNat (chooseRuns (frameIn npix e) (referenceFrame npix e))

/-- Everything the body of ENC_FRAME can do on a checked frame (R155). -/
theorem encodeFrame_cases {p : Params} {e : Enc} (ho : writerOk p.obufCap e) (h0 : e.wCnt = 0)
    (hf : ∀ k < p.npix, (e.fin.read k).toNat < 2 ^ e.bpp.toNat) :
    (p.obufCap < e.outLen.toNat + (wireBytes (frameBits p.npix e)).length ∧
      encodeFrame p e = .error .outputOverflow) ∨
    (e.outLen.toNat + (wireBytes (frameBits p.npix e)).length ≤ p.obufCap ∧
      encodeFrame p e = .ok (e.withOutput (frameBits p.npix e))) := by
  have hl := frameIn_legal hf
  unfold encodeFrame frameBits
  rw [wireBytes_length]
  by_cases hz : e.frames.toNat = 0
  · simp only [if_pos hz]
    rw [pixelBits_length]
    exact encodeLiteral_cases (by omega) hl ho h0
  · simp only [if_neg hz]
    exact encodeRuns_cases (by omega) (chooseRuns_literalsFit _ _ _ hl) ho h0

/-- Everything ENC_FRAME can do (R155 to R162). -/
theorem execEncFrame_cases {s : State} (len : BitVec 24) (ho : writerOk s.params.obufCap s.enc)
    (h0 : s.enc.phase ≠ .error → s.enc.wCnt = 0) :
    (s.enc.phase = .error ∧ execEncFrame len s = .next s) ∨
    (∃ c, (c = .illegalCommand ∨ c = .encodeInvariant) ∧ s.enc.phase ≠ .error ∧
      execEncFrame len s = .next (raise .enc c s)) ∨
    ((s.enc.phase = .header ∨ s.enc.phase = .stream) ∧
      execEncFrame len s = .next (raise .enc .outputOverflow (loseEncOutput s))) ∨
    ((s.enc.phase = .header ∨ s.enc.phase = .stream) ∧ len.toNat = s.params.npix ∧
      (∀ k < s.params.npix, (s.enc.fin.read k).toNat < 2 ^ s.enc.bpp.toNat) ∧
      s.enc.outLen.toNat + (wireBytes (frameBits s.params.npix s.enc)).length ≤ s.params.obufCap ∧
      execEncFrame len s = .next { s with
        enc := closeEncFrame (frameIn s.params.npix s.enc)
          (s.enc.withOutput (frameBits s.params.npix s.enc)) }) := by
  by_cases he : s.enc.phase = .error
  · exact .inl ⟨he, ErrorPhase.enc _ he⟩
  unfold execEncFrame
  rw [ErrorPhase.enc_other _ he]
  by_cases hi : s.enc.phase = .header ∨ s.enc.phase = .stream
  · rw [if_pos hi]
    by_cases hv : frameValid s.params.npix len s.enc = true
    · rw [if_pos hv]
      have hv := (frameValid_iff s.params.npix len s.enc).1 hv
      rcases encodeFrame_cases ho (h0 he) hv.2 with ⟨_, hw⟩ | ⟨hc, hw⟩
      · exact .inr (.inr (.inl ⟨hi, by rw [hw]⟩))
      · exact .inr (.inr (.inr ⟨hi, hv.1, hv.2, hc, by rw [hw]⟩))
    · rw [if_neg hv]
      exact .inr (.inl ⟨.encodeInvariant, .inr rfl, he, rfl⟩)
  · rw [if_neg hi]
    exact .inr (.inl ⟨.illegalCommand, .inl rfl, he, rfl⟩)

/-! ## DEC -/

/-- Everything DEC_INIT can do (R191, R192). -/
theorem execDecInit_cases {s : State} (len : BitVec 24) :
    (s.dec.phase = .error ∧ execDecInit len s = .next s) ∨
    (s.dec.phase ≠ .error ∧ execDecInit len s = .next (raise .dec .illegalCommand s)) ∨
    (∃ c, (c = .decodeTruncated ∨ c = .config) ∧ s.dec.phase = .idle ∧
      len.toNat ≤ s.params.ibufCap ∧
      execDecInit len s = .next (raise .dec c (loseDecHeader len s))) ∨
    (s.dec.phase = .idle ∧ len.toNat ≤ s.params.ibufCap ∧ 0 < (s.dec.ibuf.read 0).toNat ∧
      0 < (s.dec.ibuf.read 1).toNat ∧ 0 < (s.dec.ibuf.read 2).toNat ∧
      (s.dec.ibuf.read 2).toNat < 8 ∧ 3 + paletteBytes (s.dec.ibuf.read 2).toNat ≤ len.toNat ∧
      execDecInit len s = .next { s with
        dec := { startInput len s.dec with
          pos := BitVec.ofNat 24 (3 + paletteBytes (s.dec.ibuf.read 2).toNat)
          pal := s.dec.pal.writeList 0
            (s.dec.ibuf.readList 3 (paletteBytes (s.dec.ibuf.read 2).toNat))
          nframes := s.dec.ibuf.read 0
          interval := s.dec.ibuf.read 1
          bpp := bppField (s.dec.ibuf.read 2)
          frames := 0, phase := .active } }) := by
  by_cases he : s.dec.phase = .error
  · exact .inl ⟨he, ErrorPhase.dec _ he⟩
  unfold execDecInit
  rw [ErrorPhase.dec_other _ he]
  by_cases hi : s.dec.phase = .idle
  · rw [if_neg (fun h => h hi)]
    by_cases hc : s.params.ibufCap < len.toNat
    · rw [if_pos hc]
      exact .inr (.inl ⟨he, rfl⟩)
    · rw [if_neg hc, readHeader_start]
      have hl : len.toNat ≤ s.params.ibufCap := by omega
      by_cases h3 : len.toNat < 3
      · rw [if_pos h3]
        exact .inr (.inr (.inl ⟨_, .inl rfl, hi, hl, rfl⟩))
      · rw [if_neg h3]
        by_cases hv : headerInRange (s.dec.ibuf.read 0).toNat (s.dec.ibuf.read 1).toNat
            (s.dec.ibuf.read 2).toNat = true
        · rw [if_pos hv]
          have hv := (headerInRange_iff _ _ _).1 hv
          by_cases hp : len.toNat < 3 + paletteBytes (s.dec.ibuf.read 2).toNat
          · rw [if_pos hp]
            exact .inr (.inr (.inl ⟨_, .inl rfl, hi, hl, rfl⟩))
          · rw [if_neg hp]
            exact .inr (.inr (.inr ⟨hi, hl, hv.1, hv.2.1, hv.2.2.1, hv.2.2.2, by omega, rfl⟩))
        · rw [if_neg hv]
          exact .inr (.inr (.inl ⟨_, .inr rfl, hi, hl, rfl⟩))
  · rw [if_pos hi]
    exact .inr (.inl ⟨he, rfl⟩)

/-- Everything the checks and the first frame of DEC_FRAME can do; a later frame is the loop of token
cycles (R194 to R196). -/
theorem execDecFrame_cases {s : State} (ho : readerOk s.dec) :
    (s.dec.phase = .error ∧ execDecFrame s = .next s) ∨
    (s.dec.phase ≠ .error ∧ execDecFrame s = .next (raise .dec .illegalCommand s)) ∨
    (s.dec.phase = .active ∧ s.dec.frames = 0 ∧
      execDecFrame s = .next (failDecFrame .decodeTruncated s)) ∨
    (s.dec.phase = .active ∧ s.dec.frames = 0 ∧ ∃ d,
      Reads s.dec d (s.params.npix * s.dec.bpp.toNat) ∧
      execDecFrame s = .next (finishFrame { s with
        dec := { d with
          cur := s.dec.cur.writeList 0
            (pixelFields s.dec.bpp.toNat s.params.npix (unreadBits s.dec)) } })) ∨
    (s.dec.phase = .active ∧ s.dec.frames ≠ 0 ∧
      execDecFrame s = decodeRunsLoop s.params.npix (openRunFrame s)) := by
  by_cases he : s.dec.phase = .error
  · exact .inl ⟨he, ErrorPhase.dec _ he⟩
  unfold execDecFrame
  rw [ErrorPhase.dec_other _ he]
  by_cases hi : s.dec.phase = .active
  · rw [if_neg (fun h => h hi)]
    by_cases hz : s.dec.frames.toNat = 0
    · rw [if_pos hz]
      have hz' : s.dec.frames = 0 := BitVec.eq_of_toNat_eq hz
      rcases readPixels_cases (p := 0) (n := s.params.npix) ho with ⟨_, hr⟩ | ⟨d, hd, hr⟩
      · exact .inr (.inr (.inl ⟨hi, hz', by rw [hr]⟩))
      · exact .inr (.inr (.inr (.inl ⟨hi, hz', d, hd, by rw [hr]⟩)))
    · rw [if_neg hz]
      exact .inr (.inr (.inr (.inr ⟨hi, fun h => hz (by rw [h]; rfl), rfl⟩)))
  · rw [if_pos hi]
    exact .inr (.inl ⟨he, rfl⟩)

/-- Everything DEC_CHECK_END can do (R201). -/
theorem execDecCheckEnd_cases (s : State) :
    (s.dec.phase = .error ∧ execDecCheckEnd s = .next s) ∨
    (∃ c, (c = .illegalCommand ∨ c = .decodeTrailing) ∧ s.dec.phase ≠ .error ∧
      execDecCheckEnd s = .next (raise .dec c s)) ∨
    (s.dec.phase = .allRead ∧ s.dec.pos = s.dec.inLen ∧
      execDecCheckEnd s = .next { s with dec := { s.dec with phase := .done } }) := by
  by_cases he : s.dec.phase = .error
  · exact .inl ⟨he, ErrorPhase.dec _ he⟩
  unfold execDecCheckEnd
  rw [ErrorPhase.dec_other _ he]
  by_cases hi : s.dec.phase = .allRead
  · rw [if_neg (fun h => h hi)]
    by_cases hp : s.dec.pos = s.dec.inLen
    · rw [if_pos (by simpa [eof] using hp)]
      exact .inr (.inr ⟨hi, hp, rfl⟩)
    · rw [if_neg (by simpa [eof] using hp)]
      exact .inr (.inl ⟨_, .inr rfl, he, rfl⟩)
  · rw [if_pos hi]
    exact .inr (.inl ⟨_, .inl rfl, he, rfl⟩)

/-! ## The step -/

/-- Between commands, with an event pending, the step takes it (R17). -/
theorem step_event {s : State} {ev : HostEvent} {rest : List HostEvent} (hb : s.dec.busy = false)
    (hh : s.host = ev :: rest) : step s = takeEvent ev { s with host := rest } := by
  unfold step
  rw [if_neg (by rw [hb]; decide), hh]

/-- Between commands, with no event pending, the step waits (R263). -/
theorem step_wait {s : State} (hb : s.dec.busy = false) (hh : s.host = []) : step s = .next s := by
  unfold step
  rw [if_neg (by rw [hb]; decide), hh]

/-- Inside a run frame the step is one token cycle (R196). -/
theorem step_token {s : State} (hb : s.dec.busy = true) : step s = tokenCycle runToken s := by
  have h : (fun h t => exec (decodeRunHeader h) t) = runToken := by
    funext h t
    exact (runToken_eq_exec h t).symm
  unfold step
  rw [if_pos hb, h]

/-- An offset within the window is the offset of its own platform address (R23). -/
theorem windowOffset_base {p : Params} {off : Nat} (h : off < 512) :
    windowOffset p (p.blockBase + off) = some off := by
  unfold windowOffset windowBytes
  rw [if_pos (by omega), Nat.add_sub_cancel_left]

/-- A port read within the memory's size returns the entry (R60). -/
theorem readPort_within {s : State} {m : HostMem} {i : Nat} (h : i < hostMemSize s.params m) :
    readPort s m i = hostMemEntry s m i := if_pos h

/-- A port read at or beyond the memory's size returns 0 (R67). -/
theorem readPort_beyond {s : State} {m : HostMem} {i : Nat} (h : hostMemSize s.params m ≤ i) :
    readPort s m i = 0 := if_neg (by omega)

/-- Everything a host write through a memory port can do (R60, R67). -/
theorem writePort_cases (m : HostMem) (i : Nat) (b : Byte) (s : State) :
    writePort m i b s = s ∨
    (i < palCap ∧ writePort m i b s = { s with enc := { s.enc with pal := s.enc.pal.write i b } }) ∨
    (i < s.params.npix ∧
      writePort m i b s = { s with enc := { s.enc with fin := s.enc.fin.write i b } }) ∨
    (i < s.params.ibufCap ∧
      writePort m i b s = { s with dec := { s.dec with ibuf := s.dec.ibuf.write i b } }) := by
  unfold writePort
  by_cases h : i < hostMemSize s.params m
  · rw [if_pos h]
    cases m with
    | ePal => exact .inr (.inl ⟨h, rfl⟩)
    | eFin => exact .inr (.inr (.inl ⟨h, rfl⟩))
    | dIbuf => exact .inr (.inr (.inr ⟨h, rfl⟩))
    | eObuf => exact .inl rfl
    | dPal => exact .inl rfl
    | dCur => exact .inl rfl
  · rw [if_neg h]
    exact .inl rfl

end Sys2Proof.Machine
end

