-- ==== Sys2Proof/Laws/PerInstr.lean ====
section
/-!
SUPPORT. A statement made of every instruction, one lemma per constructor: the word of each
well-formed instruction carries the fixed bits its row of spec/opcode_table.json gives.
-/

namespace Sys2Proof.Laws.TableMatch

/-- The `mask` column of the instruction's row: OP is 4 bits (R100) and MODE one (R93). -/
def mask : Instr → Nat
  | .encReset => 0x0000000F
  | .encHeader _ _ _ => 0x0000000F
  | .encFrame _ => 0x0000000F
  | .decReset => 0x0000000F
  | .decInit _ => 0x0000000F
  | .decFrame => 0x0000000F
  | .decCheckEnd => 0x0000000F
  | .same _ => 0x01
  | .diff _ => 0x01

/-- The `match` column of the instruction's row (R93, R101, R102). -/
def pattern : Instr → Nat
  | .encReset => 0x00000001
  | .encHeader _ _ _ => 0x00000002
  | .encFrame _ => 0x00000003
  | .decReset => 0x00000001
  | .decInit _ => 0x00000002
  | .decFrame => 0x00000003
  | .decCheckEnd => 0x00000004
  | .same _ => 0x00
  | .diff _ => 0x01

/-- The bits of a code, as a number. -/
def codeBits : Code → Nat
  | .eCmd w => w.toNat
  | .dCmd w => w.toNat
  | .wire h => h.toNat

/-- The instruction's own word matches its row. -/
def Statement (i : Instr) : Prop :=
  i.wf = true → codeBits (encode i) &&& mask i = pattern i

/-- The low four bits of a word whose low byte is `op` and which has nothing else below bit 8. -/
theorem low_of_append {w : Nat} (hi : BitVec w) (op : BitVec 8) :
    (hi ++ op).toNat % 16 = op.toNat % 16 := by
  rw [BitVec.toNat_append, ← Nat.shiftLeft_add_eq_or_of_lt op.isLt, Nat.shiftLeft_eq]
  omega

theorem and_op (n : Nat) : n &&& 0x0000000F = n % 16 := Nat.and_two_pow_sub_one_eq_mod n 4

theorem and_mode (n : Nat) : n &&& 0x01 = n % 2 := Nat.and_two_pow_sub_one_eq_mod n 1

theorem encReset : Statement .encReset := by unfold Statement; decide

theorem encHeader (nframes interval bpp : Byte) : Statement (.encHeader nframes interval bpp) := by
  intro _
  simp only [encode, codeBits, mask, pattern, and_op]
  exact low_of_append (bpp ++ interval ++ nframes) 0x02#8

theorem encFrame (len : BitVec 24) : Statement (.encFrame len) := by
  intro _
  simp only [encode, codeBits, mask, pattern, and_op]
  exact low_of_append len 0x03#8

theorem decReset : Statement .decReset := by unfold Statement; decide

theorem decInit (len : BitVec 24) : Statement (.decInit len) := by
  intro _
  simp only [encode, codeBits, mask, pattern, and_op]
  exact low_of_append len 0x02#8

theorem decFrame : Statement .decFrame := by unfold Statement; decide

theorem decCheckEnd : Statement .decCheckEnd := by unfold Statement; decide

theorem header_mode {mode lf : Nat} (hm : mode < 2) : (runHeader mode lf).toNat % 2 = mode := by
  unfold runHeader
  rw [BitVec.toNat_ofNat, Nat.lor_comm, ← Nat.shiftLeft_add_eq_or_of_lt (by simpa using hm) lf,
    Nat.shiftLeft_eq]
  omega

theorem same (n : Nat) : Statement (.same n) := by
  intro _
  simp only [encode, codeBits, mask, pattern, and_mode]
  exact header_mode (by omega)

theorem diff (n : Nat) : Statement (.diff n) := by
  intro _
  simp only [encode, codeBits, mask, pattern, and_mode]
  exact header_mode (by omega)

end Sys2Proof.Laws.TableMatch
end

