-- ==== Sys2Proof/Machine/Sequences.lean ====
section
/-!
DEFINITION. The host's sequences as lists of events: the pseudo-instructions of 30_encoding.md R107 and the
encode and decode sequences of 70_reset_and_hazards.md R265 and R266. They are programs of the host
(R207): the step takes their events one by one, and the machine does not depend on them.
-/

namespace Sys2Proof.Machine

/-- `RD reg` of a unit's status register (R106). -/
def readStatus (p : Params) : BlockUnit → HostEvent
  | .enc => .regRead (p.blockBase + 0x004)
  | .dec => .regRead (p.blockBase + 0x104)

/-- The write of a command register that issues a host command (R106); a token is no command and has
none. -/
def issue (p : Params) (i : Instr) : List HostEvent :=
  match encode i with
  | .eCmd w => [.regWrite (p.blockBase + offECmd) w]
  | .dCmd w => [.regWrite (p.blockBase + offDCmd) w]
  | .wire _ => []

/-- Writes of consecutive entries of a memory from index 0. -/
def loadMemory (m : HostMem) (bs : List Byte) : List HostEvent :=
  bs.zipIdx.map fun bi => .memWrite m bi.2 bi.1

/-- LOAD_PAL (R107). -/
def loadPalEvents (p : Params) (pal : List Byte) : List HostEvent :=
  loadMemory .ePal pal ++ [.regWrite (p.blockBase + offEPalLen) (BitVec.ofNat 32 pal.length)]

/-- LOAD_FRAME (R107). -/
def loadFrameEvents (frame : List Byte) : List HostEvent := loadMemory .eFin frame

/-- LOAD_IBUF (R107). -/
def loadIbufEvents (stream : List Byte) : List HostEvent := loadMemory .dIbuf stream

/-- ENCODE_FRAME (R107). -/
def encodeFrameEvents (p : Params) (frame : List Byte) : List HostEvent :=
  loadFrameEvents frame ++ issue p (.encFrame (BitVec.ofNat 24 p.npix))

/-- WAIT_IDLE (R107): commands are atomic, so one read of the status register is enough. -/
def waitIdleEvents (p : Params) (u : BlockUnit) : List HostEvent := [readStatus p u]

/-- Reads of the first `count` entries of a memory. -/
def readMemory (m : HostMem) (count : Nat) : List HostEvent :=
  (List.range count).map (HostEvent.memRead m)

/-- Step 5 of the encode sequence (R265): E_OUT_LEN is read, then the stream
`E_OBUF[0 .. E_OUT_LEN-1]`; `outLen` is the value of E_OUT_LEN the host reads. -/
def readStreamEvents (p : Params) (outLen : Nat) : List HostEvent :=
  .regRead (p.blockBase + 0x00C) :: readMemory .eObuf outLen

/-- Step 3's reads of the decode sequence (R266): D_HDR, then the palette
`D_PAL[0 .. 3·2^BPP - 1]`; `bpp` is the BPP the host reads in D_HDR. -/
def readHeaderEvents (p : Params) (bpp : Nat) : List HostEvent :=
  .regRead (p.blockBase + 0x110) :: readMemory .dPal (paletteBytes bpp)

/-- The encode sequence (R265), its five steps in order, the status read after each command. How many
bytes step 5 reads is the host's own choice, made from what it reads in E_OUT_LEN: `outLen`. -/
def encodeSequence (p : Params) (nf iv bpp : Byte) (pal : List Byte) (frames : List (List Byte))
    (outLen : Nat) : List HostEvent :=
  issue p .encReset ++ loadPalEvents p pal ++ issue p (.encHeader nf iv bpp) ++ waitIdleEvents p .enc ++
    (frames.flatMap fun g => encodeFrameEvents p g ++ waitIdleEvents p .enc) ++
    readStreamEvents p outLen

/-- The decode sequence (R266), its five steps in order, the status read after each command and D_CUR
after each frame. How many frames it decodes and how many palette bytes it reads the host takes
from D_HDR: `nframes` and `bpp`. -/
def decodeSequence (p : Params) (stream : List Byte) (nframes bpp : Nat) : List HostEvent :=
  issue p .decReset ++ loadIbufEvents stream ++ issue p (.decInit (BitVec.ofNat 24 stream.length)) ++
    waitIdleEvents p .dec ++ readHeaderEvents p bpp ++
    ((List.range nframes).flatMap fun _ =>
      issue p .decFrame ++ waitIdleEvents p .dec ++ readMemory .dCur p.npix) ++
    issue p .decCheckEnd ++ waitIdleEvents p .dec

end Sys2Proof.Machine
end

