-- ==== Sys2Proof/Tests/Slice0.lean ====
section
/-!
SUPPORT. The model's own tests: what WellFormed refuses, the words of every constructor, vectors of
spec/95_test_vectors.md, and for each obligation with hypotheses a concrete state and operands that
meet all of them together.
-/

namespace Sys2Proof.Tests

open Sys2Proof Sys2Proof.Machine

/-! ## Helpers -/

/-- The state an outcome leaves. -/
def nextOf (o : Host.Outcome State Fault Refusal) : State :=
  match o with
  | .next t => t
  | .fault _ => State.reset
  | .refused _ => State.reset

/-- Bytes of a list of numbers. -/
def bytes (l : List Nat) : List Byte := l.map (BitVec.ofNat 8)

/-- Pixels of a list of numbers. -/
def px (l : List Nat) : List Pixel := l.map (BitVec.ofNat 7)

/-- A frame of 4 pixels and a window at 0x4000. -/
def tiny (obufCap : Nat) : Params := { npix := 4, obufCap := obufCap, ibufCap := 64, blockBase := 0x4000 }

/-- The stream of program P1. -/
def streamS1 : List Byte := bytes [0x03, 0x0A, 0x01, 0, 0, 0, 0xFF, 0xFF, 0xFF, 0x0A, 0x08, 0x09, 0x0B]

/-- ENC after LOAD_PAL of P1, with `cap` entries of E_OBUF. -/
def encIdle (cap : Nat) : State :=
  let s := State.resetOf (tiny cap)
  { s with enc := { s.enc with palLen := 6, pal := s.enc.pal.writeList 0 (bytes [0, 0, 0, 255, 255, 255]) } }

/-- ENC after P1's header, with a frame in E_FIN. -/
def encHeaderDone (cap : Nat) (frame : List Nat) : State :=
  let s := encIdle cap
  { s with
    enc := { s.enc with
      phase := .header, nframes := 3, interval := 10, bpp := 1, outLen := 9
      obuf := s.enc.obuf.writeList 0 (streamS1.take 9), fin := s.enc.fin.writeList 0 (bytes frame) } }

/-- ENC after P1's first frame, with a frame in E_FIN. -/
def encStreaming (cap : Nat) (frame : List Nat) : State :=
  let s := encHeaderDone cap frame
  { s with
    enc := { s.enc with
      phase := .stream, frames := 1, outLen := 10
      obuf := s.enc.obuf.writeList 9 (bytes [0x0A]), ref := s.enc.ref.writeList 0 (px [0, 1, 0, 1]) } }

/-- DEC after reset, with a stream in D_IBUF. -/
def decIdle (stream : List Byte) : State :=
  let s := State.resetOf (tiny 64)
  { s with dec := { s.dec with ibuf := s.dec.ibuf.writeList 0 stream } }

/-- DEC after DEC_INIT of P2 on a stream of `len` bytes. -/
def decOpened (stream : List Byte) (len : Nat) : State :=
  let s := decIdle stream
  { s with
    dec := { s.dec with
      phase := .active, nframes := 3, interval := 10, bpp := 1, inLen := BitVec.ofNat 24 len, pos := 9
      pal := s.dec.pal.writeList 0 (bytes [0, 0, 0, 255, 255, 255]) } }

/-- DEC after P2's first frame, on the header of S1, the literal byte and the given bytes. -/
def decLater (tail : List Nat) : State :=
  let s := decOpened (streamS1.take 10 ++ bytes tail) (10 + tail.length)
  { s with dec := { s.dec with frames := 1, pos := 10, cur := s.dec.cur.writeList 0 (px [0, 1, 0, 1]) } }

/-- DEC inside its second frame, at pixel `p`. -/
def decInside (tail : List Nat) (p : Nat) : State :=
  let s := decLater tail
  { s with dec := { s.dec with busy := true, pix := p } }

/-- A state with one host event pending. -/
def withEvent (ev : HostEvent) (s : State) : State := { s with host := [ev] }

/-! ## WellFormed (R94) -/

theorem test_wf_same_zero_refused : (Instr.same 0).wf = false := by decide
theorem test_wf_same_too_long_refused : (Instr.same 129).wf = false := by decide
theorem test_wf_diff_zero_refused : (Instr.diff 0).wf = false := by decide
theorem test_wf_diff_too_long_refused : (Instr.diff 129).wf = false := by decide

/-! ## Decode: one word of every constructor, written out from R93, R101 and R102 -/

theorem test_decode_encReset : decode (.eCmd 0b11111111111111111111111111110001#32) = .ok .encReset := by
  decide
theorem test_decode_encHeader :
    decode (.eCmd 0b00000001000010100000001100000010#32) = .ok (.encHeader 3#8 10#8 1#8) := by decide
theorem test_decode_encFrame :
    decode (.eCmd 0b00000000000000000000010000000011#32) = .ok (.encFrame 4#24) := by decide
theorem test_decode_decReset : decode (.dCmd 0b00000000000000000000000000000001#32) = .ok .decReset := by
  decide
theorem test_decode_decInit :
    decode (.dCmd 0b00000000000000000000110100000010#32) = .ok (.decInit 13#24) := by decide
theorem test_decode_decFrame : decode (.dCmd 0b00000000000000000000000000000011#32) = .ok .decFrame := by
  decide
theorem test_decode_decCheckEnd :
    decode (.dCmd 0b00000000000000000000000000000100#32) = .ok .decCheckEnd := by decide
theorem test_decode_same : decode (.wire 0b00001000#8) = .ok (.same 4) := by decide
theorem test_decode_same_128 : decode (.wire 0b00000000#8) = .ok (.same 128) := by decide
theorem test_decode_diff : decode (.wire 0b00001001#8) = .ok (.diff 4) := by decide
theorem test_decode_reserved_enc :
    decode (.eCmd 0x00000004#32) = .error (.reservedEncOp 4#4) := by decide
theorem test_decode_reserved_dec :
    decode (.dCmd 0x00000005#32) = .error (.reservedDecOp 5#4) := by decide

/-! ## Vectors of spec/95_test_vectors.md -/

/-- W-6: a field that crosses a byte boundary. -/
theorem test_writer_w6 :
    (callsWriter 64 [.bits 5 3, .bits 0x7F 7, .bits 3 2] (Enc.afterReset 0)).toOption.map
      (fun e => (e.obuf.readList 0 1, e.wAcc, e.wCnt)) = some (bytes [0xFD], 0b1111#7, 4#3) := by
  decide

/-- R-2: three fields out of two bytes. -/
theorem test_reader_r2 :
    (callsReader [.bits 0 3, .bits 0 7, .bits 0 2]
      { (decIdle (bytes [0xFA, 0x6F, 0xFF])).dec with inLen := 3 }).toOption.map
      (fun r => (r.1, r.2.pos, r.2.rCnt, r.2.rAcc)) = some ([2, 127, 3], 2#24, 4#3, 6#7) := by
  decide

/-- P1, ENC_HEADER: the stream's first nine bytes and E_STATUS = 0x001. -/
theorem test_encHeader_p1 :
    let t := nextOf (exec (.encHeader 3 10 1) (encIdle 64))
    t.enc.obuf.readList 0 9 = streamS1.take 9 ∧ t.enc.outLen = 9 ∧ encStatus t.enc = 0x001#32 := by
  decide

/-- H-9: E_OBUF of 8 bytes overflows, E_STATUS = 0x077. -/
theorem test_encHeader_h9 :
    encStatus (nextOf (exec (.encHeader 1 1 1) (encIdle 8))).enc = 0x077#32 := by decide

/-- P1, frame 0: the literal byte 0x0A. -/
theorem test_encFrame_p1_literal :
    let t := nextOf (exec (.encFrame 4) (encHeaderDone 64 [0, 1, 0, 1]))
    t.enc.obuf.readList 9 1 = bytes [0x0A] ∧ t.enc.outLen = 10 ∧ t.enc.frames = 1 := by decide

/-- P1, frame 2: DIFF 4 with literals 1, 1, 0, 1. -/
theorem test_encFrame_p1_runs :
    let t := nextOf (exec (.encFrame 4) (encStreaming 64 [1, 1, 0, 1]))
    t.enc.obuf.readList 10 2 = bytes [0x09, 0x0B] ∧ t.enc.outLen = 12 := by decide

/-- E-RUN-7: a match of 3 is no SAME, and a DIFF of 1 ends the frame. -/
theorem test_chooseRuns_e_run_7 :
    chooseRuns (px [1, 0, 0, 0, 1, 0, 0, 0, 0, 2]) (px [0, 0, 0, 0, 0, 0, 0, 0, 0, 0]) =
      [.diff (px [1, 0, 0, 0, 1]), .same 4, .diff (px [2])] := by decide

/-- E-RUN-7: its runs as bytes. -/
theorem test_runsBits_e_run_7 :
    wireBytes (runsBits 2 [.diff (px [1, 0, 0, 0, 1]), .same 4, .diff (px [2])]) =
      bytes [0x0B, 0x01, 0x21, 0x0C, 0x08] := by decide

/-- DI-1: the header and the palette of S1. -/
theorem test_decInit_di1 :
    let t := nextOf (exec (.decInit 13) (decIdle streamS1))
    decStatus t.dec = 0x001#32 ∧ t.dec.pos = 9 ∧
      t.dec.pal.readList 0 6 = bytes [0, 0, 0, 255, 255, 255] := by decide

/-- DI-8: a pixel width of 8 is CONFIG. -/
theorem test_decInit_di8 :
    (nextOf (exec (.decInit 13) (decIdle (bytes [1, 1, 8])))).dec.err = .config := by decide

/-- DF-1: the first frame. -/
theorem test_decFrame_df1_literal :
    let t := nextOf (exec .decFrame (decOpened streamS1 13))
    t.dec.cur.readList 0 4 = px [0, 1, 0, 1] ∧ t.dec.pos = 10 ∧ decStatus t.dec = 0x001#32 := by
  decide

/-- DF-4: DIFF 5 overshoots before its literals are missed. -/
theorem test_decFrame_df4 :
    (nextOf (exec .decFrame (decLater [0x0B]))).dec.err = .decodeFraming := by decide

/-- DC-2: one extra byte. -/
theorem test_decCheckEnd_dc2 :
    let s := decLater [0x08, 0x09, 0x0B, 0x00]
    decStatus (nextOf (exec .decCheckEnd { s with
      dec := { s.dec with phase := .allRead, frames := 3, pos := 13 } })).dec = 0x057#32 := by
  decide

/-- RC-4: the upper bits of ENC_RESET are ignored. -/
theorem test_encReset_rc4 :
    let s := encIdle 64
    encStatus (nextOf (step (withEvent (.regWrite 0x4000 0xFFFFFFF1#32) { s with
      enc := { s.enc with phase := .error, err := .config } }))).enc = 0#32 := by decide

/-- RC-3: DEC_RESET out of the ERROR phase. -/
theorem test_decReset_rc3 :
    let s := decIdle []
    decStatus (nextOf (step (withEvent (.regWrite 0x4100 0x00000001#32) { s with
      dec := { s.dec with phase := .error, err := .illegalCommand } }))).dec = 0x200#32 := by
  decide

/-- X1, frame 1: SAME 4 keeps the frame. -/
theorem test_same_x1 :
    let t := nextOf (step (decInside [0x08] 0))
    t.dec.cur.readList 0 4 = px [0, 1, 0, 1] ∧ decStatus t.dec = 0x201#32 := by decide

/-- X1, frame 2: DIFF 4 overwrites the frame. -/
theorem test_diff_x1 :
    let t := nextOf (step (decInside [0x09, 0x0B] 0))
    t.dec.cur.readList 0 4 = px [1, 1, 0, 1] ∧ t.dec.pos = 12 ∧ t.dec.frames = 2 := by decide

/-- HA-7: E_PAL_LEN takes 16 bits. -/
theorem test_host_ha7 :
    let t := nextOf (step (withEvent (.regWrite 0x4008 0x00012345#32) (encIdle 64)))
    (nextOf (step (withEvent (.regRead 0x4008) t))).rdata = 0x2345#32 := by decide

/-- HA-3: a read at an unaligned offset gives 0. -/
theorem test_host_ha3 :
    (nextOf (step (withEvent (.regRead 0x4006) (encHeaderDone 64 [])))).rdata = 0#32 := by decide

/-- P1: LOAD_PAL ends with the palette length. -/
theorem test_loadPal_events :
    loadPalEvents (tiny 64) (bytes [1, 2, 3]) =
      [.memWrite .ePal 0 1, .memWrite .ePal 1 2, .memWrite .ePal 2 3, .regWrite 0x4008 3#32] := by decide

/-- P1: ENCODE_FRAME ends with the word 0x00000403. -/
theorem test_encodeFrame_events :
    (encodeFrameEvents (tiny 64) (bytes [0, 1, 0, 1])).getLast? = some (.regWrite 0x4000 0x00000403#32) := by
  decide

/-- R265, step 5: E_OUT_LEN, then the stream. -/
theorem test_readStream_events :
    readStreamEvents (tiny 64) 2 = [.regRead 0x400C, .memRead .eObuf 0, .memRead .eObuf 1] := by decide

/-- R266, step 3: D_HDR, then the palette of 3 · 2^1 bytes. -/
theorem test_readHeader_events :
    readHeaderEvents (tiny 64) 1 = [.regRead 0x4110, .memRead .dPal 0, .memRead .dPal 1,
      .memRead .dPal 2, .memRead .dPal 3, .memRead .dPal 4, .memRead .dPal 5] := by decide

/-- A port read of D_CUR is its 7-bit entry zero-extended (R50). -/
theorem test_readPort_dCur : readPort (decLater [0x08]) .dCur 3 = 0x01#8 := by decide

/-- The row of SAME, run as the first instruction after reset. -/
theorem test_fetchWord_same :
    (nextOf (step (State.reset.withFetchWord 8 0x08))).dec.pix = 4 := by decide

/-! ## Witnesses: the hypotheses of each obligation, met together -/

theorem witness_EncodedInstructionDecodesToItself :
    (Instr.same 1).wf = true ∧ (Instr.diff 128).wf = true := by decide

/-- Each OP at each port with its unused bits set, and the run headers at both ends of their range. -/
theorem witness_DecodedWordIsTheEncodingUpToUnusedBits :
    decode (.dCmd 0xFFFFFFF4#32) = .ok .decCheckEnd ∧
    (((0xFFFFFFF1#32).extractLsb' 0 4).toNat = 1 ∧ ((0x010A03F2#32).extractLsb' 0 4).toNat = 2 ∧
      ((0x000004F3#32).extractLsb' 0 4).toNat = 3 ∧ ((0xFFFFFFF4#32).extractLsb' 0 4).toNat = 4) ∧
    ((0x00#8).toNat % 2 = 0 ∧ (0xFE#8).toNat % 2 = 0 ∧ (0x01#8).toNat % 2 = 1 ∧
      (0xFF#8).toNat % 2 = 1) := by decide

theorem witness_LengthFieldIsABijection :
    ((1 ≤ 1 ∧ 1 ≤ 128) ∧ (1 ≤ 128 ∧ 128 ≤ 128)) ∧ (0 < 128 ∧ 127 < 128) := by decide

theorem witness_StepRunsTheCommandTheHostWrites_enc :
    let s := withEvent (.regWrite ((tiny 64).blockBase + 0x000) 0x00000403#32) (encIdle 64)
    s.dec.busy = false ∧ s.host = .regWrite (s.params.blockBase + 0x000) 0x00000403#32 :: [] ∧
      decode (.eCmd 0x00000403#32) = .ok (.encFrame 4) := by decide

theorem witness_StepRunsTheCommandTheHostWrites_dec :
    let s := withEvent (.regWrite ((tiny 64).blockBase + 0x100) 0x00000003#32) (decOpened streamS1 13)
    s.dec.busy = false ∧ s.host = .regWrite (s.params.blockBase + 0x100) 0x00000003#32 :: [] ∧
      decode (.dCmd 0x00000003#32) = .ok .decFrame := by decide

theorem witness_StepRunsTheTokenAtTheCursor :
    let s := decInside [0x08] 0
    s.dec.busy = true ∧ readerOk s.dec ∧ 8 ≤ (unreadBits s.dec).length ∧
      decode (.wire (BitVec.ofNat 8 (bitsValue ((unreadBits s.dec).take 8)))) = .ok (.same 4) := by
  unfold readerOk; decide

theorem witness_TokenFetchPastTheInputIsTruncated :
    let s := decInside [] 0
    s.dec.busy = true ∧ readerOk s.dec ∧ (unreadBits s.dec).length < 8 := by
  unfold readerOk; decide

theorem witness_ReservedCommandIsIllegal :
    let e := withEvent (.regWrite (0x4000 + 0x000) 0x00000014#32) (encIdle 64)
    let d := withEvent (.regWrite (0x4000 + 0x100) 0x00000000#32) (encIdle 64)
    (e.dec.busy = false ∧ e.host = .regWrite (e.params.blockBase + 0x000) 0x00000014#32 :: [] ∧
      4 ≤ ((0x00000014#32).extractLsb' 0 4).toNat) ∧
    (d.dec.busy = false ∧ d.host = .regWrite (d.params.blockBase + 0x100) 0x00000000#32 :: [] ∧
      ((0x00000000#32).extractLsb' 0 4).toNat = 0) := by decide

/-- A state with both units in their ERROR phase. -/
def bothFailed (ev : HostEvent) : State :=
  withEvent ev (raise .dec .illegalCommand (raise .enc .config (encIdle 64)))

theorem witness_ErrorPhaseIgnoresCommands :
    let e := bothFailed (.regWrite (0x4000 + 0x000) 0x01010102#32)
    let d := bothFailed (.regWrite (0x4000 + 0x100) 0x00000000#32)
    (e.dec.busy = false ∧ ((0x01010102#32).extractLsb' 0 4).toNat ≠ 1 ∧
      e.host = .regWrite (e.params.blockBase + 0x000) 0x01010102#32 :: [] ∧ e.enc.phase = .error) ∧
    (d.dec.busy = false ∧ ((0x00000000#32).extractLsb' 0 4).toNat ≠ 1 ∧
      d.host = .regWrite (d.params.blockBase + 0x100) 0x00000000#32 :: [] ∧ d.dec.phase = .error) := by
  decide

theorem witness_OnlyResetLeavesTheErrorPhase :
    let s := bothFailed (.memWrite .ePal 0 7)
    s.dec.busy = false ∧ s.host = HostEvent.memWrite .ePal 0 7 :: [] ∧ step s = .next (nextOf (step s)) ∧
      HostEvent.memWrite .ePal 0 7 ≠ .resetInput ∧ s.enc.phase = .error ∧ s.dec.phase = .error ∧
      (∀ w, HostEvent.memWrite .ePal 0 7 = .regWrite (s.params.blockBase + 0x000) w →
        (w.extractLsb' 0 4).toNat ≠ 1) ∧
      (∀ w, HostEvent.memWrite .ePal 0 7 = .regWrite (s.params.blockBase + 0x100) w →
        (w.extractLsb' 0 4).toNat ≠ 1) :=
  ⟨rfl, rfl, rfl, by decide, rfl, rfl, fun _ h => (by cases h), fun _ h => (by cases h)⟩

theorem witness_HostReadsHaveNoSideEffect :
    let r := withEvent (.regRead (0x4000 + 511)) (encIdle 64)
    let m := withEvent (.memRead .dCur 3) (encIdle 64)
    (r.dec.busy = false ∧ 511 < 512 ∧ r.host = .regRead (r.params.blockBase + 511) :: []) ∧
    (m.dec.busy = false ∧ m.host = .memRead .dCur 3 :: []) ∧
    (383 < 384 ∧ 3 < m.params.npix ∧ 63 < m.params.obufCap ∧ 63 < m.params.ibufCap) := by decide

theorem witness_OnlyPaletteLengthIsWritable :
    let p := withEvent (.regWrite (0x4000 + 0x008) 6#32) (encIdle 64)
    let o := withEvent (.regWrite (0x4000 + 511) 6#32) (encIdle 64)
    (p.dec.busy = false ∧ p.host = .regWrite (p.params.blockBase + 0x008) 6#32 :: []) ∧
    (o.dec.busy = false ∧ 511 < 512 ∧ o.host = .regWrite (o.params.blockBase + 511) 6#32 :: []) ∧
    (0x006 % 4 ≠ 0 ∧ (0x014 < 0x018 ∧ 0x018 < 0x100) ∧ 0x114 < 0x1FC) := by decide

theorem witness_HostMemoryAccessRules :
    let w := withEvent (.memWrite .dCur 0 1) (encIdle 64)
    let b := withEvent (.memWrite .ePal 384 1) (encIdle 64)
    (w.dec.busy = false ∧ w.host = .memWrite .dCur 0 1 :: []) ∧
    (b.host = .memWrite .ePal 384 1 :: [] ∧ hostMemSize b.params .ePal ≤ 384) ∧
    hostMemSize (tiny 64) .dCur ≤ 4 ∧
    (commandOf w.params (.memWrite .dCur 0 1) = none ∧ HostEvent.memWrite .dCur 0 1 ≠ .resetInput) ∧
    step w = .next (nextOf (step w)) := by
  refine ⟨by decide, by decide, by decide, by decide, rfl⟩

theorem witness_HostMemoryWriteStoresOneEntry :
    let p := withEvent (.memWrite .ePal 383 1) (encIdle 64)
    let f := withEvent (.memWrite .eFin 3 1) (encIdle 64)
    let i := withEvent (.memWrite .dIbuf 63 1) (encIdle 64)
    (p.dec.busy = false ∧ p.host = .memWrite .ePal 383 1 :: [] ∧ 383 < 384) ∧
    (f.dec.busy = false ∧ f.host = .memWrite .eFin 3 1 :: [] ∧ 3 < f.params.npix) ∧
    (i.dec.busy = false ∧ i.host = .memWrite .dIbuf 63 1 :: [] ∧ 63 < i.params.ibufCap) := by
  decide

/-- Between commands in the middle of a stream, the host's next event the write of DEC_FRAME. -/
def decFrameNext : State := withEvent (.regWrite (0x4000 + 0x100) 0x00000003#32) (decLater [0x08])

/-- A state in the middle of a stream meets the invariant; see `witness_BusyReadsZero`. -/
theorem decLater_enc_inv : EncInv (decLater [0x08]).params (decLater [0x08]).enc := by
  constructor <;> decide

theorem decLater_dec_inv : DecInv (decLater [0x08]).params (decLater [0x08]).dec := by
  constructor <;> decide

/-- The step runs the whole run frame. -/
theorem witness_BusyReadsZero :
    decFrameNext.Inv ∧ decFrameNext.dec.busy = false ∧ step decFrameNext = .next (nextOf (step decFrameNext)) ∧
      (nextOf (step decFrameNext)).dec.frames = 2 :=
  ⟨⟨by decide, decLater_enc_inv, decLater_dec_inv⟩, rfl, rfl, by decide⟩

theorem witness_ResetRegisterValues :
    let s := withEvent .resetInput (encIdle 64)
    s.dec.busy = false ∧ s.host = .resetInput :: [] := by decide

theorem witness_EncResetRestoresRegisters : ((0xFFFFFFF1#32).extractLsb' 0 4).toNat = 1 := by decide

theorem witness_DecResetRestoresRegisters : ((0x00000001#32).extractLsb' 0 4).toNat = 1 := by decide

/-! ### ENC -/

theorem witness_EncHeaderStoresTheHeader :
    let s := encIdle 9
    s.enc.phase = .idle ∧ writerReady s ∧ 0 < (255#8).toNat ∧ 0 < (1#8).toNat ∧ (1#8).toNat < 8 ∧
      s.enc.palLen.toNat = 3 * 2 ^ (1#8).toNat ∧
      s.enc.outLen.toNat + (3 + 3 * 2 ^ (1#8).toNat) ≤ s.params.obufCap := by
  unfold writerReady; decide

theorem witness_EncHeaderOnlyInIdle :
    (encHeaderDone 64 []).enc.phase ≠ .idle ∧ (encHeaderDone 64 []).enc.phase ≠ .error ∧
      (bothFailed .resetInput).enc.phase = .error := by decide

theorem witness_EncHeaderValidation :
    let s := encIdle 8
    (s.enc.phase = .idle ∧ ¬ (8#8).toNat < 8) ∧
    (s.enc.phase = .idle ∧ 0 < (1#8).toNat ∧ (255#8).toNat < 256 ∧ (1#8).toNat < 8 ∧
      s.enc.palLen.toNat = 3 * 2 ^ (1#8).toNat ∧ writerReady s) := by
  unfold writerReady; decide

theorem witness_EncHeaderOverflow :
    let s := encIdle 8
    s.enc.phase = .idle ∧ writerReady s ∧ 0 < (1#8).toNat ∧ (1#8).toNat < 8 ∧
      s.enc.palLen.toNat = 3 * 2 ^ (1#8).toNat ∧
      s.params.obufCap < s.enc.outLen.toNat + (3 + 3 * 2 ^ (1#8).toNat) := by
  unfold writerReady; decide

theorem witness_EncFrameStoresTheLiteralFrame :
    let s := encHeaderDone 10 [0, 1, 0, 1]
    s.enc.phase = .header ∧ s.enc.frames = 0 ∧ writerReady s ∧ (4#24).toNat = s.params.npix ∧
      (∀ k < s.params.npix, (s.enc.fin.read k).toNat < 2 ^ s.enc.bpp.toNat) ∧
      s.enc.outLen.toNat + (s.params.npix * s.enc.bpp.toNat + 7) / 8 ≤ s.params.obufCap := by
  unfold writerReady; decide

theorem witness_EncFrameStoresTheRunFrame :
    let s := encStreaming 12 [1, 1, 0, 1]
    (s.enc.phase = .header ∨ s.enc.phase = .stream) ∧ s.enc.frames ≠ 0 ∧ writerReady s ∧
      (4#24).toNat = s.params.npix ∧
      (∀ k < s.params.npix, (s.enc.fin.read k).toNat < 2 ^ s.enc.bpp.toNat) ∧
      s.enc.outLen.toNat + (wireBytes (runsBits s.enc.bpp.toNat
        (chooseRuns (pixelsOf (s.enc.fin.readList 0 s.params.npix))
          (s.enc.ref.readList 0 s.params.npix)))).length ≤ s.params.obufCap := by
  unfold writerReady; decide

theorem witness_EncFrameOnlyInAStream :
    (encIdle 64).enc.phase = .idle ∧ (bothFailed .resetInput).enc.phase = .error := by decide

theorem witness_EncFrameValidation :
    let s := encHeaderDone 64 [0, 2, 0, 1]
    (s.enc.phase = .header ∨ s.enc.phase = .stream) ∧ (5#24).toNat ≠ s.params.npix ∧
      (∃ k < s.params.npix, 2 ^ s.enc.bpp.toNat ≤ (s.enc.fin.read k).toNat) := by
  refine ⟨by decide, by decide, 1, by decide, by decide⟩

theorem witness_EncFrameOverflow :
    let s := encStreaming 11 [1, 1, 0, 1]
    (s.enc.phase = .header ∨ s.enc.phase = .stream) ∧ writerReady s ∧
      (4#24).toNat = s.params.npix ∧
      (∀ k < s.params.npix, (s.enc.fin.read k).toNat < 2 ^ s.enc.bpp.toNat) ∧
      s.params.obufCap < s.enc.outLen.toNat + (wireBytes (if s.enc.frames = 0 then
          pixelBits s.enc.bpp.toNat (pixelsOf (s.enc.fin.readList 0 s.params.npix))
        else runsBits s.enc.bpp.toNat
          (chooseRuns (pixelsOf (s.enc.fin.readList 0 s.params.npix))
            (s.enc.ref.readList 0 s.params.npix)))).length := by
  unfold writerReady; decide

theorem witness_EncoderOutputIsDetermined :
    let s := encStreaming 64 [1, 1, 0, 1]
    let s' : State := { s with enc := { s.enc with pal := .unspecified 8 99 } }
    s'.params = s.params ∧ writerReady s ∧ encAgree s.params.npix s.enc s'.enc ∧
      exec (.encFrame 4) s = .next (nextOf (exec (.encFrame 4) s)) ∧
      (nextOf (exec (.encFrame 4) s)).enc.phase ≠ .error := by
  refine ⟨rfl, by unfold writerReady; decide, ⟨rfl, rfl, rfl, rfl⟩, rfl, by decide⟩

/-! ### Run selection -/

theorem witness_EqRunMeasuresTheMatch : (px [0, 1]).length = (px [0, 0]).length := by decide

theorem witness_RunSelectionIsGreedy :
    ((px [0, 0, 0, 0]).length = (px [0, 0, 0, 0]).length ∧ px [0, 0, 0, 0] ≠ [] ∧
      4 ≤ eqRun 128 (px [0, 0, 0, 0]) (px [0, 0, 0, 0])) ∧
    ((px [0, 0, 0]).length = (px [0, 0, 0]).length ∧ px [0, 0, 0] ≠ [] ∧
      eqRun 128 (px [0, 0, 0]) (px [0, 0, 0]) < 4 ∧ (px [0, 0, 0]).length < 4) ∧
    ((px [1, 0, 0, 0]).length = (px [0, 0, 0, 0]).length ∧ px [1, 0, 0, 0] ≠ [] ∧
      eqRun 128 (px [1, 0, 0, 0]) (px [0, 0, 0, 0]) < 4 ∧ 4 ≤ (px [1, 0, 0, 0]).length) := by
  decide

theorem witness_ChosenRunsBounds :
    (px [1, 0, 0, 0, 0]).length = (px [0, 0, 0, 0, 0]).length ∧
    chooseRuns (px [1, 0, 0, 0, 0]) (px [0, 0, 0, 0, 0]) =
      [] ++ Run.diff (px [1]) :: [Run.same 4] ∧ Run.same 4 ∈ [Run.diff (px [1]), Run.same 4] := by
  decide

set_option maxRecDepth 8192 in
/-- 129 changed pixels: DIFF 128, then DIFF 1 (E-RUN-2). -/
theorem witness_ChosenRunsBounds_adjacent_diff :
    chooseRuns (List.replicate 129 1#7) (List.replicate 129 0#7) =
      [] ++ Run.diff (List.replicate 128 1#7) :: Run.diff [1#7] :: [] := by decide

set_option maxRecDepth 8192 in
/-- 132 unchanged pixels: SAME 128, then SAME 4 (E-RUN-5c). -/
theorem witness_ChosenRunsBounds_adjacent_same :
    chooseRuns (List.replicate 132 0#7) (List.replicate 132 0#7) =
      [] ++ Run.same 128 :: Run.same 4 :: [] := by decide

theorem witness_ChosenRunsRebuildTheFrame : (px [1, 0]).length = (px [0, 0]).length := by decide

theorem witness_UnchangedFrameRuns : 4 ≤ (px [0, 0, 0, 0]).length := by decide

theorem witness_RunFrameSizeBounds : (px [1, 0]).length = (px [0, 0]).length := by decide

/-! ### Primitives -/

/-- A call sequence with every kind of call. -/
def sampleCalls : List WriterCall := [.bits 5 3, .byte 0xFF, .flush, .bytes [1, 2], .bits 127 7]

/-- ENC after a writer sequence from reset. -/
def written (calls : List WriterCall) : Enc :=
  (callsWriter 64 calls (Enc.afterReset 0)).toOption.getD (Enc.afterReset 0)

theorem witness_WriterCallsAppendTheirFields :
    64 < 2 ^ 24 ∧ (Enc.afterReset 0).outLen.toNat ≤ 64 ∧
      (Enc.afterReset 0).wAcc.toNat < 2 ^ (Enc.afterReset 0).wCnt.toNat ∧
      (∀ v n, WriterCall.bits v n ∈ sampleCalls → n ≤ 8) ∧
      callsWriter 64 sampleCalls (Enc.afterReset 0) = .ok (written sampleCalls) := by
  refine ⟨by decide, by decide, by decide, ?_, rfl⟩
  intro v n h
  simp [sampleCalls] at h
  omega

/-- DEC with a writer sequence's output as its input. -/
def mirroring (e : Enc) : Dec :=
  { Dec.afterReset 4 with
    inLen := e.outLen
    ibuf := (Mem.unspecified 8 9).writeList 0 (e.obuf.readList 0 e.outLen.toNat) }

theorem witness_ReaderMirrorsWriter :
    let e := written (sampleCalls ++ [.flush])
    64 < 2 ^ 24 ∧ ((Enc.afterReset 0).outLen = 0 ∧ (Enc.afterReset 0).wAcc = 0 ∧
        (Enc.afterReset 0).wCnt = 0) ∧
      (∀ v n, WriterCall.bits v n ∈ sampleCalls → n ≤ 8) ∧
      callsWriter 64 (sampleCalls ++ [.flush]) (Enc.afterReset 0) = .ok e ∧
      ((mirroring e).rAcc = 0 ∧ (mirroring e).rCnt = 0 ∧ (mirroring e).pos = 0 ∧
        (mirroring e).inLen = e.outLen) ∧
      (mirroring e).ibuf.readList 0 (mirroring e).inLen.toNat = e.obuf.readList 0 e.outLen.toNat := by
  refine ⟨by decide, by decide, ?_, rfl, by decide, by decide⟩
  intro v n h
  simp [sampleCalls] at h
  omega

/-! ### DEC -/

theorem witness_DecInitReadsTheHeader :
    let s := decIdle streamS1
    s.dec.phase = .idle ∧ (9#24).toNat ≤ s.params.ibufCap ∧ 0 < (s.dec.ibuf.read 0).toNat ∧
      0 < (s.dec.ibuf.read 1).toNat ∧ 0 < (s.dec.ibuf.read 2).toNat ∧
      (s.dec.ibuf.read 2).toNat < 8 ∧ 3 + 3 * 2 ^ (s.dec.ibuf.read 2).toNat ≤ (9#24).toNat := by
  decide

theorem witness_DecInitRejects :
    ((decOpened streamS1 13).dec.phase ≠ .error ∧ (decOpened streamS1 13).dec.phase ≠ .idle) ∧
    ((decIdle streamS1).dec.phase ≠ .error ∧ (decIdle streamS1).params.ibufCap < (65#24).toNat) ∧
    (bothFailed .resetInput).dec.phase = .error := by decide

theorem witness_DecInitErrors :
    let s := decIdle streamS1
    let b := decIdle (bytes [1, 1, 8])
    (s.dec.phase = .idle ∧ (2#24).toNat ≤ s.params.ibufCap ∧ (2#24).toNat < 3) ∧
    (b.dec.phase = .idle ∧ (3#24).toNat ≤ b.params.ibufCap ∧ 3 ≤ (3#24).toNat ∧
      8 ≤ (b.dec.ibuf.read 2).toNat) ∧
    (s.dec.phase = .idle ∧ 3 ≤ (8#24).toNat ∧ 0 < (s.dec.ibuf.read 0).toNat ∧
      0 < (s.dec.ibuf.read 1).toNat ∧ 0 < (s.dec.ibuf.read 2).toNat ∧
      (s.dec.ibuf.read 2).toNat < 8 ∧ (8#24).toNat < 3 + 3 * 2 ^ (s.dec.ibuf.read 2).toNat) := by
  decide

theorem witness_DecFrameReadsTheLiteralFrame :
    let s := decOpened streamS1 10
    s.dec.phase = .active ∧ s.dec.frames = 0 ∧ readerReady s.dec ∧
      s.params.npix * s.dec.bpp.toNat ≤ (unreadBits s.dec).length := by
  unfold readerReady; decide

/-- The padding bits after the DIFF's four literals are set, and ignored (DF-10). -/
theorem witness_DecFrameExecutesTheRuns :
    let s := decLater [0x09, 0xFB]
    s.dec.phase = .active ∧ s.dec.frames ≠ 0 ∧ readerReady s.dec ∧
      (∀ run ∈ [Run.diff (px [1, 1, 0, 1])], runOk s.dec.bpp.toNat run = true) ∧
      runsPixels [Run.diff (px [1, 1, 0, 1])] = s.params.npix ∧
      unreadBits s.dec = runsBits s.dec.bpp.toNat [Run.diff (px [1, 1, 0, 1])] ++
        [true, true, true, true] := by
  unfold readerReady; decide

theorem witness_DecFrameOnlyWhenActive :
    ((decIdle []).dec.phase ≠ .active ∧ (decIdle []).dec.phase ≠ .error) ∧
    (bothFailed .resetInput).dec.phase = .error := by decide

/-- SAME 2, then DIFF 3 with no literals in the buffer. -/
theorem witness_OvershootingRunIsAFramingError :
    let s := decLater [0x04, 0x07]
    s.dec.phase = .active ∧ s.dec.frames ≠ 0 ∧ readerReady s.dec ∧
      (∀ run ∈ [Run.same 2], runOk s.dec.bpp.toNat run = true) ∧
      runsPixels [Run.same 2] < s.params.npix ∧ 1 < 2 ∧ 1 ≤ 3 ∧ 3 ≤ 128 ∧
      s.params.npix < runsPixels [Run.same 2] + 3 ∧
      unreadBits s.dec = runsBits s.dec.bpp.toNat [Run.same 2] ++ (runHeaderBits 1 3 ++ []) := by
  unfold readerReady; decide

theorem witness_FrameThatEndsEarlyIsTruncated_literal :
    let s := decOpened streamS1 9
    s.dec.phase = .active ∧ s.dec.frames = 0 ∧ readerReady s.dec ∧
      (unreadBits s.dec).length < s.params.npix * s.dec.bpp.toNat := by
  unfold readerReady; decide

theorem witness_FrameThatEndsEarlyIsTruncated_header :
    let s := decLater [0x04]
    s.dec.phase = .active ∧ s.dec.frames ≠ 0 ∧ readerReady s.dec ∧
      (∀ run ∈ [Run.same 2], runOk s.dec.bpp.toNat run = true) ∧
      runsPixels [Run.same 2] < s.params.npix ∧
      unreadBits s.dec = runsBits s.dec.bpp.toNat [Run.same 2] ++ [] ∧ ([] : List Bool).length < 8 := by
  unfold readerReady; decide

theorem witness_FrameThatEndsEarlyIsTruncated_literals :
    let s := decLater [0x09]
    s.dec.phase = .active ∧ s.dec.frames ≠ 0 ∧ readerReady s.dec ∧
      runsPixels [] < s.params.npix ∧
      unreadBits s.dec = runsBits s.dec.bpp.toNat [] ++ (runHeaderBits 1 4 ++ []) ∧
      1 ≤ 4 ∧ 4 ≤ 128 ∧ runsPixels [] + 4 ≤ s.params.npix ∧
      ([] : List Bool).length < 4 * s.dec.bpp.toNat := by
  unfold readerReady; decide

theorem witness_DecFrameIsItsTokenSteps :
    let s := decLater [0x04, 0x04]
    s.dec.phase = .active ∧ s.dec.frames ≠ 0 ∧ s.host = [] := by decide

theorem witness_DecFrameMovesTheCursorForward :
    let s := decLater [0x04, 0x04]
    readerReady s.dec ∧ exec .decFrame s = .next (nextOf (exec .decFrame s)) ∧
      (nextOf (exec .decFrame s)).dec.phase ≠ .error := by
  refine ⟨by unfold readerReady; decide, rfl, by decide⟩

theorem witness_InputBelowTheCursorIsNotReadAgain :
    let s := decLater [0x08]
    s.dec.pos ≤ s.dec.inLen ∧ 9 < s.dec.pos.toNat ∧
      exec .decFrame s = .next (nextOf (exec .decFrame s)) := by
  refine ⟨by decide, by decide, rfl⟩

/-- DEC with all frames read, the cursor at `pos` of 12 bytes. -/
def decAllRead (pos : BitVec 24) : State :=
  let s := decLater [0x08, 0x08]
  { s with dec := { s.dec with phase := .allRead, frames := 3, pos := pos } }

theorem witness_DecCheckEndFindsTrailingData :
    ((decAllRead 12).dec.phase = .allRead ∧ (decAllRead 12).dec.pos = (decAllRead 12).dec.inLen) ∧
    ((decAllRead 11).dec.phase = .allRead ∧ (decAllRead 11).dec.pos ≠ (decAllRead 11).dec.inLen) ∧
    ((decIdle []).dec.phase ≠ .allRead ∧ (decIdle []).dec.phase ≠ .error) ∧
    (bothFailed .resetInput).dec.phase = .error := by decide

/-! ### Tokens -/

theorem witness_SameKeepsItsSpan :
    let s := decInside [0x06] 1
    1 ≤ 3 ∧ 3 ≤ 128 ∧ s.dec.pix + 3 ≤ s.params.npix := by decide

theorem witness_DiffOverwritesItsSpan :
    let s := decInside [0x03] 1
    1 ≤ 3 ∧ 3 ≤ 128 ∧ s.dec.pix + 3 ≤ s.params.npix ∧ readerOk s.dec ∧
      3 * s.dec.bpp.toNat ≤ (unreadBits s.dec).length := by unfold readerOk; decide

theorem witness_TokenFramingCheck :
    let s := decInside [0x03] 1
    s.params.npix < s.dec.pix + 4 ∧
    (s.dec.pix + 3 = s.params.npix ∧ s.dec.phase ≠ .error ∧ readerOk s.dec ∧
      3 * s.dec.bpp.toNat ≤ (unreadBits s.dec).length) := by unfold readerOk; decide

theorem witness_DiffWithoutItsLiteralsIsTruncated :
    let s := decInside [] 1
    s.dec.pix + 3 ≤ s.params.npix ∧ readerOk s.dec ∧
      (unreadBits s.dec).length < 3 * s.dec.bpp.toNat := by unfold readerOk; decide

/-! ### The whole machine -/

theorem decInside_dec_inv : DecInv (decInside [0x04, 0x04] 2).params (decInside [0x04, 0x04] 2).dec := by
  constructor <;> decide

theorem witness_EveryStepKeepsTheInvariant :
    let s := decInside [0x04, 0x04] 2
    s.Inv ∧ step s = .next (nextOf (step s)) :=
  ⟨⟨by decide, decLater_enc_inv, decInside_dec_inv⟩, rfl⟩

theorem witness_InstructionsLeaveTheOtherUnitAlone :
    let s := encIdle 64
    (exec .encReset s = .next (nextOf (exec .encReset s)) ∧ unitOf .encReset = .enc) ∧
    (exec .decReset s = .next (nextOf (exec .decReset s)) ∧ unitOf .decReset = .dec) :=
  ⟨⟨rfl, rfl⟩, ⟨rfl, rfl⟩⟩

theorem witness_UnitsDoNotDependOnEachOther :
    let s := decLater [0x08]
    (exec (.encFrame 4) s = .next (nextOf (exec (.encFrame 4) s)) ∧ unitOf (.encFrame 4) = .enc) ∧
    (exec .decFrame s = .next (nextOf (exec .decFrame s)) ∧ unitOf .decFrame = .dec) :=
  ⟨⟨rfl, rfl⟩, ⟨rfl, rfl⟩⟩

/-! ### Round trips -/

theorem witness_DecFrameInvertsEncFrame :
    let s := encStreaming 64 [1, 1, 0, 1]
    let t := nextOf (exec (.encFrame 4) s)
    let u := decLater [0x09, 0x0B]
    let n := t.enc.outLen.toNat - s.enc.outLen.toNat
    (writerReady s ∧ exec (.encFrame 4) s = .next t ∧
      (s.enc.phase = .header ∨ s.enc.phase = .stream) ∧ t.enc.phase ≠ .error) ∧
    (u.params.npix = s.params.npix ∧ u.dec.phase = .active ∧ readerReady u.dec ∧
      u.dec.frames = s.enc.frames ∧ u.dec.bpp = s.enc.bpp ∧
      u.dec.cur.readList 0 s.params.npix = s.enc.ref.readList 0 s.params.npix) ∧
    u.dec.pos.toNat + n ≤ u.dec.inLen.toNat ∧
    u.dec.ibuf.readList u.dec.pos.toNat n = t.enc.obuf.readList s.enc.outLen.toNat n := by
  refine ⟨⟨by unfold writerReady; decide, rfl, by decide, by decide⟩,
    ⟨by decide, by decide, by unfold readerReady; decide, by decide,
      by decide, by decide⟩, by decide, by decide⟩

/-- P1's three frames. -/
def framesP1 : List (List Byte) := [bytes [0, 1, 0, 1], bytes [0, 1, 0, 1], bytes [1, 1, 0, 1]]

/-- P1's encode sequence after its header. -/
def encodedP1 : List (List Pixel) × State :=
  (encodeFrames framesP1 (nextOf (exec (.encHeader 3 10 1) (encIdle 64)))).getD ([], State.reset)

theorem witness_DecodingInvertsEncoding :
    let s := encIdle 64
    let t := nextOf (exec (.encHeader 3 10 1) s)
    let u := encodedP1.2
    let v := decIdle streamS1
    (s.params.valid ∧ v.params = s.params ∧
      s.enc = { resetEncRegisters s.enc with palLen := s.enc.palLen }) ∧
    (framesP1.length = (3#8).toNat ∧ ∀ g ∈ framesP1, g.length = s.params.npix) ∧
    (exec (.encHeader 3 10 1) s = .next t ∧ t.enc.phase = .header) ∧
    encodeFrames framesP1 t = some (encodedP1.1, u) ∧
    (v.dec = resetDecRegisters v.dec ∧ u.enc.outLen.toNat ≤ s.params.ibufCap ∧
      v.dec.ibuf.readList 0 u.enc.outLen.toNat = u.enc.obuf.readList 0 u.enc.outLen.toNat) := by
  refine ⟨⟨by decide, rfl, rfl⟩, ⟨by decide, by decide⟩, ⟨rfl, by decide⟩, rfl,
    ⟨rfl, by decide, by decide⟩⟩

end Sys2Proof.Tests
end

/-!
The two units share nothing (R17, R248). One property, `ActsOnUnit`, says it of an operation at a state:
the operation answers a next state, writes nothing outside the unit (and the counter of free values,
log 4), and answers the same whatever the other unit holds. Every instruction has it for the unit
that executes it, so the three statements about the scope of an instruction are short uses of it.
-/

namespace Sys2Proof.Machine

/-! ## Acting on one unit -/

/-- `s` with the other unit than `u` replaced by the one `o` holds. -/
def replaceOther (u : BlockUnit) (o s : State) : State :=
  match u with
  | .enc => { s with dec := o.dec }
  | .dec => { s with enc := o.enc }

/-- `t` differs from `s` at most in unit `u` and in the counter of free values (log 4). -/
def ChangesOnly (u : BlockUnit) (s t : State) : Prop :=
  match u with
  | .enc => t = { s with enc := t.enc, free := t.free }
  | .dec => t = { s with dec := t.dec, free := t.free }

/-- At `s`, `f` answers a next state that differs from `s` only in unit `u`, and answers the same with
the other unit replaced (R17, R248). -/
def ActsOnUnit (u : BlockUnit) (f : State → Host.Outcome State Fault Refusal) (s : State) : Prop :=
  ∃ t, ChangesOnly u s t ∧ ∀ o, f (replaceOther u o s) = .next (replaceOther u o t)

@[simp] theorem replaceOther_self (u : BlockUnit) (s : State) : replaceOther u s s = s := by
  cases u <;> rfl

theorem ChangesOnly.trans {u : BlockUnit} {s t v : State} (hst : ChangesOnly u s t)
    (htv : ChangesOnly u t v) : ChangesOnly u s v := by
  cases u with
  | enc =>
    rw [show t = _ from hst] at htv
    exact htv
  | dec =>
    rw [show t = _ from hst] at htv
    exact htv

theorem ChangesOnly.params_host_rdata {u : BlockUnit} {s t : State} (h : ChangesOnly u s t) :
    t.params = s.params ∧ t.host = s.host ∧ t.rdata = s.rdata := by
  cases u with
  | enc => rw [show t = _ from h]; exact ⟨rfl, rfl, rfl⟩
  | dec => rw [show t = _ from h]; exact ⟨rfl, rfl, rfl⟩

theorem ChangesOnly.dec_eq {s t : State} (h : ChangesOnly .enc s t) : t.dec = s.dec := by
  rw [show t = _ from h]

theorem ChangesOnly.enc_eq {s t : State} (h : ChangesOnly .dec s t) : t.enc = s.enc := by
  rw [show t = _ from h]

theorem ActsOnUnit.next_exists {u : BlockUnit} {f : State → Host.Outcome State Fault Refusal}
    {s : State} (h : ActsOnUnit u f s) : ∃ t, f s = .next t := by
  obtain ⟨t, -, hf⟩ := h
  have hs := hf s
  rw [replaceOther_self] at hs
  exact ⟨_, hs⟩

/-- What an operation on one unit answers, read off the next state it answers at `s`. -/
theorem ActsOnUnit.of_next {u : BlockUnit} {f : State → Host.Outcome State Fault Refusal}
    {s t : State} (h : ActsOnUnit u f s) (ht : f s = .next t) :
    ChangesOnly u s t ∧ ∀ o, f (replaceOther u o s) = .next (replaceOther u o t) := by
  obtain ⟨t', hc, hf⟩ := h
  have hs := hf s
  have hself : replaceOther u s t' = t' := by
    cases u with
    | enc => rw [show t' = _ from hc]; rfl
    | dec => rw [show t' = _ from hc]; rfl
  rw [replaceOther_self, ht, hself] at hs
  cases hs
  exact ⟨hc, hf⟩

/-! ## The ERROR phase (R239) -/

theorem ActsOnUnit.unlessEncError {f : State → Host.Outcome State Fault Refusal} {s : State}
    (h : ActsOnUnit .enc f s) :
    ActsOnUnit .enc (fun t => Machine.unlessEncError t (f t)) s := by
  by_cases he : s.enc.phase = .error
  · exact ⟨s, rfl, fun _ => ErrorPhase.enc _ he⟩
  · obtain ⟨t, hc, hf⟩ := h
    exact ⟨t, hc, fun o => (ErrorPhase.enc_other (s := replaceOther .enc o s) _ he).trans (hf o)⟩

theorem ActsOnUnit.unlessDecError {f : State → Host.Outcome State Fault Refusal} {s : State}
    (h : ActsOnUnit .dec f s) :
    ActsOnUnit .dec (fun t => Machine.unlessDecError t (f t)) s := by
  by_cases he : s.dec.phase = .error
  · exact ⟨s, rfl, fun _ => ErrorPhase.dec _ he⟩
  · obtain ⟨t, hc, hf⟩ := h
    exact ⟨t, hc, fun o => (ErrorPhase.dec_other (s := replaceOther .dec o s) _ he).trans (hf o)⟩

/-! ## The commands of ENC (R150 to R162) -/

theorem execEncHeader_actsOnUnit (nf iv bpp : Byte) (s : State) :
    ActsOnUnit .enc (execEncHeader nf iv bpp) s := by
  refine .unlessEncError ?_
  by_cases hi : s.enc.phase ≠ .idle
  · exact ⟨raise .enc .illegalCommand s, rfl, fun _ => if_pos hi⟩
  by_cases hv : headerValid nf.toNat iv.toNat bpp.toNat s.enc.palLen.toNat = true
  · cases hw : writeHeader s.params.obufCap nf iv bpp s.enc with
    | error c =>
      exact ⟨raise .enc c (loseEncOutput s), rfl,
        fun o => by simp [replaceOther, hi, hv, hw]; rfl⟩
    | ok e =>
      exact ⟨{ s with
        enc := { e with nframes := nf, interval := iv, bpp := bppField bpp, phase := .header } },
        rfl, fun o => by simp [replaceOther, hi, hv, hw]⟩
  · exact ⟨raise .enc .config s, rfl, fun _ => (if_neg hi).trans (if_neg hv)⟩

theorem execEncFrame_actsOnUnit (len : BitVec 24) (s : State) :
    ActsOnUnit .enc (execEncFrame len) s := by
  refine .unlessEncError ?_
  by_cases hi : s.enc.phase = .header ∨ s.enc.phase = .stream
  · by_cases hv : frameValid s.params.npix len s.enc = true
    · cases hw : encodeFrame s.params s.enc with
      | error c =>
        exact ⟨raise .enc c (loseEncOutput s), rfl,
          fun o => by simp [replaceOther, hi, hv, hw]; rfl⟩
      | ok e =>
        exact ⟨{ s with enc := closeEncFrame (frameIn s.params.npix s.enc) e }, rfl,
          fun o => by simp [replaceOther, hi, hv, hw]⟩
    · exact ⟨raise .enc .encodeInvariant s, rfl, fun _ => (if_pos hi).trans (if_neg hv)⟩
  · exact ⟨raise .enc .illegalCommand s, rfl, fun _ => if_neg hi⟩

theorem reservedEncCommand_actsOnUnit (s : State) : ActsOnUnit .enc reservedEncCommand s :=
  .unlessEncError ⟨raise .enc .illegalCommand s, rfl, fun _ => rfl⟩

/-! ## The tokens and the run loop (R196 to R199) -/

theorem execSame_actsOnUnit (n : Nat) (s : State) : ActsOnUnit .dec (execSame n) s := by
  by_cases hp : s.params.npix < s.dec.pix + n
  · exact ⟨failDecFrame .decodeFraming s, rfl, fun _ => if_pos hp⟩
  · exact ⟨{ s with dec := { s.dec with pix := s.dec.pix + n } }, rfl, fun _ => if_neg hp⟩

theorem execDiff_actsOnUnit (n : Nat) (s : State) : ActsOnUnit .dec (execDiff n) s := by
  by_cases hp : s.params.npix < s.dec.pix + n
  · exact ⟨failDecFrame .decodeFraming s, rfl, fun _ => if_pos hp⟩
  cases hr : readPixels s.dec.pix n s.dec with
  | error c =>
    exact ⟨failDecFrame c s, rfl, fun o => by simp [execDiff, replaceOther, hp, hr]; rfl⟩
  | ok d =>
    exact ⟨{ s with dec := { d with pix := s.dec.pix + n } }, rfl,
      fun o => by simp [execDiff, replaceOther, hp, hr]⟩

theorem runToken_actsOnUnit (h : Byte) (s : State) : ActsOnUnit .dec (runToken h) s := by
  by_cases hm : modeField h = 1
  · obtain ⟨t, hc, hf⟩ := execDiff_actsOnUnit (runLength (headerLengthField h)) s
    exact ⟨t, hc, fun o => (if_pos hm).trans (hf o)⟩
  · obtain ⟨t, hc, hf⟩ := execSame_actsOnUnit (runLength (headerLengthField h)) s
    exact ⟨t, hc, fun o => (if_neg hm).trans (hf o)⟩

theorem settle_changesOnly_dec (s : State) : ChangesOnly .dec s (settle s) := by
  unfold settle
  split
  · rfl
  · rfl

theorem settle_replaceOther_dec (o s : State) :
    settle (replaceOther .dec o s) = replaceOther .dec o (settle s) := by
  by_cases h : s.dec.busy = true ∧ s.params.npix ≤ s.dec.pix
  · rw [show settle s = finishFrame s from if_pos h]
    exact if_pos h
  · rw [show settle s = s from if_neg h]
    exact if_neg h

theorem openRunFrame_changesOnly_dec (s : State) : ChangesOnly .dec s (openRunFrame s) :=
  settle_changesOnly_dec { s with dec := { s.dec with busy := true, pix := 0 } }

theorem openRunFrame_replaceOther_dec (o s : State) :
    openRunFrame (replaceOther .dec o s) = replaceOther .dec o (openRunFrame s) :=
  settle_replaceOther_dec o { s with dec := { s.dec with busy := true, pix := 0 } }

theorem tokenCycle_actsOnUnit (s : State) : ActsOnUnit .dec (tokenCycle runToken) s := by
  cases hh : fetchRunHeader s.dec with
  | error c =>
    exact ⟨failDecFrame c s, rfl, fun o => by simp [tokenCycle, replaceOther, hh]; rfl⟩
  | ok hd =>
    obtain ⟨h, d⟩ := hd
    obtain ⟨t, hc, hf⟩ := runToken_actsOnUnit h { s with dec := d }
    have hst : ChangesOnly .dec s t := hc
    refine ⟨settle t, hst.trans (settle_changesOnly_dec t), fun o => ?_⟩
    have hfetch : fetchRunHeader (replaceOther .dec o s).dec = .ok (h, d) := hh
    have hrun : runToken h { replaceOther .dec o s with dec := d } =
        .next (replaceOther .dec o t) := hf o
    simp only [tokenCycle, hfetch, hrun, settle_replaceOther_dec]

theorem decodeRunsLoop_actsOnUnit (fuel : Nat) (s : State) :
    ActsOnUnit .dec (decodeRunsLoop fuel) s := by
  induction fuel generalizing s with
  | zero => exact ⟨s, rfl, fun _ => rfl⟩
  | succ fuel ih =>
    by_cases hb : s.dec.busy = true
    · obtain ⟨t, hst, hcycle⟩ := tokenCycle_actsOnUnit s
      obtain ⟨v, htv, hloop⟩ := ih t
      refine ⟨v, hst.trans htv, fun o => ?_⟩
      have hbusy : (replaceOther .dec o s).dec.busy = true := hb
      rw [decodeRunsLoop, if_pos hbusy, hcycle]
      exact hloop o
    · exact ⟨s, rfl, fun _ => if_neg hb⟩

/-! ## The commands of DEC (R190 to R201) -/

theorem execDecInit_actsOnUnit (len : BitVec 24) (s : State) :
    ActsOnUnit .dec (execDecInit len) s := by
  refine .unlessDecError ?_
  by_cases hi : s.dec.phase ≠ .idle
  · exact ⟨raise .dec .illegalCommand s, rfl, fun _ => if_pos hi⟩
  by_cases hl : s.params.ibufCap < len.toNat
  · exact ⟨raise .dec .illegalCommand s, rfl, fun _ => (if_neg hi).trans (if_pos hl)⟩
  cases hr : readHeader (startInput len s.dec) with
  | error c =>
    exact ⟨raise .dec c (loseDecHeader len s), rfl,
      fun o => by simp [replaceOther, hi, hl, hr]; rfl⟩
  | ok d =>
    exact ⟨{ s with dec := { d with frames := 0, phase := .active } }, rfl,
      fun o => by simp [replaceOther, hi, hl, hr]⟩

/-- A later frame is the run loop from the opened frame, which is itself inside DEC. -/
theorem execDecFrame_actsOnUnit (s : State) : ActsOnUnit .dec execDecFrame s := by
  refine .unlessDecError ?_
  by_cases hi : s.dec.phase ≠ .active
  · exact ⟨raise .dec .illegalCommand s, rfl, fun _ => if_pos hi⟩
  by_cases hz : s.dec.frames.toNat = 0
  · cases hr : readPixels 0 s.params.npix s.dec with
    | error c =>
      exact ⟨failDecFrame c s, rfl, fun o => by simp [replaceOther, hi, hz, hr]; rfl⟩
    | ok d =>
      exact ⟨finishFrame { s with dec := d }, rfl,
        fun o => by simp [replaceOther, hi, hz, hr]; rfl⟩
  · obtain ⟨t, hc, hloop⟩ := decodeRunsLoop_actsOnUnit s.params.npix (openRunFrame s)
    refine ⟨t, (openRunFrame_changesOnly_dec s).trans hc, fun o => ?_⟩
    have hrun := hloop o
    rw [← openRunFrame_replaceOther_dec] at hrun
    exact ((if_neg hi).trans (if_neg hz)).trans hrun

theorem execDecCheckEnd_actsOnUnit (s : State) : ActsOnUnit .dec execDecCheckEnd s := by
  refine .unlessDecError ?_
  by_cases hi : s.dec.phase ≠ .allRead
  · exact ⟨raise .dec .illegalCommand s, rfl, fun _ => if_pos hi⟩
  by_cases he : eof s.dec = true
  · exact ⟨{ s with dec := { s.dec with phase := .done } }, rfl,
      fun _ => (if_neg hi).trans (if_pos he)⟩
  · exact ⟨raise .dec .decodeTrailing s, rfl, fun _ => (if_neg hi).trans (if_neg he)⟩

theorem reservedDecCommand_actsOnUnit (s : State) : ActsOnUnit .dec reservedDecCommand s :=
  .unlessDecError ⟨raise .dec .illegalCommand s, rfl, fun _ => rfl⟩

/-! ## Every instruction -/

/-- Every instruction acts on the unit that executes it, in every state (R17, R248). -/
theorem exec_actsOnUnit (i : Instr) (s : State) : ActsOnUnit (unitOf i) (exec i) s := by
  cases i with
  | encReset => exact ⟨{ s with enc := resetEncRegisters s.enc }, rfl, fun _ => rfl⟩
  | encHeader nf iv bpp => exact execEncHeader_actsOnUnit nf iv bpp s
  | encFrame len => exact execEncFrame_actsOnUnit len s
  | decReset => exact ⟨{ s with dec := resetDecRegisters s.dec }, rfl, fun _ => rfl⟩
  | decInit len => exact execDecInit_actsOnUnit len s
  | decFrame => exact execDecFrame_actsOnUnit s
  | decCheckEnd => exact execDecCheckEnd_actsOnUnit s
  | same n => exact execSame_actsOnUnit n s
  | diff n => exact execDiff_actsOnUnit n s

/-! ## Every step -/

theorem rejectedCommand_next (e : DecodeError) (s : State) : ∃ t, rejectedCommand e s = .next t := by
  cases e with
  | reservedEncOp op => exact (reservedEncCommand_actsOnUnit s).next_exists
  | reservedDecOp op => exact (reservedDecCommand_actsOnUnit s).next_exists

theorem takeEvent_next (ev : HostEvent) (s : State) : ∃ t, takeEvent ev s = .next t := by
  unfold takeEvent
  split
  · split
    next i _ => exact (exec_actsOnUnit i s).next_exists
    next e _ => exact rejectedCommand_next e s
  · exact ⟨_, rfl⟩

/-! ## The obligations -/

/-- Settles O56: every instruction acts on its own unit. -/
theorem instructionsLeaveTheOtherUnitAlone : Obligations.InstructionsLeaveTheOtherUnitAlone := by
  intro i s t ht
  obtain ⟨hc, -⟩ := (exec_actsOnUnit i s).of_next ht
  refine ⟨fun hu => ?_, fun hu => ?_, hc.params_host_rdata⟩
  · rw [hu] at hc
    exact hc.dec_eq
  · rw [hu] at hc
    exact hc.enc_eq

/-- Settles O57: an instruction answers the same whatever the other unit holds. -/
theorem unitsDoNotDependOnEachOther : Obligations.UnitsDoNotDependOnEachOther := by
  intro i s t ht
  obtain ⟨-, hf⟩ := (exec_actsOnUnit i s).of_next ht
  refine ⟨fun hu d => ?_, fun hu e => ?_⟩
  · rw [hu] at hf
    exact hf { s with dec := d }
  · rw [hu] at hf
    exact hf { s with enc := e }

/-- Settles O58, by what the step finds: a run frame in progress, no event, or an event to take. -/
theorem everyStepHasANextState : Obligations.EveryStepHasANextState := by
  intro s
  cases hb : s.dec.busy with
  | true =>
    rw [step_token hb]
    exact (tokenCycle_actsOnUnit s).next_exists
  | false =>
    cases hh : s.host with
    | nil => exact ⟨s, step_wait hb hh⟩
    | cons ev rest =>
      rw [step_event hb hh]
      exact takeEvent_next ev _

end Sys2Proof.Machine

/-!
The state's registers, host accesses and invariant (10_state.md). Each operation of the machine gets
one lemma that says it keeps the unit's part of `State.Inv`. The error step and the resets get
theirs once, since most of the lifecycle is vacuous in the ERROR phases and in EP_IDLE and DP_IDLE.
A step is then a token of a run frame, a command, a rejected word or a host access, and each of
these keeps the invariant.
-/

namespace Sys2Proof.Machine

/-! ## Register words

A register word is its fields, appended: a field is read by skipping the fields below it. -/

theorem encStatus_fields (e : Enc) :
    (encStatus e).extractLsb' 0 3 = encPhaseCode e.phase ∧ (encStatus e).extractLsb' 3 1 = 0 ∧
      (encStatus e).extractLsb' 4 4 = errCodeBits e.err ∧
      (encStatus e).extractLsb' 8 1 = BitVec.ofBool e.busy ∧
      (encStatus e).extractLsb' 9 23 = 0 := by
  unfold encStatus
  refine ⟨?_, ?_, ?_, ?_, ?_⟩
  all_goals repeat rw [BitVec.extractLsb'_append_eq_of_le (by omega)]
  case refine_5 => exact BitVec.extractLsb'_eq_self
  all_goals exact BitVec.extractLsb'_append_eq_right

theorem decStatus_fields (d : Dec) :
    (decStatus d).extractLsb' 0 3 = decPhaseCode d.phase ∧ (decStatus d).extractLsb' 3 1 = 0 ∧
      (decStatus d).extractLsb' 4 4 = errCodeBits d.err ∧
      (decStatus d).extractLsb' 8 1 = BitVec.ofBool d.busy ∧
      (decStatus d).extractLsb' 9 1 = BitVec.ofBool (decide (d.pos = d.inLen)) ∧
      (decStatus d).extractLsb' 10 22 = 0 := by
  unfold decStatus
  refine ⟨?_, ?_, ?_, ?_, ?_, ?_⟩
  all_goals repeat rw [BitVec.extractLsb'_append_eq_of_le (by omega)]
  case refine_6 => exact BitVec.extractLsb'_eq_self
  all_goals exact BitVec.extractLsb'_append_eq_right

theorem hdrWord_fields (nf iv : BitVec 8) (bpp : BitVec 3) :
    (hdrWord nf iv bpp).extractLsb' 0 8 = nf ∧ (hdrWord nf iv bpp).extractLsb' 8 8 = iv ∧
      (hdrWord nf iv bpp).extractLsb' 16 3 = bpp ∧ (hdrWord nf iv bpp).extractLsb' 19 13 = 0 := by
  unfold hdrWord
  refine ⟨?_, ?_, ?_, ?_⟩
  all_goals repeat rw [BitVec.extractLsb'_append_eq_of_le (by omega)]
  case refine_4 => exact BitVec.extractLsb'_eq_self
  all_goals exact BitVec.extractLsb'_append_eq_right

/-- Bit 8 of a word is the one-bit field there. -/
theorem getLsbD_eight_of_field {w : Word} {b : Bool} (h : w.extractLsb' 8 1 = BitVec.ofBool b) :
    w.getLsbD 8 = b := by
  have := congrArg (fun x => x.getLsbD 0) h
  simpa using this

/-- Bit 8 of E_STATUS is BUSY (R25). -/
theorem encStatus_busyBit (e : Enc) : (encStatus e).getLsbD 8 = e.busy := by
  obtain ⟨-, -, -, hbusy, -⟩ := encStatus_fields e
  exact getLsbD_eight_of_field hbusy

/-- Bit 8 of D_STATUS is BUSY (R39). -/
theorem decStatus_busyBit (d : Dec) : (decStatus d).getLsbD 8 = d.busy := by
  obtain ⟨-, -, -, hbusy, -⟩ := decStatus_fields d
  exact getLsbD_eight_of_field hbusy

/-- The command registers, an unaligned offset and an offset that names no register read 0 (R23,
R66). -/
theorem readRegister_eq_zero (s : State) {off : Nat}
    (h : off % 4 ≠ 0 ∨ off = offECmd ∨ off = offDCmd ∨ (0x014 < off ∧ off < 0x100) ∨ 0x114 < off) :
    readRegister s off = 0 := by
  unfold offECmd offDCmd at h
  unfold readRegister
  split
  case h_11 => rfl
  all_goals omega

/-! ## Host writes -/

/-- The command word a write within the window starts (R24, R38). -/
theorem commandOf_regWrite (p : Params) {off : Nat} (w : Word) (h : off < 512) :
    commandOf p (.regWrite (p.blockBase + off) w) =
      if off = offECmd then some (.eCmd w) else if off = offDCmd then some (.dCmd w) else none := by
  simp only [commandOf, windowOffset_base h]

theorem takeEvent_command {ev : HostEvent} {c : Code} {i : Instr} {s : State}
    (hc : commandOf s.params ev = some c) (hi : decode c = .ok i) : takeEvent ev s = exec i s := by
  simp only [takeEvent, hc, hi]

theorem takeEvent_access {ev : HostEvent} {s : State} (hc : commandOf s.params ev = none) :
    takeEvent ev s = .next (hostAccess ev s) := by
  simp only [takeEvent, hc]

/-- A write within the window that is no command word writes the register at its offset (R23,
R28). -/
theorem takeEvent_writeRegister {s : State} {off : Nat} (w : Word) (h : off < 512)
    (hE : off ≠ offECmd) (hD : off ≠ offDCmd) :
    takeEvent (.regWrite (s.params.blockBase + off) w) s = .next (writeRegister off w s) := by
  rw [takeEvent_access (by rw [commandOf_regWrite _ _ h, if_neg hE, if_neg hD])]
  simp only [hostAccess, windowOffset_base h]

section
variable {i : Nat} {s : State} (b : Byte)

/-- A host write within the size of E_PAL stores the entry (R34). -/
theorem writePort_ePal (h : i < palCap) :
    writePort .ePal i b s = { s with enc := { s.enc with pal := s.enc.pal.write i b } } := if_pos h

/-- A host write within the size of E_FIN stores the entry (R35). -/
theorem writePort_eFin (h : i < s.params.npix) :
    writePort .eFin i b s = { s with enc := { s.enc with fin := s.enc.fin.write i b } } := if_pos h

/-- A host write within the size of D_IBUF stores the entry in every phase (R48, R78; log 10). -/
theorem writePort_dIbuf (h : i < s.params.ibufCap) :
    writePort .dIbuf i b s = { s with dec := { s.dec with ibuf := s.dec.ibuf.write i b } } :=
  if_pos h

end

/-! ## What the step takes -/

/-- The host commands: the instructions a word at E_CMD or D_CMD encodes (R101, R102). A token is
none. -/
def isHostCommand : Instr → Prop
  | .same _ => False
  | .diff _ => False
  | _ => True

theorem decodeEnc_isHostCommand {w : Word} {i : Instr} (h : decodeEnc w = .ok i) :
    isHostCommand i := by
  unfold decodeEnc at h
  split at h <;> cases h <;> trivial

theorem decodeDec_isHostCommand {w : Word} {i : Instr} (h : decodeDec w = .ok i) :
    isHostCommand i := by
  unfold decodeDec at h
  split at h <;> cases h <;> trivial

theorem commandOf_ne_wire {p : Params} {ev : HostEvent} {b : Byte} :
    commandOf p ev ≠ some (.wire b) := by
  intro hc
  cases ev with
  | regWrite addr w =>
    simp only [commandOf] at hc
    split at hc
    · split_ifs at hc <;> cases hc
    · cases hc
  | regRead | memWrite | memRead | resetInput => cases hc

/-- A command word stands at E_CMD or at D_CMD (R24, R38), so it encodes no token. -/
theorem decode_commandOf_isHostCommand {p : Params} {ev : HostEvent} {c : Code} {i : Instr}
    (hc : commandOf p ev = some c) (hi : decode c = .ok i) : isHostCommand i := by
  cases c with
  | eCmd w => exact decodeEnc_isHostCommand hi
  | dCmd w => exact decodeDec_isHostCommand hi
  | wire b => exact absurd hc commandOf_ne_wire

/-- Everything a host event can do between commands (R17, R69, R103). -/
theorem takeEvent_cases (ev : HostEvent) (s : State) :
    (∃ i, isHostCommand i ∧ takeEvent ev s = exec i s) ∨
    (∃ e, takeEvent ev s = rejectedCommand e s) ∨
    (commandOf s.params ev = none ∧ takeEvent ev s = .next (hostAccess ev s)) := by
  unfold takeEvent
  cases hc : commandOf s.params ev with
  | none => exact .inr (.inr ⟨rfl, rfl⟩)
  | some c =>
    cases hi : decode c with
    | ok i => exact .inl ⟨i, decode_commandOf_isHostCommand hc hi, by simp [hi]⟩
    | error e => exact .inr (.inl ⟨e, by simp [hi]⟩)

/-! ## The invariant of ENC -/

/-- No bit pending is within the bound of R31 and R45. -/
theorem zero_pending : (0#7).toNat < 2 ^ (0#3).toNat := by decide

/-- Between commands the invariant puts the writer where its laws need it. -/
theorem EncInv.writerOk {p : Params} {e : Enc} (hv : p.valid) (h : EncInv p e) :
    Machine.writerOk p.obufCap e :=
  ⟨hv.2.1.2, h.outBound, h.pending⟩

/-- A unit in its ERROR phase meets the invariant if its error is one of its own and the bounds
hold. -/
theorem EncInv.of_error {p : Params} {e : Enc} {c : ErrCode} (hphase : e.phase = .error)
    (hbusy : e.busy = false)
    (herr : e.err = c)
    (hc : c = .illegalCommand ∨ c = .config ∨ c = .encodeInvariant ∨ c = .outputOverflow)
    (hout : e.outLen.toNat ≤ p.obufCap) (hpending : e.wAcc.toNat < 2 ^ e.wCnt.toNat)
    (hframes : e.frames ≤ e.nframes) (hpal : e.pal.wf palCap = true)
    (hfin : e.fin.wf p.npix = true) (hobuf : e.obuf.wf p.obufCap = true)
    (href : e.ref.wf p.npix = true) : EncInv p e where
  notBusy := hbusy
  errPhase := by rcases hc with rfl | rfl | rfl | rfl <;> simp [herr, hphase]
  errOwn := by rcases hc with rfl | rfl | rfl | rfl <;> simp [herr]
  outBound := hout
  pending := hpending
  aligned := fun h => absurd hphase h
  framesBound := hframes
  idle := by simp [hphase]
  header := by simp [hphase]
  stream := by simp [hphase]
  done := by simp [hphase]
  headerRange := by simp [hphase]
  refLegal := by simp [hphase]
  palWf := hpal
  finWf := hfin
  obufWf := hobuf
  refWf := href

/-- An error raised before any write keeps the invariant (R238). -/
theorem EncInv.after_raise {s : State} {c : ErrCode} (h : EncInv s.params s.enc)
    (hc : c = .illegalCommand ∨ c = .config ∨ c = .encodeInvariant) :
    EncInv s.params (raise .enc c s).enc :=
  .of_error (c := c) rfl rfl rfl (by tauto) h.outBound h.pending h.framesBound h.palWf
    h.finWf h.obufWf h.refWf

/-- OUTPUT_OVERFLOW keeps the invariant: what it leaves free stays within its bounds (log 5). -/
theorem EncInv.after_overflow {s : State} (h : EncInv s.params s.enc) :
    EncInv s.params (raise .enc .outputOverflow (loseEncOutput s)).enc :=
  .of_error (c := .outputOverflow) rfl rfl rfl (by tauto) (freeUpTo_toNat_le 24 _ _)
    (freePending_lt _ _) h.framesBound h.palWf h.finWf rfl h.refWf

/-- Reset registers meet the invariant with any memories in canonical form (R261). -/
theorem EncInv.after_reset {p : Params} {e : Enc} (hpal : e.pal.wf palCap = true)
    (hfin : e.fin.wf p.npix = true) (hobuf : e.obuf.wf p.obufCap = true)
    (href : e.ref.wf p.npix = true) : EncInv p (resetEncRegisters e) where
  notBusy := rfl
  errPhase := ⟨nofun, fun _ => rfl⟩
  errOwn := ⟨nofun, nofun, nofun⟩
  outBound := Nat.zero_le _
  pending := zero_pending
  aligned := fun _ => ⟨rfl, rfl⟩
  framesBound := BitVec.le_refl _
  idle := fun _ => ⟨rfl, rfl, rfl, rfl, rfl⟩
  header := nofun
  stream := nofun
  done := nofun
  headerRange := nofun
  refLegal := nofun
  palWf := hpal
  finWf := hfin
  obufWf := hobuf
  refWf := href

section
variable {p : Params} {e : Enc} {bits : List Bool}

theorem Enc.withOutput_outLen (hv : p.valid)
    (hfit : e.outLen.toNat + (wireBytes bits).length ≤ p.obufCap) :
    (e.withOutput bits).outLen.toNat = e.outLen.toNat + (wireBytes bits).length := by
  have hcap : p.obufCap < 2 ^ 24 := hv.2.1.2
  show (e.outLen + BitVec.ofNat 24 (wireBytes bits).length).toNat = _
  rw [BitVec.toNat_add, BitVec.toNat_ofNat]
  omega

theorem Enc.withOutput_obuf_wf (h : EncInv p e)
    (hfit : e.outLen.toNat + (wireBytes bits).length ≤ p.obufCap) :
    (e.withOutput bits).obuf.wf p.obufCap = true :=
  Mem.writeList_wf _ _ h.obufWf hfit

/-- A header stored from EP_IDLE opens a stream that meets the invariant (R154). -/
theorem EncInv.header_written {nf iv bpp : Byte} (hv : p.valid) (h : EncInv p e)
    (hi : e.phase = .idle) (hnf : 0 < nf.toNat) (hiv : 0 < iv.toNat) (hb : 0 < bpp.toNat)
    (hb8 : bpp.toNat < 8) (hfit : e.outLen.toNat + (wireBytes bits).length ≤ p.obufCap) :
    EncInv p { e.withOutput bits with
      nframes := nf, interval := iv, bpp := bppField bpp, phase := .header } := by
  obtain ⟨-, hframes, -⟩ := h.idle hi
  have herr : e.err = .none := h.errPhase.2 (by simp [hi])
  exact { h with
    errPhase := by simp [Enc.withOutput, herr]
    outBound := (Enc.withOutput_outLen hv hfit).trans_le hfit
    pending := zero_pending
    aligned := fun _ => ⟨rfl, rfl⟩
    framesBound := by
      show e.frames ≤ nf
      bv_omega
    idle := nofun
    header := fun _ => hframes
    stream := nofun
    done := nofun
    headerRange := fun _ =>
      ⟨BitVec.lt_def.2 hnf, BitVec.lt_def.2 hiv, BitVec.lt_def.2 (by simpa [bppField_toNat hb8])⟩
    refLegal := nofun
    obufWf := Enc.withOutput_obuf_wf h hfit }

/-- A frame that was stored becomes a legal reference and advances the lifecycle (R157, R162). -/
theorem EncInv.frame_written {f : List Pixel} (hv : p.valid) (h : EncInv p e)
    (hs : e.phase = .header ∨ e.phase = .stream) (hlen : f.length = p.npix)
    (hf : ∀ v ∈ f, v.toNat < 2 ^ e.bpp.toNat)
    (hfit : e.outLen.toNat + (wireBytes bits).length ≤ p.obufCap) :
    EncInv p (closeEncFrame f (e.withOutput bits)) := by
  have hrange := h.headerRange (by tauto)
  have hlt : e.frames < e.nframes := by
    rcases hs with hs | hs
    · rw [h.header hs]; exact hrange.1
    · exact (h.stream hs).2
  have hnone : e.err = .none := h.errPhase.2 (by rcases hs with hs | hs <;> simp [hs])
  have hphase : (closeEncFrame f (e.withOutput bits)).phase =
      if e.frames + 1 = e.nframes then .done else .stream := rfl
  exact { h with
    errPhase := by rw [hphase]; split <;> simp [closeEncFrame, Enc.withOutput, hnone]
    outBound := (Enc.withOutput_outLen hv hfit).trans_le hfit
    pending := zero_pending
    aligned := fun _ => ⟨rfl, rfl⟩
    framesBound := by
      show e.frames + 1 ≤ e.nframes
      bv_omega
    idle := by rw [hphase]; split <;> nofun
    header := by rw [hphase]; split <;> nofun
    stream := by
      rw [hphase]
      split
      · nofun
      · intro _
        show 0 < e.frames + 1 ∧ e.frames + 1 < e.nframes
        bv_omega
    done := by rw [hphase]; split <;> [exact fun _ => ‹_›; nofun]
    headerRange := fun _ => hrange
    refLegal := fun _ k hk => by
      show ((e.ref.writeList 0 f).read k).toNat < 2 ^ e.bpp.toNat
      rw [Mem.read_writeList, dif_pos ⟨Nat.zero_le k, by omega⟩]
      exact hf _ (List.getElem_mem _)
    obufWf := Enc.withOutput_obuf_wf h hfit
    refWf := Mem.writeList_wf _ _ h.refWf (by omega) }

end

/-! ## The commands of ENC -/

theorem execEncHeader_keeps_encInv {s t : State} {nf iv bpp : Byte} (h : s.Inv)
    (ht : execEncHeader nf iv bpp s = .next t) : EncInv s.params t.enc := by
  rcases execEncHeader_cases nf iv bpp (h.enc.writerOk h.params)
      (fun hp => (h.enc.aligned hp).1) with
    ⟨-, he⟩ | ⟨c, hc, -, he⟩ | ⟨-, he⟩ | ⟨hi, hnf, hiv, hb, hb8, hfit, he⟩ <;>
    cases he.symm.trans ht
  · exact h.enc
  · exact h.enc.after_raise (hc.imp_right .inl)
  · exact h.enc.after_overflow
  · exact h.enc.header_written h.params hi hnf hiv hb hb8
      (by
        rw [wireBytes_byteBits]
        simp only [headerBytes, List.length_cons, Mem.readList_length]
        omega)

theorem execEncFrame_keeps_encInv {s t : State} {len : BitVec 24} (h : s.Inv)
    (ht : execEncFrame len s = .next t) : EncInv s.params t.enc := by
  rcases execEncFrame_cases len (h.enc.writerOk h.params) (fun hp => (h.enc.aligned hp).1) with
    ⟨-, he⟩ | ⟨c, hc, -, he⟩ | ⟨-, he⟩ | ⟨hs, -, hf, hfit, he⟩ <;> cases he.symm.trans ht
  · exact h.enc
  · exact h.enc.after_raise (hc.imp_right .inr)
  · exact h.enc.after_overflow
  · exact h.enc.frame_written h.params hs (frameIn_length _ _) (frameIn_legal hf) hfit

theorem reservedEncCommand_keeps_encInv {s t : State} (h : EncInv s.params s.enc)
    (ht : reservedEncCommand s = .next t) : EncInv s.params t.enc := by
  unfold reservedEncCommand unlessEncError at ht
  split at ht <;> cases ht
  · exact h
  · exact h.after_raise (.inl rfl)


/-! ## The invariant of DEC -/

/-- The invariant keeps the reader's registers as its laws need them. -/
theorem DecInv.readerOk {p : Params} {d : Dec} (h : DecInv p d) : Machine.readerOk d :=
  ⟨h.pending, h.posBound⟩

/-- Outside a run frame DEC is not inside a command (R33). -/
theorem DecInv.notBusy {p : Params} {d : Dec} (h : DecInv p d) (hp : d.phase ≠ .active) :
    d.busy = false := by
  cases hb : d.busy with
  | false => rfl
  | true => exact absurd (h.insideFrame hb).1 hp

/-- A unit in its ERROR phase meets the invariant if its error is one of its own and the bounds
hold. -/
theorem DecInv.of_error {p : Params} {d : Dec} {c : ErrCode} (hphase : d.phase = .error)
    (hbusy : d.busy = false)
    (hpix : d.pix = 0)
    (herr : d.err = c)
    (hc : c = .illegalCommand ∨ c = .config ∨ c = .decodeTruncated ∨ c = .decodeFraming ∨
      c = .decodeTrailing)
    (hin : d.inLen.toNat ≤ p.ibufCap) (hpos : d.pos ≤ d.inLen)
    (hpending : d.rAcc.toNat < 2 ^ d.rCnt.toNat) (hframes : d.frames ≤ d.nframes)
    (hibuf : d.ibuf.wf p.ibufCap = true) (hpal : d.pal.wf palCap = true)
    (hcur : d.cur.wf p.npix = true) : DecInv p d where
  errPhase := by rcases hc with rfl | rfl | rfl | rfl | rfl <;> simp [herr, hphase]
  errOwn := by rcases hc with rfl | rfl | rfl | rfl | rfl <;> simp [herr]
  inBound := hin
  posBound := hpos
  pending := hpending
  aligned := fun h => absurd hphase h
  pixRest := fun _ => hpix
  insideFrame := by simp [hbusy]
  framesBound := hframes
  idle := by simp [hphase]
  active := by simp [hphase]
  allRead := by simp [hphase]
  done := by simp [hphase]
  headerRange := by simp [hphase]
  curLegal := fun h => absurd hphase h
  ibufWf := hibuf
  palWf := hpal
  curWf := hcur

/-- An error raised before any write keeps the invariant (R238). -/
theorem DecInv.after_raise {s : State} {c : ErrCode} (h : DecInv s.params s.dec)
    (hc : c = .illegalCommand ∨ c = .decodeTrailing) :
    DecInv s.params (raise .dec c s).dec :=
  .of_error (c := c) rfl rfl rfl rfl (by tauto) h.inBound h.posBound h.pending
    h.framesBound h.ibufWf h.palWf h.curWf

/-- What a failed DEC_INIT leaves free stays within its bounds (R191, R238; log 5): no frame had
been read, so any frame count of the header is large enough. -/
theorem DecInv.after_loseDecHeader {s : State} {len : BitVec 24} {c : ErrCode}
    (h : DecInv s.params s.dec) (hi : s.dec.phase = .idle) (hl : len.toNat ≤ s.params.ibufCap)
    (hc : c = .decodeTruncated ∨ c = .config) :
    DecInv s.params (raise .dec c (loseDecHeader len s)).dec := by
  obtain ⟨-, -, hframes, -⟩ := h.idle hi
  refine .of_error (c := c) rfl rfl rfl rfl (by tauto) hl
    (BitVec.le_def.2 (freeUpTo_toNat_le 24 _ _)) (freePending_lt _ _) ?_ h.ibufWf rfl h.curWf
  show s.dec.frames ≤ Config.freeBits 8 (s.free + 3)
  bv_omega

/-- A failed DEC_FRAME keeps the invariant, wherever in the stream it failed (R238; log 5). -/
theorem DecInv.after_failDecFrame {s : State} {d : Dec} {c : ErrCode} (h : DecInv s.params s.dec)
    (hd : d = { s.dec with pos := d.pos, rAcc := d.rAcc, rCnt := d.rCnt })
    (hc : c = .decodeFraming ∨ c = .decodeTruncated) :
    DecInv s.params (failDecFrame c { s with dec := d }).dec := by
  rw [hd]
  exact .of_error (c := c) rfl rfl rfl rfl (by tauto) h.inBound
    (BitVec.le_def.2 (freeUpTo_toNat_le 24 _ _)) (freePending_lt _ _) h.framesBound h.ibufWf h.palWf
    rfl

/-- Reset registers meet the invariant with any memories in canonical form (R261). -/
theorem DecInv.after_reset {p : Params} {d : Dec} (hibuf : d.ibuf.wf p.ibufCap = true)
    (hpal : d.pal.wf palCap = true) (hcur : d.cur.wf p.npix = true) :
    DecInv p (resetDecRegisters d) where
  errPhase := ⟨nofun, fun _ => rfl⟩
  errOwn := ⟨nofun, nofun⟩
  inBound := Nat.zero_le _
  posBound := BitVec.le_refl _
  pending := zero_pending
  aligned := fun _ _ => ⟨rfl, rfl⟩
  pixRest := fun _ => rfl
  insideFrame := nofun
  framesBound := BitVec.le_refl _
  idle := fun _ => ⟨rfl, rfl, rfl, rfl, rfl, rfl⟩
  active := nofun
  allRead := nofun
  done := nofun
  headerRange := nofun
  curLegal := nofun
  ibufWf := hibuf
  palWf := hpal
  curWf := hcur

/-- A header that was read opens a stream that meets the invariant (R191, R192). -/
theorem DecInv.header_read {p : Params} {d : Dec} {len : BitVec 24} {nf iv bpp : Byte}
    {pal : List Byte} (h : DecInv p d) (hi : d.phase = .idle) (hl : len.toNat ≤ p.ibufCap)
    (hnf : 0 < nf.toNat) (hiv : 0 < iv.toNat) (hb : 0 < bpp.toNat) (hb8 : bpp.toNat < 8)
    (hpal : pal.length = paletteBytes bpp.toNat) (hfit : 3 + paletteBytes bpp.toNat ≤ len.toNat) :
    DecInv p { startInput len d with
      pos := BitVec.ofNat 24 (3 + paletteBytes bpp.toNat)
      pal := d.pal.writeList 0 pal
      nframes := nf, interval := iv, bpp := bppField bpp, frames := 0, phase := .active } := by
  have hnone : d.err = .none := h.errPhase.2 (by simp [hi])
  have hbusy : d.busy = false := h.notBusy (by simp [hi])
  have hcap : paletteBytes bpp.toNat ≤ palCap := by
    have : 2 ^ bpp.toNat ≤ 2 ^ 7 := Nat.pow_le_pow_right (by omega) (by omega)
    unfold paletteBytes palCap
    omega
  exact { h with
    errPhase := ⟨nofun, fun _ => hnone⟩
    inBound := hl
    posBound := by
      show BitVec.ofNat 24 (3 + paletteBytes bpp.toNat) ≤ len
      rw [BitVec.le_def, BitVec.toNat_ofNat]
      exact (Nat.mod_le _ _).trans hfit
    pending := zero_pending
    aligned := fun _ _ => ⟨rfl, rfl⟩
    insideFrame := fun hb => absurd hb (by simp [startInput, hbusy])
    framesBound := by
      show 0 ≤ nf
      bv_omega
    idle := nofun
    active := fun _ => BitVec.lt_def.2 hnf
    allRead := nofun
    done := nofun
    headerRange := fun _ =>
      ⟨BitVec.lt_def.2 hnf, BitVec.lt_def.2 hiv, BitVec.lt_def.2 (by simpa [bppField_toNat hb8])⟩
    curLegal := fun _ hf => absurd hf (BitVec.lt_irrefl (0#8))
    palWf := Mem.writeList_wf _ _ h.palWf (by omega) }

/-! ## The invariant along a frame -/

section
variable {s : State} {d : Dec} {cur : Mem 7} {pix : Nat}

/-- The end of a frame keeps the invariant: the count advances within NFRAMES, and D_CUR holds legal
pixels throughout (R200, R205). -/
theorem DecInv.after_finishFrame (h : DecInv s.params s.dec) (ha : s.dec.phase = .active)
    (hd : d = { s.dec with pos := d.pos, rAcc := d.rAcc, rCnt := d.rCnt }) (ho : Machine.readerOk d)
    (hwf : cur.wf s.params.npix = true)
    (hlegal : ∀ k < s.params.npix, (cur.read k).toNat < 2 ^ s.dec.bpp.toNat) :
    DecInv s.params
      (finishFrame { s with dec := { d with cur := cur, pix := pix } }).dec := by
  have hnone : s.dec.err = .none := h.errPhase.2 (by simp [ha])
  have hlt := h.active ha
  have hpos := ho.2
  rw [hd] at hpos ⊢
  generalize d.pos = pos at hpos ⊢
  generalize d.rAcc = rAcc
  generalize d.rCnt = rCnt
  have hphase : (finishFrame { s with dec := { s.dec with
      pos := pos, rAcc := rAcc, rCnt := rCnt, cur := cur, pix := pix } }).dec.phase =
      if s.dec.frames + 1 = s.dec.nframes then .allRead else .active := rfl
  exact { h with
    errPhase := ⟨fun _ => by rw [hphase]; split <;> nofun, fun _ => hnone⟩
    posBound := hpos
    pending := zero_pending
    aligned := fun _ _ => ⟨rfl, rfl⟩
    pixRest := fun _ => rfl
    insideFrame := nofun
    framesBound := by
      show s.dec.frames + 1 ≤ s.dec.nframes
      bv_omega
    idle := by rw [hphase]; split <;> nofun
    active := by
      rw [hphase]
      split
      · nofun
      · intro _
        show s.dec.frames + 1 < s.dec.nframes
        bv_omega
    allRead := by
      rw [hphase]
      split
      · exact fun _ => ‹_›
      · nofun
    done := by rw [hphase]; split <;> nofun
    headerRange := fun _ => h.headerRange (.inl ha)
    curLegal := fun _ _ => hlegal
    curWf := hwf }

/-- A token that leaves pixels to cover keeps the invariant inside the frame (R196, R205). -/
theorem DecInv.after_token (h : DecInv s.params s.dec) (hb : s.dec.busy = true)
    (hd : d = { s.dec with pos := d.pos, rAcc := d.rAcc, rCnt := d.rCnt }) (ho : Machine.readerOk d)
    (hwf : cur.wf s.params.npix = true)
    (hlegal : ∀ k < s.params.npix, (cur.read k).toNat < 2 ^ s.dec.bpp.toNat)
    (hpix : pix < s.params.npix) :
    DecInv s.params { d with cur := cur, pix := pix } := by
  obtain ⟨ha, hf, -⟩ := h.insideFrame hb
  have hnb : s.dec.busy ≠ false := by simp [hb]
  obtain ⟨hacc, hpos⟩ := ho
  rw [hd] at hacc hpos ⊢
  exact { h with
    posBound := hpos
    pending := hacc
    aligned := fun _ hb' => absurd hb' hnb
    pixRest := fun hb' => absurd hb' hnb
    insideFrame := fun _ => ⟨ha, hf, hpix⟩
    idle := by simp [ha]
    done := by simp [ha]
    curLegal := fun _ _ => hlegal
    curWf := hwf }

/-- Opening a run frame keeps the invariant (R196). -/
theorem DecInv.after_openRunFrame (hv : s.params.valid) (h : DecInv s.params s.dec)
    (ha : s.dec.phase = .active) (hf : s.dec.frames ≠ 0) :
    DecInv s.params (openRunFrame s).dec := by
  have hpix : 0 < s.params.npix := hv.1.1
  rw [openRunFrame, settle_within hpix]
  exact { h with
    aligned := nofun
    pixRest := nofun
    insideFrame := fun _ => ⟨ha, by bv_omega, hpix⟩ }

end

/-- Fields of `bpp` bits are legal pixels (R97). -/
theorem pixelFields_legal {bpp n : Nat} {bits : List Bool} (v : Pixel)
    (hv : v ∈ pixelFields bpp n bits) : v.toNat < 2 ^ bpp := by
  simp only [pixelFields, List.mem_map] at hv
  obtain ⟨_, ⟨k, -, rfl⟩, rfl⟩ := hv
  rw [BitVec.toNat_ofNat]
  exact (Nat.mod_le _ _).trans_lt (fieldAt_lt _ _ _)

/-- Legal pixels stored over legal pixels leave legal pixels (R205). -/
theorem Mem.writeList_legal {m : Mem 7} {n b p : Nat} {vs : List Pixel}
    (hm : ∀ k < n, (m.read k).toNat < 2 ^ b) (hvs : ∀ v ∈ vs, v.toNat < 2 ^ b) :
    ∀ k < n, ((m.writeList p vs).read k).toNat < 2 ^ b := by
  intro k hk
  rw [Mem.read_writeList]
  split
  · exact hvs _ (List.getElem_mem _)
  · exact hm k hk


/-! ## The commands and tokens of DEC -/

/-- An operation that acts on ENC keeps the invariant if it keeps ENC's part. -/
theorem State.Inv.of_enc {s t : State} (h : s.Inv) (hc : ChangesOnly .enc s t)
    (he : EncInv s.params t.enc) : t.Inv := by
  obtain ⟨hp, -, -⟩ := hc.params_host_rdata
  exact ⟨hp ▸ h.params, hp ▸ he, by rw [hp, hc.dec_eq]; exact h.dec⟩

/-- An operation that acts on DEC keeps the invariant if it keeps DEC's part. -/
theorem State.Inv.of_dec {s t : State} (h : s.Inv) (hc : ChangesOnly .dec s t)
    (hd : DecInv s.params t.dec) : t.Inv := by
  obtain ⟨hp, -, -⟩ := hc.params_host_rdata
  exact ⟨hp ▸ h.params, by rw [hp, hc.enc_eq]; exact h.enc, hp ▸ hd⟩

/-- One token cycle inside a run frame keeps the invariant: it fails, ends the frame, or leaves
pixels to cover (R196). -/
theorem tokenCycle_keeps_inv {s t : State} (h : s.Inv) (hb : s.dec.busy = true)
    (ht : tokenCycle runToken s = .next t) : t.Inv := by
  refine h.of_dec ((tokenCycle_actsOnUnit s).of_next ht).1 ?_
  obtain ⟨ha, hf, -⟩ := h.dec.insideFrame hb
  rcases tokenCycle_cases h.dec.readerOk with
    ⟨c, d, hc, hd, he⟩ | ⟨n, d, vs, -, -, hle, hd, ho, -, hlen, hvs, he⟩ <;> cases he.symm.trans ht
  · exact h.dec.after_failDecFrame hd hc
  · have hwf := Mem.writeList_wf s.dec.pix vs h.dec.curWf (by omega)
    have hlegal := Mem.writeList_legal (p := s.dec.pix)
      (h.dec.curLegal (by simp [ha]) hf) hvs
    have hbd : d.busy = true := by rw [hd]; exact hb
    by_cases hfull : s.params.npix ≤ s.dec.pix + n
    · rw [settle_done hbd hfull]
      exact h.dec.after_finishFrame ha hd ho hwf hlegal
    · have hlt : s.dec.pix + n < s.params.npix := by omega
      rw [settle_within hlt]
      exact h.dec.after_token hb hd ho hwf hlegal hlt

theorem decodeRunsLoop_keeps_inv {fuel : Nat} {s t : State} (h : s.Inv)
    (ht : decodeRunsLoop fuel s = .next t) : t.Inv := by
  induction fuel generalizing s with
  | zero => cases ht; exact h
  | succ fuel ih =>
    cases hb : s.dec.busy with
    | false => rw [decodeRunsLoop_idle _ hb] at ht; cases ht; exact h
    | true =>
      obtain ⟨u, hu⟩ := (tokenCycle_actsOnUnit s).next_exists
      rw [decodeRunsLoop, if_pos hb, hu] at ht
      exact ih (tokenCycle_keeps_inv h hb hu) ht

theorem execDecInit_keeps_decInv {s t : State} {len : BitVec 24} (h : DecInv s.params s.dec)
    (ht : execDecInit len s = .next t) : DecInv s.params t.dec := by
  rcases execDecInit_cases (s := s) len with
    ⟨-, he⟩ | ⟨-, he⟩ | ⟨c, hc, hi, hl, he⟩ | ⟨hi, hl, hnf, hiv, hb, hb8, hfit, he⟩ <;>
    cases he.symm.trans ht
  · exact h
  · exact h.after_raise (.inl rfl)
  · exact h.after_loseDecHeader hi hl hc
  · exact h.header_read hi hl hnf hiv hb hb8 (Mem.readList_length _ _ _) hfit

/-- A literal frame overwrites D_CUR whole; a run frame is the loop of token cycles from the opened
frame (R195, R196). -/
theorem execDecFrame_keeps_inv {s t : State} (h : s.Inv) (ht : execDecFrame s = .next t) :
    t.Inv := by
  have hc := ((execDecFrame_actsOnUnit s).of_next ht).1
  rcases execDecFrame_cases h.dec.readerOk with
    ⟨-, he⟩ | ⟨-, he⟩ | ⟨-, -, he⟩ | ⟨ha, -, d, hd, he⟩ | ⟨ha, hf, he⟩
  · cases he.symm.trans ht
    exact h
  · cases he.symm.trans ht
    exact h.of_dec hc (h.dec.after_raise (.inl rfl))
  · cases he.symm.trans ht
    exact h.of_dec hc (h.dec.after_failDecFrame rfl (.inr rfl))
  · cases he.symm.trans ht
    refine h.of_dec hc (h.dec.after_finishFrame ha hd.1 hd.ok
      (Mem.writeList_wf _ _ h.dec.curWf (by simp)) fun k hk => ?_)
    rw [Mem.read_writeList, dif_pos ⟨Nat.zero_le k, by simpa using hk⟩]
    exact pixelFields_legal _ (List.getElem_mem _)
  · exact decodeRunsLoop_keeps_inv
      (h.of_dec (openRunFrame_changesOnly_dec s) (h.dec.after_openRunFrame h.params ha hf))
      (he.symm.trans ht)

theorem execDecCheckEnd_keeps_decInv {s t : State} (h : DecInv s.params s.dec)
    (ht : execDecCheckEnd s = .next t) : DecInv s.params t.dec := by
  rcases execDecCheckEnd_cases s with ⟨-, he⟩ | ⟨c, hc, -, he⟩ | ⟨hi, hpos, he⟩ <;>
    cases he.symm.trans ht
  · exact h
  · exact h.after_raise hc
  · have hne : s.dec.phase ≠ .error := by simp [hi]
    have hnone : s.dec.err = .none := h.errPhase.2 hne
    have hbusy : s.dec.busy = false := h.notBusy (by simp [hi])
    exact { h with
      errPhase := ⟨nofun, fun _ => hnone⟩
      aligned := fun _ => h.aligned hne
      insideFrame := fun hb => absurd hb (by simp [hbusy])
      idle := nofun
      active := nofun
      allRead := fun _ => h.allRead (.inl hi)
      done := fun _ => hpos
      headerRange := fun _ => h.headerRange (.inr (.inl hi))
      curLegal := fun _ => h.curLegal hne }

theorem reservedDecCommand_keeps_decInv {s t : State} (h : DecInv s.params s.dec)
    (ht : reservedDecCommand s = .next t) : DecInv s.params t.dec := by
  unfold reservedDecCommand unlessDecError at ht
  split at ht <;> cases ht
  · exact h
  · exact h.after_raise (.inl rfl)

/-! ## The invariant along a step -/

/-- The invariant does not read the host's list (log 2). -/
theorem State.Inv.with_host {s : State} (h : s.Inv) (events : List HostEvent) :
    State.Inv { s with host := events } := ⟨h.params, h.enc, h.dec⟩

theorem exec_command_keeps_inv {i : Instr} {s t : State} (hi : isHostCommand i) (h : s.Inv)
    (ht : exec i s = .next t) : t.Inv := by
  have hc := ((exec_actsOnUnit i s).of_next ht).1
  cases i with
  | encReset =>
    cases ht
    exact h.of_enc hc (.after_reset h.enc.palWf h.enc.finWf h.enc.obufWf h.enc.refWf)
  | encHeader nf iv bpp => exact h.of_enc hc (execEncHeader_keeps_encInv h ht)
  | encFrame len => exact h.of_enc hc (execEncFrame_keeps_encInv h ht)
  | decReset =>
    cases ht
    exact h.of_dec hc (.after_reset h.dec.ibufWf h.dec.palWf h.dec.curWf)
  | decInit len => exact h.of_dec hc (execDecInit_keeps_decInv h.dec ht)
  | decFrame => exact execDecFrame_keeps_inv h ht
  | decCheckEnd => exact h.of_dec hc (execDecCheckEnd_keeps_decInv h.dec ht)
  | same n => exact hi.elim
  | diff n => exact hi.elim

theorem rejectedCommand_keeps_inv {e : DecodeError} {s t : State} (h : s.Inv)
    (ht : rejectedCommand e s = .next t) : t.Inv := by
  cases e with
  | reservedEncOp op =>
    exact h.of_enc ((reservedEncCommand_actsOnUnit s).of_next ht).1
      (reservedEncCommand_keeps_encInv h.enc ht)
  | reservedDecOp op =>
    exact h.of_dec ((reservedDecCommand_actsOnUnit s).of_next ht).1
      (reservedDecCommand_keeps_decInv h.dec ht)

theorem writePort_keeps_inv {m : HostMem} {i : Nat} {b : Byte} {s : State} (h : s.Inv) :
    (writePort m i b s).Inv := by
  rcases writePort_cases m i b s with he | ⟨hi, he⟩ | ⟨hi, he⟩ | ⟨hi, he⟩ <;> rw [he]
  · exact h
  · exact ⟨h.params, { h.enc with palWf := Mem.write_wf i b h.enc.palWf hi }, h.dec⟩
  · exact ⟨h.params, { h.enc with finWf := Mem.write_wf i b h.enc.finWf hi }, h.dec⟩
  · exact ⟨h.params, h.enc, { h.dec with ibufWf := Mem.write_wf i b h.dec.ibufWf hi }⟩

theorem writeRegister_keeps_inv {off : Nat} {w : Word} {s : State} (h : s.Inv) :
    (writeRegister off w s).Inv := by
  unfold writeRegister
  split
  · exact ⟨h.params, { h.enc with }, h.dec⟩
  · exact h

theorem hostAccess_keeps_inv (ev : HostEvent) {s : State} (h : s.Inv) : (hostAccess ev s).Inv := by
  cases ev with
  | regWrite addr w =>
    simp only [hostAccess]
    split
    · exact writeRegister_keeps_inv h
    · exact h
  | regRead addr =>
    simp only [hostAccess]
    split
    · exact ⟨h.params, h.enc, h.dec⟩
    · exact h
  | memWrite m i b => exact writePort_keeps_inv h
  | memRead m i => exact ⟨h.params, h.enc, h.dec⟩
  | resetInput =>
    exact ⟨h.params, .after_reset (e := .afterReset s.free) rfl rfl rfl rfl,
      .after_reset (d := .afterReset (s.free + 4)) rfl rfl rfl⟩

theorem takeEvent_keeps_inv {ev : HostEvent} {s t : State} (h : s.Inv)
    (ht : takeEvent ev s = .next t) : t.Inv := by
  rcases takeEvent_cases ev s with ⟨i, hi, he⟩ | ⟨e, he⟩ | ⟨-, he⟩
  · exact exec_command_keeps_inv hi h (he.symm.trans ht)
  · exact rejectedCommand_keeps_inv h (he.symm.trans ht)
  · cases he.symm.trans ht
    exact hostAccess_keeps_inv ev h

/-! ## BUSY (R33) -/

theorem execDecInit_notBusy {s t : State} {len : BitVec 24} (hb : s.dec.busy = false)
    (ht : execDecInit len s = .next t) : t.dec.busy = false := by
  rcases execDecInit_cases (s := s) len with
    ⟨-, he⟩ | ⟨-, he⟩ | ⟨c, -, -, -, he⟩ | ⟨-, -, -, -, -, -, -, he⟩ <;> cases he.symm.trans ht
  · exact hb
  · rfl
  · rfl
  · exact hb

/-- DEC_FRAME runs whole: it leaves no run frame in progress, since its loop covers every pixel
(R17, R196). -/
theorem execDecFrame_notBusy {s t : State} (h : s.Inv) (hb : s.dec.busy = false)
    (ht : execDecFrame s = .next t) : t.dec.busy = false := by
  rcases execDecFrame_cases h.dec.readerOk with
    ⟨-, he⟩ | ⟨-, he⟩ | ⟨-, -, he⟩ | ⟨-, -, d, -, he⟩ | ⟨ha, hf, he⟩
  · cases he.symm.trans ht
    exact hb
  · cases he.symm.trans ht
    rfl
  · cases he.symm.trans ht
    rfl
  · cases he.symm.trans ht
    rfl
  · have hopen := h.dec.after_openRunFrame h.params ha hf
    obtain ⟨hparams, -, -⟩ := (openRunFrame_changesOnly_dec s).params_host_rdata
    refine decodeRunsLoop_ends hopen.readerOk (fun hb' => ?_) ?_ (he.symm.trans ht)
    · rw [hparams]
      exact (hopen.insideFrame hb').2.2
    · rw [hparams]
      exact Nat.le_add_left _ _

theorem execDecCheckEnd_notBusy {s t : State} (hb : s.dec.busy = false)
    (ht : execDecCheckEnd s = .next t) : t.dec.busy = false := by
  rcases execDecCheckEnd_cases s with ⟨-, he⟩ | ⟨c, -, -, he⟩ | ⟨-, -, he⟩ <;>
    cases he.symm.trans ht
  · exact hb
  · rfl
  · exact hb

/-- Every command runs whole: it leaves DEC outside a run frame (R17, R70). -/
theorem exec_command_notBusy {i : Instr} {s t : State} (hi : isHostCommand i) (h : s.Inv)
    (hb : s.dec.busy = false) (ht : exec i s = .next t) : t.dec.busy = false := by
  have hc := ((exec_actsOnUnit i s).of_next ht).1
  cases i with
  | encReset | encHeader | encFrame => rw [hc.dec_eq, hb]
  | decReset => cases ht; rfl
  | decInit len => exact execDecInit_notBusy hb ht
  | decFrame => exact execDecFrame_notBusy h hb ht
  | decCheckEnd => exact execDecCheckEnd_notBusy hb ht
  | same n => exact hi.elim
  | diff n => exact hi.elim

theorem rejectedCommand_notBusy {e : DecodeError} {s t : State} (hb : s.dec.busy = false)
    (ht : rejectedCommand e s = .next t) : t.dec.busy = false := by
  cases e with
  | reservedEncOp op => rw [((reservedEncCommand_actsOnUnit s).of_next ht).1.dec_eq, hb]
  | reservedDecOp op =>
    simp only [rejectedCommand, reservedDecCommand, unlessDecError] at ht
    split at ht <;> cases ht
    · exact hb
    · rfl

theorem hostAccess_notBusy (ev : HostEvent) {s : State} (hb : s.dec.busy = false) :
    (hostAccess ev s).dec.busy = false := by
  cases ev with
  | regWrite addr w =>
    simp only [hostAccess, writeRegister]
    split
    · split <;> exact hb
    · exact hb
  | regRead addr =>
    simp only [hostAccess]
    split <;> exact hb
  | memWrite m i b =>
    rcases writePort_cases m i b s with he | ⟨-, he⟩ | ⟨-, he⟩ | ⟨-, he⟩ <;>
      exact (congrArg (·.dec.busy) he).trans hb
  | memRead m i => exact hb
  | resetInput => rfl

theorem takeEvent_notBusy {ev : HostEvent} {s t : State} (h : s.Inv) (hb : s.dec.busy = false)
    (ht : takeEvent ev s = .next t) : t.dec.busy = false := by
  rcases takeEvent_cases ev s with ⟨i, hi, he⟩ | ⟨e, he⟩ | ⟨-, he⟩
  · exact exec_command_notBusy hi h hb (he.symm.trans ht)
  · exact rejectedCommand_notBusy hb (he.symm.trans ht)
  · cases he.symm.trans ht
    exact hostAccess_notBusy ev hb

theorem step_notBusy {s t : State} (h : s.Inv) (hb : s.dec.busy = false) (ht : step s = .next t) :
    t.dec.busy = false := by
  cases hh : s.host with
  | nil =>
    cases (step_wait hb hh).symm.trans ht
    exact hb
  | cons ev rest =>
    exact takeEvent_notBusy (h.with_host rest) hb ((step_event hb hh).symm.trans ht)

/-! ## The cursor along DEC_FRAME (R22, R44) -/

theorem settle_pos (s : State) : (settle s).dec.pos = s.dec.pos := by
  unfold settle
  split <;> rfl

theorem settle_readerOk {s : State} (h : readerOk s.dec) : readerOk (settle s).dec := by
  unfold settle
  split
  · exact align_readerOk h.2
  · exact h

theorem openRunFrame_readerOk {s : State} (h : readerOk s.dec) : readerOk (openRunFrame s).dec :=
  settle_readerOk (s := { s with dec := { s.dec with busy := true, pix := 0 } }) h

/-- The loop of token cycles moves the cursor forward within the input, or fails (R22, R44). -/
theorem decodeRunsLoop_cursor {fuel : Nat} {s t : State} (ho : readerOk s.dec)
    (ht : decodeRunsLoop fuel s = .next t) (hp : t.dec.phase ≠ .error) :
    s.dec.pos ≤ t.dec.pos ∧ t.dec.pos ≤ t.dec.inLen := by
  induction fuel generalizing s with
  | zero => cases ht; exact ⟨BitVec.le_refl _, ho.2⟩
  | succ fuel ih =>
    cases hb : s.dec.busy with
    | false =>
      cases (decodeRunsLoop_idle _ hb).symm.trans ht
      exact ⟨BitVec.le_refl _, ho.2⟩
    | true =>
      rw [decodeRunsLoop, if_pos hb] at ht
      rcases tokenCycle_cases ho with
        ⟨c, d, -, -, he⟩ | ⟨n, d, vs, -, -, -, -, hok, hpos, -, -, he⟩ <;> simp only [he] at ht
      · cases (decodeRunsLoop_idle _ rfl).symm.trans ht
        exact absurd rfl hp
      · obtain ⟨hfwd, hin⟩ := ih (settle_readerOk hok) ht
        rw [settle_pos] at hfwd
        exact ⟨BitVec.le_trans hpos hfwd, hin⟩

/-! ## The bits of a frame -/

/-- The bits ENC_FRAME stores, in the terms of the wire format (R155). -/
theorem frameBits_eq (npix : Nat) (e : Enc) :
    frameBits npix e =
      if e.frames = 0 then pixelBits e.bpp.toNat (pixelsOf (e.fin.readList 0 npix))
      else runsBits e.bpp.toNat
        (chooseRuns (pixelsOf (e.fin.readList 0 npix)) (e.ref.readList 0 npix)) := by
  have hzero : e.frames.toNat = 0 ↔ e.frames = 0 :=
    ⟨fun h => BitVec.eq_of_toNat_eq h, fun h => by rw [h]; rfl⟩
  unfold frameBits
  simp only [hzero]
  rfl

/-! ## The obligations -/

/-- Settles O55, by what the step finds: a token of a run frame, no event, or an event to take. -/
theorem everyStepKeepsTheInvariant : Obligations.EveryStepKeepsTheInvariant := by
  intro s t h ht
  cases hb : s.dec.busy with
  | true => exact tokenCycle_keeps_inv h hb ((step_token hb).symm.trans ht)
  | false =>
    cases hh : s.host with
    | nil =>
      cases (step_wait hb hh).symm.trans ht
      exact h
    | cons ev rest =>
      exact takeEvent_keeps_inv (h.with_host rest) ((step_event hb hh).symm.trans ht)

/-- Settles O15: the step takes the write, and the port stores it. -/
theorem hostMemoryWriteStoresOneEntry : Obligations.HostMemoryWriteStoresOneEntry := by
  intro s rest i b hb
  have hstep {m : HostMem} {t : State} (hh : s.host = .memWrite m i b :: rest)
      (ht : writePort m i b { s with host := rest } = t) : step s = .next t :=
    (step_event hb hh).trans (congrArg Host.Outcome.next ht)
  exact ⟨
    fun hh hi => ⟨_, hstep hh (writePort_ePal b hi), Mem.storesAt_writeList _ i [b], rfl⟩,
    fun hh hi => ⟨_, hstep hh (writePort_eFin b hi), Mem.storesAt_writeList _ i [b], rfl⟩,
    fun hh hi => ⟨_, hstep hh (writePort_dIbuf b hi), Mem.storesAt_writeList _ i [b], rfl⟩⟩

/-- Settles O16: BUSY of ENC is part of the invariant, and no command leaves a run frame in
progress. -/
theorem busyReadsZero : Obligations.BusyReadsZero := by
  intro s h
  refine ⟨(encStatus_busyBit s.enc).trans h.enc.notBusy, fun hb t ht => ?_⟩
  have hdec := step_notBusy h hb ht
  have henc := (everyStepKeepsTheInvariant s t h ht).enc.notBusy
  exact ⟨hdec, henc, (encStatus_busyBit t.enc).trans henc, (decStatus_busyBit t.dec).trans hdec⟩

/-- Settles O28: the checks pass, and the packed bytes of the frame do not fit. -/
theorem encFrameOverflow : Obligations.EncFrameOverflow := by
  intro s len hs ⟨hcnt, hacc, hout, hcap⟩ hlen hfin f bits hfull
  have ho : writerOk s.params.obufCap s.enc :=
    ⟨hcap, hout, by rw [hcnt, hacc]; exact zero_pending⟩
  have hne : s.enc.phase ≠ .error := by rcases hs with hs | hs <;> simp [hs]
  have hbits : bits = frameBits s.params.npix s.enc := (frameBits_eq _ _).symm
  rw [hbits] at hfull
  have hover : encodeFrame s.params s.enc = .error .outputOverflow := by
    rcases encodeFrame_cases ho hcnt hfin with ⟨-, he⟩ | ⟨hfit, -⟩
    · exact he
    · omega
  refine ⟨raise .enc .outputOverflow (loseEncOutput s), ?_, rfl, freeUpTo_toNat_le 24 _ _⟩
  show execEncFrame len s = _
  unfold execEncFrame
  rw [ErrorPhase.enc_other _ hne, if_pos hs, if_pos ((frameValid_iff _ _ _).2 ⟨hlen, hfin⟩), hover]

/-- Settles O47: a literal frame reads forward, and so does every token cycle of a run frame. -/
theorem decFrameMovesTheCursorForward : Obligations.DecFrameMovesTheCursorForward := by
  intro s t ⟨hcnt, hacc, hpos⟩ ht hp
  have ho : readerOk s.dec := ⟨by rw [hcnt, hacc]; exact zero_pending, hpos⟩
  rcases execDecFrame_cases ho with
    ⟨herr, he⟩ | ⟨-, he⟩ | ⟨-, -, he⟩ | ⟨-, -, d, ⟨-, hok, hfwd, -⟩, he⟩ | ⟨-, -, he⟩
  · cases he.symm.trans ht
    exact absurd herr hp
  · cases he.symm.trans ht
    exact absurd rfl hp
  · cases he.symm.trans ht
    exact absurd rfl hp
  · cases he.symm.trans ht
    exact ⟨hfwd, hok.2⟩
  · have hopen : readerOk (openRunFrame s).dec := openRunFrame_readerOk ho
    obtain ⟨hfwd, hin⟩ := decodeRunsLoop_cursor hopen (he.symm.trans ht) hp
    rw [openRunFrame, settle_pos] at hfwd
    exact ⟨hfwd, hin⟩

/-- Settles O5: the event is a command word, and the step takes it whole. -/
theorem stepRunsTheCommandTheHostWrites : Obligations.StepRunsTheCommandTheHostWrites := by
  intro s w rest i hb
  refine ⟨fun hh hi => ?_, fun hh hi => ?_⟩
  · rw [step_event hb hh]
    exact takeEvent_command (commandOf_regWrite s.params w (off := offECmd) (by decide)) hi
  · rw [step_event hb hh]
    exact takeEvent_command (commandOf_regWrite s.params w (off := offDCmd) (by decide)) hi

/-- Settles O12, from the fields of the register words. -/
theorem registerReadsShowTheirFields : Obligations.RegisterReadsShowTheirFields := by
  unfold Obligations.RegisterReadsShowTheirFields
  intro encNumber decNumber errNumber s
  have hEnc : (encPhaseCode s.enc.phase).toNat = encNumber s.enc.phase := by
    cases s.enc.phase <;> rfl
  have hDec : (decPhaseCode s.dec.phase).toNat = decNumber s.dec.phase := by
    cases s.dec.phase <;> rfl
  have hErr (c : ErrCode) : (errCodeBits c).toNat = errNumber c := by cases c <;> rfl
  obtain ⟨ePhase, eGap, eErr, eBusy, eTop⟩ := encStatus_fields s.enc
  obtain ⟨dPhase, dGap, dErr, dBusy, dEof, dTop⟩ := decStatus_fields s.dec
  exact ⟨⟨(congrArg _ ePhase).trans hEnc, eGap, (congrArg _ eErr).trans (hErr _), eBusy, eTop⟩,
    ⟨(congrArg _ dPhase).trans hDec, dGap, (congrArg _ dErr).trans (hErr _), dBusy, dEof, dTop⟩,
    hdrWord_fields _ _ _, hdrWord_fields _ _ _,
    BitVec.toNat_setWidth_of_le (by omega), BitVec.toNat_setWidth_of_le (by omega),
    BitVec.toNat_setWidth_of_le (by omega), BitVec.toNat_setWidth_of_le (by omega),
    BitVec.toNat_setWidth_of_le (by omega), BitVec.toNat_setWidth_of_le (by omega)⟩

/-- Settles O13: E_PAL_LEN is the one register a write reaches. -/
theorem onlyPaletteLengthIsWritable : Obligations.OnlyPaletteLengthIsWritable := by
  refine ⟨fun s w off rest hb hoff hE hD hh => ?_, fun s off h => readRegister_eq_zero s h⟩
  rw [step_event hb hh]
  refine (takeEvent_writeRegister (s := { s with host := rest }) w hoff hE hD).trans ?_
  unfold writeRegister offEPalLen
  split <;> rfl

end Sys2Proof.Machine

/-!
The memories as the host and the decoder reach them (20_memory.md). A port answers and stores only
within a memory's size, and E_REF has no port (R60, R67). The decoder reads D_IBUF at its cursor
alone, and the cursor never moves back, so an entry it has passed is never read again (R78).
`Dec.past` is what the reader keeps along DEC_FRAME, and `SkipsEntry` what each operation of the run
loop then has.
-/

namespace Sys2Proof.Machine

/-! ## The memory ports -/

/-- D_CUR's entry is zero-extended to a byte (R50). -/
theorem hostMemEntry_dCur (s : State) (i : Nat) :
    hostMemEntry s .dCur i = 0#1 ++ s.dec.cur.read i :=
  BitVec.setWidth_eq_append (by omega)

/-- What the host may not write through a port: the three read-only memories, and no entry at or
beyond a memory's size (R67). -/
theorem writePort_ignored {m : HostMem} {i : Nat} (b : Byte) {s : State}
    (h : m = .eObuf ∨ m = .dPal ∨ m = .dCur ∨ hostMemSize s.params m ≤ i) :
    writePort m i b s = s := by
  unfold writePort
  split
  next hi =>
    cases m with
    | eObuf | dPal | dCur => rfl
    | ePal | eFin | dIbuf =>
      rcases h with h | h | h | h
      · cases h
      · cases h
      · cases h
      · omega
  next => rfl

theorem writePort_ref (m : HostMem) (i : Nat) (b : Byte) (s : State) :
    (writePort m i b s).enc.ref = s.enc.ref := by
  rcases writePort_cases m i b s with he | ⟨-, he⟩ | ⟨-, he⟩ | ⟨-, he⟩ <;> rw [he]

theorem writeRegister_ref (off : Nat) (w : Word) (s : State) :
    (writeRegister off w s).enc.ref = s.enc.ref := by
  unfold writeRegister
  split <;> rfl

/-- No host access but the reset input reaches E_REF (R67). -/
theorem hostAccess_ref {ev : HostEvent} (s : State) (hev : ev ≠ .resetInput) :
    (hostAccess ev s).enc.ref = s.enc.ref := by
  cases ev with
  | regWrite addr w =>
    simp only [hostAccess]
    split
    · exact writeRegister_ref _ w s
    · rfl
  | regRead addr =>
    simp only [hostAccess]
    split <;> rfl
  | memWrite m i b => exact writePort_ref m i b s
  | memRead m i => rfl
  | resetInput => exact absurd rfl hev

/-- E_REF is seen through no register (R67). -/
theorem readRegister_with_ref (s : State) (ref : Mem 7) (off : Nat) :
    readRegister { s with enc := { s.enc with ref := ref } } off = readRegister s off := by
  unfold readRegister
  split <;> rfl

/-- E_REF is seen through no memory port (R67). -/
theorem readPort_with_ref (s : State) (ref : Mem 7) (m : HostMem) (i : Nat) :
    readPort { s with enc := { s.enc with ref := ref } } m i = readPort s m i := by
  cases m <;> rfl

/-! ## Reading past an entry of D_IBUF -/

/-- Entry `i` of D_IBUF replaced by `b`, as the host may do at any time (R78). -/
def Dec.pokeInput (i : Nat) (b : Byte) (d : Dec) : Dec := { d with ibuf := d.ibuf.write i b }

/-- Entry `i` of D_IBUF replaced by `b`, in the state. -/
def State.pokeInput (i : Nat) (b : Byte) (s : State) : State :=
  { s with dec := s.dec.pokeInput i b }

section
variable (i : Nat) (b : Byte) (d : Dec) (s : State)

@[simp] theorem Dec.pokeInput_bpp : (d.pokeInput i b).bpp = d.bpp := rfl
@[simp] theorem Dec.pokeInput_pix : (d.pokeInput i b).pix = d.pix := rfl
@[simp] theorem Dec.pokeInput_frames : (d.pokeInput i b).frames = d.frames := rfl
@[simp] theorem Dec.pokeInput_phase : (d.pokeInput i b).phase = d.phase := rfl
@[simp] theorem State.pokeInput_dec : (s.pokeInput i b).dec = s.dec.pokeInput i b := rfl
@[simp] theorem State.pokeInput_params : (s.pokeInput i b).params = s.params := rfl

end

/-- The cursor stands above entry `i`, within the input (R44). -/
def Dec.past (i : Nat) (d : Dec) : Prop := d.pos ≤ d.inLen ∧ i < d.pos.toNat

/-- A byte the reader has yet to pull is not the replaced one. -/
theorem Dec.past.read_write {i : Nat} {d : Dec} (h : d.past i) (b : Byte) :
    (d.ibuf.write i b).read d.pos.toNat = d.ibuf.read d.pos.toNat :=
  Mem.read_write_other _ _ (Nat.ne_of_gt h.2)

/-- Pulling a byte keeps the cursor above the entry: it stops at D_IN_LEN, so it does not wrap
(R129, R131). -/
theorem Dec.past.pull {i : Nat} {d : Dec} (h : d.past i) (hne : d.pos ≠ d.inLen) :
    Dec.past i { d with pos := d.pos + 1 } := by
  obtain ⟨hle, hi⟩ := h
  have hlt : d.pos < d.inLen := BitVec.lt_of_le_ne hle hne
  constructor
  · show d.pos + 1 ≤ d.inLen
    bv_omega
  · show i < (d.pos + 1).toNat
    bv_omega

/-- ReadBits that needs a byte and finds one pulls it at the cursor (R129, R130). -/
theorem readBits_pull {n : Nat} {d : Dec} (hcnt : d.rCnt.toNat < n) (hne : d.pos ≠ d.inLen) :
    readBits n d =
      .ok (takeBits n (d.rAcc.toNat ||| ((d.ibuf.read d.pos.toNat).toNat <<< d.rCnt.toNat))
        (d.rCnt.toNat + 8) { d with pos := d.pos + 1 }) :=
  (if_pos hcnt).trans (if_neg hne)

/-- At `d`, a read answers the same with entry `i` of D_IBUF replaced by `b`, and leaves the cursor
above that entry. -/
def ReadSkips {α : Type} (i : Nat) (b : Byte) (f : Dec → Except ErrCode (α × Dec)) (d : Dec) :
    Prop :=
  (∃ c, f d = .error c ∧ f (d.pokeInput i b) = .error c) ∨
  (∃ v d', d'.past i ∧ f d = .ok (v, d') ∧ f (d.pokeInput i b) = .ok (v, d'.pokeInput i b))

section
variable {i : Nat} (b : Byte) {d : Dec}

theorem readBits_skips (n : Nat) (h : d.past i) : ReadSkips i b (readBits n) d := by
  by_cases hcnt : d.rCnt.toNat < n
  · by_cases hend : d.pos = d.inLen
    · exact .inl ⟨.decodeTruncated, (if_pos hcnt).trans (if_pos hend),
        (if_pos hcnt).trans (if_pos hend)⟩
    · refine .inr ⟨_, _, ?_, readBits_pull hcnt hend,
        (readBits_pull (d := d.pokeInput i b) hcnt hend).trans ?_⟩
      · exact h.pull hend
      · simp only [Dec.pokeInput, h.read_write b]
        rfl
  · exact .inr ⟨(takeBits n d.rAcc.toNat d.rCnt.toNat d).1,
      (takeBits n d.rAcc.toNat d.rCnt.toNat d).2, h, if_neg hcnt, if_neg hcnt⟩

theorem readFields_skips (n count : Nat) (h : d.past i) : ReadSkips i b (readFields n count) d := by
  induction count generalizing d with
  | zero => exact .inr ⟨[], d, h, rfl, rfl⟩
  | succ count ih =>
    rcases readBits_skips b n h with ⟨c, he, he'⟩ | ⟨v, d1, h1, he, he'⟩
    · exact .inl ⟨c, by simp only [readFields, he], by simp only [readFields, he']⟩
    · rcases ih h1 with ⟨c, hr, hr'⟩ | ⟨vs, d2, h2, hr, hr'⟩
      · exact .inl ⟨c, by simp only [readFields, he, hr], by simp only [readFields, he', hr']⟩
      · exact .inr ⟨v :: vs, d2, h2, by simp only [readFields, he, hr],
          by simp only [readFields, he', hr']⟩

theorem fetchRunHeader_skips (h : d.past i) : ReadSkips i b fetchRunHeader d := by
  rcases readBits_skips b 1 h with ⟨c, he, he'⟩ | ⟨mode, d1, h1, he, he'⟩
  · exact .inl ⟨c, by simp only [fetchRunHeader, he], by simp only [fetchRunHeader, he']⟩
  · rcases readBits_skips b 7 h1 with ⟨c, hr, hr'⟩ | ⟨lf, d2, h2, hr, hr'⟩
    · exact .inl ⟨c, by simp only [fetchRunHeader, he, hr],
        by simp only [fetchRunHeader, he', hr']⟩
    · exact .inr ⟨runHeader mode lf, d2, h2, by simp only [fetchRunHeader, he, hr],
        by simp only [fetchRunHeader, he', hr']⟩

/-- The pixels a frame or a DIFF stores are read above the entry too (R195, R199). -/
theorem readPixels_skips (p n : Nat) (h : d.past i) :
    (∃ c, readPixels p n d = .error c ∧ readPixels p n (d.pokeInput i b) = .error c) ∨
    (∃ d', d'.past i ∧ readPixels p n d = .ok d' ∧
      readPixels p n (d.pokeInput i b) = .ok (d'.pokeInput i b)) := by
  rcases readFields_skips b d.bpp.toNat n h with ⟨c, he, he'⟩ | ⟨vs, d', hd, he, he'⟩
  · exact .inl ⟨c, by simp only [readPixels, he], by simp only [readPixels, Dec.pokeInput_bpp, he']⟩
  · exact .inr ⟨{ d' with cur := d'.cur.writeList p (vs.map (BitVec.ofNat 7)) }, hd,
      by simp only [readPixels, he], by simp only [readPixels, Dec.pokeInput_bpp, he']; rfl⟩

end

/-! ## The run loop past an entry of D_IBUF -/

/-- At `s`, `f` answers the same with entry `i` of D_IBUF replaced by `b`, but for that entry, and if
it leaves a run frame in progress then with the cursor above the entry. An error ends the frame with
a free cursor (R238, log 5). -/
def SkipsEntry (i : Nat) (b : Byte) (f : State → Host.Outcome State Fault Refusal) (s : State) :
    Prop :=
  ∃ t, (t.dec.busy = true → t.dec.past i) ∧
    f s = .next t ∧ f (s.pokeInput i b) = .next (t.pokeInput i b)

section
variable {i : Nat} (b : Byte) {s : State}

theorem execSame_skipsEntry (n : Nat) (h : s.dec.past i) : SkipsEntry i b (execSame n) s := by
  by_cases hp : s.params.npix < s.dec.pix + n
  · exact ⟨failDecFrame .decodeFraming s, nofun, if_pos hp, if_pos hp⟩
  · exact ⟨{ s with dec := { s.dec with pix := s.dec.pix + n } }, fun _ => h, if_neg hp, if_neg hp⟩

theorem execDiff_skipsEntry (n : Nat) (h : s.dec.past i) : SkipsEntry i b (execDiff n) s := by
  by_cases hp : s.params.npix < s.dec.pix + n
  · exact ⟨failDecFrame .decodeFraming s, nofun, if_pos hp, if_pos hp⟩
  rcases readPixels_skips b s.dec.pix n h with ⟨c, he, he'⟩ | ⟨d, hd, he, he'⟩
  · exact ⟨failDecFrame c s, nofun, by simp [execDiff, hp, he], by simp [execDiff, hp, he']; rfl⟩
  · exact ⟨{ s with dec := { d with pix := s.dec.pix + n } }, fun _ => hd,
      by simp [execDiff, hp, he], by simp [execDiff, hp, he']; rfl⟩

theorem runToken_skipsEntry (w : Byte) (h : s.dec.past i) : SkipsEntry i b (runToken w) s := by
  by_cases hm : modeField w = 1
  · obtain ⟨t, ht, he, he'⟩ := execDiff_skipsEntry b (runLength (headerLengthField w)) h
    exact ⟨t, ht, (if_pos hm).trans he, (if_pos hm).trans he'⟩
  · obtain ⟨t, ht, he, he'⟩ := execSame_skipsEntry b (runLength (headerLengthField w)) h
    exact ⟨t, ht, (if_neg hm).trans he, (if_neg hm).trans he'⟩

theorem settle_pokeInput (s : State) : settle (s.pokeInput i b) = (settle s).pokeInput i b := by
  by_cases h : s.dec.busy = true ∧ s.params.npix ≤ s.dec.pix
  · rw [show settle s = finishFrame s from if_pos h]
    exact if_pos h
  · rw [show settle s = s from if_neg h]
    exact if_neg h

theorem settle_past (h : s.dec.busy = true → s.dec.past i) (hb : (settle s).dec.busy = true) :
    (settle s).dec.past i := by
  unfold settle at hb ⊢
  split at hb
  next => cases hb
  next hs =>
    rw [if_neg hs]
    exact h hb

theorem tokenCycle_skipsEntry (h : s.dec.past i) : SkipsEntry i b (tokenCycle runToken) s := by
  rcases fetchRunHeader_skips b h with ⟨c, he, he'⟩ | ⟨w, d, hd, he, he'⟩
  · exact ⟨failDecFrame c s, nofun, by simp only [tokenCycle, he],
      by simp [tokenCycle, he']; rfl⟩
  · obtain ⟨t, ht, hr, hr'⟩ := runToken_skipsEntry (s := { s with dec := d }) b w hd
    have hrun : runToken w { s.pokeInput i b with dec := d.pokeInput i b } =
        .next (t.pokeInput i b) := hr'
    have hfetch : fetchRunHeader (s.pokeInput i b).dec = .ok (w, d.pokeInput i b) := he'
    exact ⟨settle t, settle_past ht, by simp only [tokenCycle, he, hr],
      by simp only [tokenCycle, hfetch, hrun, settle_pokeInput]⟩

theorem decodeRunsLoop_skipsEntry (fuel : Nat) (h : s.dec.busy = true → s.dec.past i) :
    SkipsEntry i b (decodeRunsLoop fuel) s := by
  induction fuel generalizing s with
  | zero => exact ⟨s, h, rfl, rfl⟩
  | succ fuel ih =>
    cases hb : s.dec.busy with
    | false => exact ⟨s, h, decodeRunsLoop_idle _ hb, decodeRunsLoop_idle _ hb⟩
    | true =>
      obtain ⟨t, ht, hc, hc'⟩ := tokenCycle_skipsEntry b (h hb)
      obtain ⟨v, hv, hl, hl'⟩ := ih ht
      have hb' : (s.pokeInput i b).dec.busy = true := hb
      exact ⟨v, hv, by rw [decodeRunsLoop, if_pos hb, hc]; exact hl,
        by rw [decodeRunsLoop, if_pos hb', hc']; exact hl'⟩

/-- In DP_ERROR a command changes nothing, so it skips what its body skips (R239). -/
theorem SkipsEntry.unlessDecError {f : State → Host.Outcome State Fault Refusal}
    (h : s.dec.past i) (hf : SkipsEntry i b f s) :
    SkipsEntry i b (fun t => Machine.unlessDecError t (f t)) s := by
  by_cases he : s.dec.phase = .error
  · exact ⟨s, fun _ => h, ErrorPhase.dec _ he, ErrorPhase.dec _ he⟩
  · obtain ⟨t, ht, hs, hs'⟩ := hf
    exact ⟨t, ht, (ErrorPhase.dec_other _ he).trans hs,
      (ErrorPhase.dec_other (s := s.pokeInput i b) _ he).trans hs'⟩

/-- DEC_FRAME, errors included, does not depend on an entry the cursor has passed (R78). -/
theorem execDecFrame_skipsEntry (h : s.dec.past i) : SkipsEntry i b execDecFrame s := by
  refine .unlessDecError b h ?_
  by_cases ha : s.dec.phase ≠ .active
  · exact ⟨raise .dec .illegalCommand s, nofun, if_pos ha, if_pos ha⟩
  by_cases hz : s.dec.frames.toNat = 0
  · rcases readPixels_skips b 0 s.params.npix h with ⟨c, he, he'⟩ | ⟨d, -, he, he'⟩
    · exact ⟨failDecFrame c s, nofun, by simp [ha, hz, he], by simp [ha, hz, he']; rfl⟩
    · exact ⟨finishFrame { s with dec := d }, nofun, by simp [ha, hz, he],
        by simp [ha, hz, he']; rfl⟩
  · obtain ⟨t, ht, he, he'⟩ :=
      decodeRunsLoop_skipsEntry (s := openRunFrame s) b s.params.npix (settle_past fun _ => h)
    have hopen : openRunFrame (s.pokeInput i b) = (openRunFrame s).pokeInput i b :=
      settle_pokeInput b { s with dec := { s.dec with busy := true, pix := 0 } }
    rw [← hopen] at he'
    exact ⟨t, ht, ((if_neg ha).trans (if_neg hz)).trans he,
      ((if_neg ha).trans (if_neg hz)).trans he'⟩

end

/-! ## The obligations -/

/-- Settles O14: the port ignores the write, and E_REF is behind no access and no read. -/
theorem hostMemoryAccessRules : Obligations.HostMemoryAccessRules := by
  intro s rest hb
  refine ⟨fun m i b hh h => ?_, fun m i h => readPort_beyond h, fun ev t hh hc hev ht => ?_,
    fun s' hs => ?_⟩
  · rw [step_event hb hh]
    exact congrArg Host.Outcome.next (writePort_ignored b h)
  · rw [step_event hb hh, takeEvent_access (s := { s with host := rest }) hc] at ht
    cases ht
    exact hostAccess_ref _ hev
  · rw [hs]
    exact ⟨readRegister_with_ref s _, readPort_with_ref s _⟩

/-- Settles O48: DEC_FRAME skips every entry below its cursor. -/
theorem inputBelowTheCursorIsNotReadAgain : Obligations.InputBelowTheCursorIsNotReadAgain := by
  intro s t i b hpos hi ht
  obtain ⟨t', -, he, he'⟩ := execDecFrame_skipsEntry b ⟨hpos, hi⟩
  cases he.symm.trans ht
  exact he'

/-- Settles O11: the step takes the read, and a port within the memory's size reads its entry. -/
theorem hostReadsHaveNoSideEffect : Obligations.HostReadsHaveNoSideEffect := by
  refine ⟨fun s rest hb => ⟨fun off hoff hh => ?_, fun m i hh => ?_⟩, fun s i =>
    ⟨readPort_within (m := .ePal), readPort_within (m := .eFin), readPort_within (m := .eObuf),
      readPort_within (m := .dIbuf), readPort_within (m := .dPal),
      fun h => (readPort_within h).trans (hostMemEntry_dCur s i)⟩⟩
  · rw [step_event hb hh, takeEvent_access rfl]
    simp only [hostAccess, windowOffset_base hoff]
    rfl
  · rw [step_event hb hh, takeEvent_access rfl]
    rfl

end Sys2Proof.Machine

/-!
The encoding of commands and run headers (30_encoding.md). The decoder gets one equation per OP of
each port (R101 to R103) and one per MODE of a run header (R93). A command word is its operand bits
above its OP, so the two directions of decode and encode follow from what OP and operands of an
appended word are, and from what masking leaves of a word. The step on a reserved word and on a token
then needs only what the word decodes to.
-/

namespace Sys2Proof.Machine

/-! ## The decoder, one equation per OP (R101 to R103) -/

section
variable {w : Word}

theorem decodeEnc_encReset (h : (opField w).toNat = 1) : decodeEnc w = .ok .encReset := by
  simp only [decodeEnc, h]

theorem decodeEnc_encHeader (h : (opField w).toNat = 2) : decodeEnc w =
    .ok (.encHeader (w.extractLsb' 8 8) (w.extractLsb' 16 8) (w.extractLsb' 24 8)) := by
  simp only [decodeEnc, h]

theorem decodeEnc_encFrame (h : (opField w).toNat = 3) :
    decodeEnc w = .ok (.encFrame (w.extractLsb' 8 24)) := by
  simp only [decodeEnc, h]

theorem decodeEnc_reserved (h : (opField w).toNat = 0 ∨ 4 ≤ (opField w).toNat) :
    decodeEnc w = .error (.reservedEncOp (opField w)) := by
  unfold decodeEnc
  split
  case h_4 => rfl
  all_goals omega

theorem decodeDec_decReset (h : (opField w).toNat = 1) : decodeDec w = .ok .decReset := by
  simp only [decodeDec, h]

theorem decodeDec_decInit (h : (opField w).toNat = 2) :
    decodeDec w = .ok (.decInit (w.extractLsb' 8 24)) := by
  simp only [decodeDec, h]

theorem decodeDec_decFrame (h : (opField w).toNat = 3) : decodeDec w = .ok .decFrame := by
  simp only [decodeDec, h]

theorem decodeDec_decCheckEnd (h : (opField w).toNat = 4) : decodeDec w = .ok .decCheckEnd := by
  simp only [decodeDec, h]

theorem decodeDec_reserved (h : (opField w).toNat = 0 ∨ 5 ≤ (opField w).toNat) :
    decodeDec w = .error (.reservedDecOp (opField w)) := by
  unfold decodeDec
  split
  case h_5 => rfl
  all_goals omega

/-- The ENC commands a word can decode to (R101), each by its OP. -/
theorem decodeEnc_ok_cases {i : Instr} (h : decodeEnc w = .ok i) :
    ((opField w).toNat = 1 ∧ i = .encReset) ∨
    ((opField w).toNat = 2 ∧
      i = .encHeader (w.extractLsb' 8 8) (w.extractLsb' 16 8) (w.extractLsb' 24 8)) ∨
    ((opField w).toNat = 3 ∧ i = .encFrame (w.extractLsb' 8 24)) := by
  unfold decodeEnc at h
  split at h
  next hop => cases h; exact .inl ⟨hop, rfl⟩
  next hop => cases h; exact .inr (.inl ⟨hop, rfl⟩)
  next hop => cases h; exact .inr (.inr ⟨hop, rfl⟩)
  next => cases h

/-- The DEC commands a word can decode to (R102), each by its OP. -/
theorem decodeDec_ok_cases {i : Instr} (h : decodeDec w = .ok i) :
    ((opField w).toNat = 1 ∧ i = .decReset) ∨
    ((opField w).toNat = 2 ∧ i = .decInit (w.extractLsb' 8 24)) ∨
    ((opField w).toNat = 3 ∧ i = .decFrame) ∨
    ((opField w).toNat = 4 ∧ i = .decCheckEnd) := by
  unfold decodeDec at h
  split at h
  next hop => cases h; exact .inl ⟨hop, rfl⟩
  next hop => cases h; exact .inr (.inl ⟨hop, rfl⟩)
  next hop => cases h; exact .inr (.inr (.inl ⟨hop, rfl⟩))
  next hop => cases h; exact .inr (.inr (.inr ⟨hop, rfl⟩))
  next => cases h

end

/-! ## Run headers (R93, R94, R104) -/

theorem runLength_bounds {f : Nat} (h : f < 128) : 1 ≤ runLength f ∧ runLength f ≤ 128 := by
  unfold runLength
  split <;> omega

theorem lengthField_runLength {f : Nat} (h : f < 128) : lengthField (runLength f) = f := by
  unfold lengthField runLength
  split <;> omega

theorem headerLengthField_lt (h : Byte) : headerLengthField h < 128 := by
  rw [headerLengthField_toNat]
  have := h.isLt
  omega

theorem decodeRunHeader_same {h : Byte} (hm : modeField h = 0) :
    decodeRunHeader h = .same (runLength (headerLengthField h)) :=
  if_neg (by omega)

theorem decodeRunHeader_diff {h : Byte} (hm : modeField h = 1) :
    decodeRunHeader h = .diff (runLength (headerLengthField h)) := if_pos hm

theorem modeField_cases (h : Byte) : modeField h = 0 ∨ modeField h = 1 := by
  rw [modeField_toNat]
  omega

/-- The run header of a run of `n` pixels decodes to its MODE's token of that length (R93, R94). -/
theorem decodeRunHeader_runHeader {mode n : Nat} (hm : mode < 2) (hn : runLengthOk n = true) :
    decodeRunHeader (runHeader mode (lengthField n)) = if mode = 1 then .diff n else .same n := by
  obtain ⟨h1, h2⟩ := (runLengthOk_iff n).1 hn
  unfold decodeRunHeader
  rw [modeField_runHeader hm (lengthField_lt n), headerLengthField_runHeader hm (lengthField_lt n),
    runLength_lengthField h1 h2]

/-- A run header is made of its own two fields (R93). -/
theorem runHeader_fields (h : Byte) : runHeader (modeField h) (headerLengthField h) = h := by
  apply BitVec.eq_of_toNat_eq
  have hm : modeField h < 2 := by rcases modeField_cases h with hm | hm <;> omega
  rw [runHeader_toNat hm (headerLengthField_lt h), modeField_toNat, headerLengthField_toNat]
  omega

/-- A run header is the word of the token it decodes to, and uses all its bits (R93, R104). -/
theorem encode_decodeRunHeader (h : Byte) :
    (decodeRunHeader h).wf = true ∧ usedBits (decodeRunHeader h) = 0x000000FF#32 ∧
      encode (decodeRunHeader h) = .wire h := by
  have hok := (runLengthOk_iff _).2 (runLength_bounds (headerLengthField_lt h))
  have hfields := runHeader_fields h
  rcases modeField_cases h with hm | hm
  · rw [decodeRunHeader_same hm, encode, lengthField_runLength (headerLengthField_lt h), ← hm,
      hfields]
    exact ⟨hok, rfl, rfl⟩
  · rw [decodeRunHeader_diff hm, encode, lengthField_runLength (headerLengthField_lt h), ← hm,
      hfields]
    exact ⟨hok, rfl, rfl⟩

/-! ## Command words (R100) -/

/-- A command word made of operand bits and a low byte has its OP in that byte. -/
theorem opField_append (hi : BitVec 24) (lo : BitVec 8) :
    opField (hi ++ lo) = lo.extractLsb' 0 4 :=
  BitVec.extractLsb'_append_eq_of_add_le (by omega)

/-- The three operands of ENC_HEADER at their places in its word (R101). -/
theorem headerCommand_fields (nf iv bpp : Byte) :
    let w : Word := bpp ++ iv ++ nf ++ 0x02#8
    w.extractLsb' 8 8 = nf ∧ w.extractLsb' 16 8 = iv ∧ w.extractLsb' 24 8 = bpp := by
  refine ⟨?_, ?_, ?_⟩
  all_goals repeat rw [BitVec.extractLsb'_append_eq_of_le (by omega)]
  case refine_3 => exact BitVec.extractLsb'_eq_self
  all_goals exact BitVec.extractLsb'_append_eq_right

/-- A word is its operand bits, its bits 7 to 4 and its OP. -/
theorem word_eq_append (w : Word) :
    w = w.extractLsb' 8 24 ++ (w.extractLsb' 4 4 ++ opField w) := by
  have hbyte : w.extractLsb' 4 4 ++ opField w = w.extractLsb' 0 8 :=
    BitVec.extractLsb'_append_extractLsb'_eq_extractLsb' rfl
  have hword : w.extractLsb' 8 24 ++ w.extractLsb' 0 8 = w.extractLsb' 0 32 :=
    BitVec.extractLsb'_append_extractLsb'_eq_extractLsb' rfl
  rw [hbyte, hword, BitVec.extractLsb'_eq_self]

theorem opField_eq_ofNat {w : Word} {op : Nat} (h : (opField w).toNat = op) :
    opField w = BitVec.ofNat 4 op := by
  rw [← h, BitVec.ofNat_toNat, BitVec.setWidth_eq]

/-- What is left of a command word without operands (R100). -/
theorem and_opMask {w : Word} {op : Nat} (h : (opField w).toNat = op) :
    w &&& 0x0000000F#32 = 0#24 ++ (0#4 ++ BitVec.ofNat 4 op) := by
  have hmask : 0x0000000F#32 = 0#24 ++ (0#4 ++ BitVec.allOnes 4) := by decide
  rw [word_eq_append w, hmask, BitVec.and_append, BitVec.and_append, BitVec.and_allOnes,
    BitVec.and_zero, BitVec.and_zero, opField_eq_ofNat h]

/-- What is left of a command word whose operands fill bits 31 to 8 (R100). -/
theorem and_operandMask {w : Word} {op : Nat} (h : (opField w).toNat = op) :
    w &&& 0xFFFFFF0F#32 = w.extractLsb' 8 24 ++ (0#4 ++ BitVec.ofNat 4 op) := by
  have hmask : 0xFFFFFF0F#32 = BitVec.allOnes 24 ++ (0#4 ++ BitVec.allOnes 4) := by decide
  conv_lhs => rw [word_eq_append w, hmask]
  rw [BitVec.and_append, BitVec.and_append, BitVec.and_allOnes, BitVec.and_allOnes,
    BitVec.and_zero, opField_eq_ofNat h]

/-- The three operands of ENC_HEADER fill bits 31 to 8 of its word (R101). -/
theorem headerOperands_append (w : Word) :
    w.extractLsb' 24 8 ++ w.extractLsb' 16 8 ++ w.extractLsb' 8 8 = w.extractLsb' 8 24 := by
  have hhigh : w.extractLsb' 24 8 ++ w.extractLsb' 16 8 = w.extractLsb' 16 16 :=
    BitVec.extractLsb'_append_extractLsb'_eq_extractLsb' rfl
  have hall : w.extractLsb' 16 16 ++ w.extractLsb' 8 8 = w.extractLsb' 8 24 :=
    BitVec.extractLsb'_append_extractLsb'_eq_extractLsb' rfl
  rw [hhigh, hall]

/-- A word E_CMD accepts, with its unused bits written as 0, is its instruction's own (R100, R101). -/
theorem encode_decodeEnc {w : Word} {i : Instr} (h : decodeEnc w = .ok i) :
    i.wf = true ∧ encode i = .eCmd (w &&& usedBits i) := by
  rcases decodeEnc_ok_cases h with ⟨hop, rfl⟩ | ⟨hop, rfl⟩ | ⟨hop, rfl⟩
  · exact ⟨rfl, congrArg Code.eCmd (and_opMask hop).symm⟩
  · have hword := congrArg (· ++ 0x02#8) (headerOperands_append w)
    exact ⟨rfl, congrArg Code.eCmd (hword.trans (and_operandMask hop).symm)⟩
  · exact ⟨rfl, congrArg Code.eCmd (and_operandMask hop).symm⟩

/-- A word D_CMD accepts, with its unused bits written as 0, is its instruction's own (R100, R102). -/
theorem encode_decodeDec {w : Word} {i : Instr} (h : decodeDec w = .ok i) :
    i.wf = true ∧ encode i = .dCmd (w &&& usedBits i) := by
  rcases decodeDec_ok_cases h with ⟨hop, rfl⟩ | ⟨hop, rfl⟩ | ⟨hop, rfl⟩ | ⟨hop, rfl⟩
  · exact ⟨rfl, congrArg Code.dCmd (and_opMask hop).symm⟩
  · exact ⟨rfl, congrArg Code.dCmd (and_operandMask hop).symm⟩
  · exact ⟨rfl, congrArg Code.dCmd (and_opMask hop).symm⟩
  · exact ⟨rfl, congrArg Code.dCmd (and_opMask hop).symm⟩

/-! ## Reserved words and tokens at the step -/

theorem takeEvent_rejected {ev : HostEvent} {c : Code} {e : DecodeError} {s : State}
    (hc : commandOf s.params ev = some c) (he : decode c = .error e) :
    takeEvent ev s = rejectedCommand e s := by
  simp only [takeEvent, hc, he]

theorem reservedEncCommand_eq (s : State) : reservedEncCommand s =
    .next (if s.enc.phase = .error then s else raise .enc .illegalCommand s) :=
  (apply_ite Host.Outcome.next _ _ _).symm

theorem reservedDecCommand_eq (s : State) : reservedDecCommand s =
    .next (if s.dec.phase = .error then s else raise .dec .illegalCommand s) :=
  (apply_ite Host.Outcome.next _ _ _).symm

/-- The token cycle whose fetch and token answer ends in the settled state (R196). -/
theorem tokenCycle_next {s t : State} {h : Byte} {d : Dec} (hf : fetchRunHeader s.dec = .ok (h, d))
    (ht : runToken h { s with dec := d } = .next t) : tokenCycle runToken s = .next (settle t) := by
  simp only [tokenCycle, hf, ht]

/-! ## The size of a run frame (R108) -/

theorem runPixels_le {bpp : Nat} {run : Run} (h : runOk bpp run = true) : runPixels run ≤ 128 := by
  cases run with
  | same n =>
    exact ((runLengthOk_iff n).1 h).2
  | diff literals =>
    rw [runOk, Bool.and_eq_true, runLengthOk_iff] at h
    exact h.1.2

theorem runsPixels_le {bpp : Nat} {runs : List Run} (h : ∀ run ∈ runs, runOk bpp run = true) :
    runsPixels runs ≤ 128 * runs.length := by
  induction runs with
  | nil => simp
  | cons run runs ih =>
    have hrun : runPixels run ≤ 128 := runPixels_le (h run List.mem_cons_self)
    have hruns := ih fun r hr => h r (List.mem_cons_of_mem _ hr)
    rw [runsPixels_cons, List.length_cons]
    omega

theorem runBits_length_le (bpp : Nat) (run : Run) :
    (runBits bpp run).length ≤ 8 + bpp * runPixels run := by
  rw [(runBits_length bpp run).2]
  cases run with
  | same n => exact Nat.le_add_right 8 _
  | diff literals => exact (congrArg (8 + ·) (Nat.mul_comm _ _)).le

/-- Each run takes one header byte, and each pixel at most one literal (R93, R95, R96). -/
theorem runsBits_length_bounds (bpp : Nat) (runs : List Run) :
    8 * runs.length ≤ (runsBits bpp runs).length ∧
      (runsBits bpp runs).length ≤ 8 * runs.length + bpp * runsPixels runs := by
  induction runs with
  | nil => simp
  | cons run runs ih =>
    obtain ⟨hlow, hhigh⟩ := ih
    have hheader := (runBits_length bpp run).1
    have hbits := runBits_length_le bpp run
    rw [runsBits_cons, runsPixels_cons, List.length_append, List.length_cons, Nat.mul_add bpp]
    omega

/-- The chosen runs are tokens, whatever the frame: an entry of a frame buffer has 7 bits (R50). -/
theorem chooseRuns_runOk (f r : List Pixel) : ∀ run ∈ chooseRuns f r, runOk 7 run = true :=
  chooseRuns_ok 7 f r fun v _ => v.isLt

theorem chooseRuns_pixels (f r : List Pixel) : runsPixels (chooseRuns f r) = f.length :=
  chooseRunsFuel_pixels f.length f r le_rfl

/-! ## The obligations -/

/-- Settles O1, by the port and the fields of each constructor's word. -/
theorem encodedInstructionDecodesToItself : Obligations.EncodedInstructionDecodesToItself := by
  intro i hi
  cases i with
  | encReset => exact decodeEnc_encReset (w := 0x00000001#32) (by decide)
  | encHeader nf iv bpp =>
    obtain ⟨hnf, hiv, hbpp⟩ := headerCommand_fields nf iv bpp
    have hop := congrArg BitVec.toNat (opField_append (bpp ++ iv ++ nf) 0x02#8)
    refine (decodeEnc_encHeader hop).trans ?_
    rw [hnf, hiv, hbpp]
  | encFrame len =>
    have hop := congrArg BitVec.toNat (opField_append len 0x03#8)
    refine (decodeEnc_encFrame hop).trans ?_
    rw [BitVec.extractLsb'_append_eq_left]
  | decReset => exact decodeDec_decReset (w := 0x00000001#32) (by decide)
  | decInit len =>
    have hop := congrArg BitVec.toNat (opField_append len 0x02#8)
    refine (decodeDec_decInit hop).trans ?_
    rw [BitVec.extractLsb'_append_eq_left]
  | decFrame => exact decodeDec_decFrame (w := 0x00000003#32) (by decide)
  | decCheckEnd => exact decodeDec_decCheckEnd (w := 0x00000004#32) (by decide)
  | same n => exact congrArg Except.ok (decodeRunHeader_runHeader (by decide) hi)
  | diff n => exact congrArg Except.ok (decodeRunHeader_runHeader (by decide) hi)

/-- Settles O2, by the port a word stands at. -/
theorem decodedWordIsTheEncodingUpToUnusedBits :
    Obligations.DecodedWordIsTheEncodingUpToUnusedBits := by
  refine ⟨fun c i h => ?_, fun w => ⟨decodeEnc_encReset, decodeEnc_encHeader, decodeEnc_encFrame,
    decodeDec_decReset, decodeDec_decInit, decodeDec_decFrame, decodeDec_decCheckEnd⟩,
    fun h => ⟨fun hm => ?_, fun hm => ?_⟩⟩
  · cases c with
    | eCmd w => exact encode_decodeEnc h
    | dCmd w => exact encode_decodeDec h
    | wire b =>
      cases h
      obtain ⟨hwf, hused, henc⟩ := encode_decodeRunHeader b
      rw [hused]
      exact ⟨hwf, henc.trans (congrArg Code.wire BitVec.and_allOnes.symm)⟩
  · rw [← modeField_toNat] at hm
    rw [decode, decodeRunHeader_same hm, headerLengthField_toNat, runLength]
  · rw [← modeField_toNat] at hm
    rw [decode, decodeRunHeader_diff hm, headerLengthField_toNat, runLength]

/-- Settles O8: the word decodes to no instruction, and the unit rejects it. -/
theorem reservedCommandIsIllegal : Obligations.ReservedCommandIsIllegal := by
  intro s w rest hb
  refine ⟨fun hh hop => ?_, fun hh hop => ?_⟩
  · have hc := commandOf_regWrite s.params w (off := offECmd) (by decide)
    rw [step_event hb hh]
    exact (takeEvent_rejected (s := { s with host := rest }) hc (decodeEnc_reserved hop)).trans
      (reservedEncCommand_eq _)
  · have hc := commandOf_regWrite s.params w (off := offDCmd) (by decide)
    rw [step_event hb hh]
    exact (takeEvent_rejected (s := { s with host := rest }) hc (decodeDec_reserved hop)).trans
      (reservedDecCommand_eq _)

/-- Settles O35: the runs are at least a 128th of the pixels and at most as many. -/
theorem runFrameSizeBounds : Obligations.RunFrameSizeBounds := by
  intro f r bpp _
  have hok := chooseRuns_runOk f r
  have hfew := length_le_runsPixels hok
  have hmany := runsPixels_le hok
  obtain ⟨hlow, hhigh⟩ := runsBits_length_bounds bpp (chooseRuns f r)
  rw [chooseRuns_pixels] at hfew hmany hhigh
  rw [wireBytes_length]
  omega

/-- Settles O3: each word evaluates to its instruction. -/
theorem sampleWordsDecode : Obligations.SampleWordsDecode := by
  unfold Obligations.SampleWordsDecode
  decide

/-- Settles O4, from the two inverse laws of R94's maps. -/
theorem lengthFieldIsABijection : Obligations.LengthFieldIsABijection := by
  refine ⟨fun n h1 h2 => ⟨rfl, lengthField_lt n, runLength_lengthField h1 h2⟩, fun f hf => ?_⟩
  obtain ⟨hpos, hmax⟩ := runLength_bounds hf
  exact ⟨fun h0 => if_pos h0, fun h0 => if_neg h0, hpos, hmax, lengthField_runLength hf⟩

/-- Settles O6: the fetch takes the eight bits, and the token of a header is its instruction. -/
theorem stepRunsTheTokenAtTheCursor : Obligations.StepRunsTheTokenAtTheCursor := by
  intro s hb ho hlen
  rcases fetchRunHeader_cases ho with ⟨hshort, -⟩ | ⟨d, hf, hframe, -, -, -, hrest⟩
  · omega
  · refine ⟨d, hframe, hrest, fun i hi t ht => ?_⟩
    cases hi
    rw [step_token hb]
    exact tokenCycle_next hf ((runToken_eq_exec _ _).trans ht)

end Sys2Proof.Machine

/-!
The bitstream primitives (40_bitstream.md). A writer call that raises no error appends `callBits`, so
calls in turn build the stream of R126. The reader mirrors it (R135) because at every call it stands
where the writer stood: `Mirrors` says that what the writer has written and what the reader has not
read make up the input. The errors and the round trip of one frame follow from what the primitives do
on a stream that ends early, or that holds what ENC_FRAME stored.
-/

namespace Sys2Proof.Machine

/-! ## What a writer call appends (R121 to R126) -/

/-- The bits a writer call appends from `e` on (R126). -/
def callBits (e : Enc) : WriterCall → List Bool
  | .bits v n => fieldBits n v
  | .flush => flushBits e
  | .byte b => flushBits e ++ fieldBits 8 b
  | .bytes bs => flushBits e ++ bs.flatMap (fieldBits 8)

/-- Every field of the call has at most 8 bits and holds its value (R121). -/
def callFits : WriterCall → Prop
  | .bits v n => n ≤ 8 ∧ v < 2 ^ n
  | .flush => True
  | .byte b => b < 2 ^ 8
  | .bytes bs => ∀ b ∈ bs, b < 2 ^ 8

section
variable {cap : Nat} {e e' : Enc}

theorem writtenBits_length (e : Enc) :
    (writtenBits e).length = 8 * e.outLen.toNat + e.wCnt.toNat := by
  simp [writtenBits]

theorem padded_writtenBits (e : Enc) : padded (writtenBits e) = writtenBits e ++ flushBits e := by
  rw [padded, flushBits, writtenBits_length, Nat.mul_add_mod]

theorem appendCall_writtenBits (e : Enc) (c : WriterCall) :
    appendCall (writtenBits e) c = writtenBits e ++ callBits e c := by
  cases c with
  | bits v n => rfl
  | flush => exact padded_writtenBits e
  | byte b => simp only [appendCall, callBits, padded_writtenBits, List.append_assoc]
  | bytes bs => simp only [appendCall, callBits, padded_writtenBits, List.append_assoc]

theorem writeBits_ok_fits {v n : Nat} (h : writeBits cap v n e = .ok e') : v < 2 ^ n := by
  by_contra hv
  rw [writeBits_misfit cap e (Nat.le_of_not_lt hv)] at h
  cases h

theorem writeFields_ok_fits {n : Nat} {vs : List Nat} (h : writeFields cap n vs e = .ok e') :
    ∀ v ∈ vs, v < 2 ^ n := by
  induction vs generalizing e with
  | nil => simp
  | cons v vs ih =>
    simp only [writeFields] at h
    split at h
    · cases h
    next hv => exact List.forall_mem_cons.2 ⟨writeBits_ok_fits hv, ih h⟩

/-- A call that raises no error writes values that fit (R121). -/
theorem callWriter_ok_fits {c : WriterCall} (hn : ∀ v n, c = .bits v n → n ≤ 8)
    (h : callWriter cap c e = .ok e') : callFits c := by
  cases c with
  | bits v n => exact ⟨hn v n rfl, writeBits_ok_fits h⟩
  | flush => trivial
  | byte b =>
    simp only [callWriter, writeByte] at h
    split at h
    · cases h
    · exact writeBits_ok_fits h
  | bytes bs =>
    simp only [callWriter, writeBytes] at h
    split at h
    · cases h
    · exact writeFields_ok_fits h

/-- A call whose values fit appends its bits, or runs out of room. -/
theorem callWriter_emits {c : WriterCall} (hc : callFits c) (ho : writerOk cap e) :
    Emits cap e (callBits e c) (callWriter cap c e) := by
  cases c with
  | bits v n => exact writeBits_emits ho hc.1 hc.2
  | flush => exact flush_emits ho
  | byte b => exact (flush_emits ho).andThen ho fun _ _ ho' => writeBits_emits ho' le_rfl hc
  | bytes bs => exact (flush_emits ho).andThen ho fun _ _ ho' => writeFields_emits le_rfl bs hc ho'

theorem Emits.of_ok {bits : List Bool} (h : Emits cap e bits (.ok e')) (ho : writerOk cap e) :
    Appends e e' bits ∧ writerOk cap e' := by
  rcases h with ⟨-, he⟩ | ⟨hfit, e1, he, ha⟩
  · cases he
  · cases he
    exact ⟨ha, ha.writerOk ho hfit⟩

/-- A sequence of calls that raises no error runs its first call and then the others. -/
theorem callsWriter_cons_ok {c : WriterCall} {cs : List WriterCall}
    (h : callsWriter cap (c :: cs) e = .ok e') :
    ∃ e1, callWriter cap c e = .ok e1 ∧ callsWriter cap cs e1 = .ok e' := by
  simp only [callsWriter] at h
  split at h
  · cases h
  next e1 hc => exact ⟨e1, hc, h⟩

/-- A call that raises no error appends its bits, and its values fit. -/
theorem callWriter_appends {c : WriterCall} (hn : ∀ v n, c = .bits v n → n ≤ 8)
    (ho : writerOk cap e) (h : callWriter cap c e = .ok e') :
    callFits c ∧ Appends e e' (callBits e c) ∧ writerOk cap e' := by
  have hc := callWriter_ok_fits hn h
  have hemits := callWriter_emits hc ho
  rw [h] at hemits
  exact ⟨hc, hemits.of_ok ho⟩

/-- Calls that raise no error build the stream `F` of R126. -/
theorem callsWriter_writtenBits {calls : List WriterCall}
    (hn : ∀ v n, WriterCall.bits v n ∈ calls → n ≤ 8) (ho : writerOk cap e)
    (h : callsWriter cap calls e = .ok e') :
    writtenBits e' = calls.foldl appendCall (writtenBits e) := by
  induction calls generalizing e with
  | nil => cases h; rfl
  | cons c cs ih =>
    obtain ⟨e1, hc, hcs⟩ := callsWriter_cons_ok h
    obtain ⟨-, happ, ho1⟩ := callWriter_appends (fun v n hv => hn v n (by simp [hv])) ho hc
    rw [ih (fun v n hv => hn v n (List.mem_cons_of_mem c hv)) ho1 hcs, List.foldl_cons,
      appendCall_writtenBits, happ.writtenBits]

end

/-! ## The stream grows (R126) -/

theorem appendCall_extends (bits : List Bool) (c : WriterCall) : bits <+: appendCall bits c := by
  have hpad : bits <+: padded bits := ⟨_, rfl⟩
  cases c with
  | bits v n => exact ⟨_, rfl⟩
  | flush => exact hpad
  | byte b => exact hpad.trans ⟨_, rfl⟩
  | bytes bs => exact hpad.trans ⟨_, rfl⟩

theorem foldl_appendCall_extends (calls : List WriterCall) (bits : List Bool) :
    bits <+: calls.foldl appendCall bits := by
  induction calls generalizing bits with
  | nil => exact ⟨[], List.append_nil bits⟩
  | cons c cs ih => exact (appendCall_extends bits c).trans (ih _)

theorem padded_length_mod (bits : List Bool) : (padded bits).length % 8 = 0 := by
  simp only [padded, List.length_append, List.length_replicate]
  omega

/-- A sequence that ends with a Flush leaves no bit pending (R123). -/
theorem callsWriter_flush_wCnt {cap : Nat} {calls : List WriterCall} {e e' : Enc}
    (hn : ∀ v n, WriterCall.bits v n ∈ calls ++ [.flush] → n ≤ 8) (ho : writerOk cap e)
    (h : callsWriter cap (calls ++ [.flush]) e = .ok e') : e'.wCnt.toNat = 0 := by
  have hlen := writtenBits_length e'
  rw [callsWriter_writtenBits hn ho h, List.foldl_concat] at hlen
  have hmod := padded_length_mod (calls.foldl appendCall (writtenBits e))
  have hlt := e'.wCnt.isLt
  simp only [appendCall] at hlen
  omega

/-! ## Reading what stands at the cursor (R130 to R134) -/

section
variable {d d' : Dec} {bits rest : List Bool}

theorem Reads.unread_rest (h : Reads d d' bits.length) (hu : unreadBits d = bits ++ rest) :
    unreadBits d' = rest := by
  obtain ⟨-, -, -, -, hdrop⟩ := h
  rw [hdrop, hu, List.drop_left]

/-- A field at the cursor is read as its value (R130). -/
theorem readBits_field {n v : Nat} (ho : readerOk d) (hn : n ≤ 8) (hv : v < 2 ^ n)
    (hu : unreadBits d = fieldBits n v ++ rest) :
    ∃ d', readBits n d = .ok (v, d') ∧ Reads d d' (fieldBits n v).length := by
  have hlen := congrArg List.length hu
  rw [List.length_append, fieldBits_length] at hlen
  rcases readBits_cases ho hn with ⟨hshort, -⟩ | ⟨d', he, hd⟩
  · omega
  · refine ⟨d', ?_, (fieldBits_length n v).symm ▸ hd⟩
    rw [he, hu, List.take_left' (fieldBits_length n v), bitsValue_fieldBits_of_lt hv]

/-- Fields at the cursor are read as their values, in order (R134). -/
theorem readFields_fields {n : Nat} {vs : List Nat} (ho : readerOk d) (hn : n ≤ 8)
    (hv : ∀ v ∈ vs, v < 2 ^ n) (hu : unreadBits d = vs.flatMap (fieldBits n) ++ rest) :
    ∃ d', readFields n vs.length d = .ok (vs, d') ∧
      Reads d d' (vs.flatMap (fieldBits n)).length := by
  induction vs generalizing d with
  | nil => exact ⟨d, rfl, Reads.refl d ho⟩
  | cons v vs ih =>
    rw [List.flatMap_cons, List.append_assoc] at hu
    obtain ⟨d1, he1, hd1⟩ := readBits_field ho hn (hv v List.mem_cons_self) hu
    obtain ⟨d2, he2, hd2⟩ :=
      ih hd1.ok (fun u hm => hv u (List.mem_cons_of_mem v hm)) (hd1.unread_rest hu)
    refine ⟨d2, by simp only [List.length_cons, readFields, he1, he2], ?_⟩
    rw [List.flatMap_cons, List.length_append]
    exact hd1.trans hd2

/-- Align consumes the pending bits (R132). -/
theorem align_reads (ho : readerOk d) : Reads d (align d) d.rCnt.toNat := by
  refine ⟨rfl, align_readerOk ho.2, BitVec.le_refl _, ?_, ?_⟩
  · rw [unreadBits_length]; omega
  · rw [unreadBits_align, unreadBits, List.drop_left' (fieldBits_length _ _)]

/-- With the bits of a writer call at the cursor and as many bits pending as its Flush pads, the
mirroring reader call returns the call's values and consumes its bits (R135). -/
theorem callReader_returns {e : Enc} {c : WriterCall} (hc : callFits c) (ho : readerOk d)
    (hpad : (flushBits e).length = d.rCnt.toNat) (hu : unreadBits d = callBits e c ++ rest) :
    ∃ d', callReader c d = .ok (callValues c, d') ∧ Reads d d' (callBits e c).length := by
  have halign : Reads d (align d) (flushBits e).length := hpad ▸ align_reads ho
  cases c with
  | bits v n =>
    obtain ⟨d', he, hd⟩ := readBits_field ho hc.1 hc.2 hu
    exact ⟨d', by simp only [callReader, he, callValues], hd⟩
  | flush => exact ⟨align d, rfl, halign⟩
  | byte b =>
    rw [callBits, List.append_assoc] at hu
    obtain ⟨d', he, hd⟩ := readBits_field halign.ok le_rfl hc (halign.unread_rest hu)
    refine ⟨d', by simp only [callReader, readByte, he, callValues], ?_⟩
    rw [callBits, List.length_append]
    exact halign.trans hd
  | bytes bs =>
    rw [callBits, List.append_assoc] at hu
    obtain ⟨d', he, hd⟩ := readFields_fields halign.ok le_rfl hc (halign.unread_rest hu)
    refine ⟨d', he, ?_⟩
    rw [callBits, List.length_append]
    exact halign.trans hd

end

/-! ## The reader behind the writer (R135) -/

/-- The bits of the whole input (R61). -/
def inputBits (d : Dec) : List Bool := byteBits (d.ibuf.readList 0 d.inLen.toNat)

/-- The reader stands in its input where the writer stands in its output. -/
def Mirrors (e : Enc) (d : Dec) : Prop :=
  readerOk d ∧ writtenBits e ++ unreadBits d = inputBits d

section
variable {e e' : Enc} {d d' : Dec} {bits rest : List Bool}

theorem Reads.inputBits_eq {n : Nat} (h : Reads d d' n) : inputBits d' = inputBits d := by
  obtain ⟨hframe, -⟩ := h
  rw [hframe]
  rfl

theorem Mirrors.length (h : Mirrors e d) :
    8 * e.outLen.toNat + e.wCnt.toNat + d.rCnt.toNat = 8 * d.pos.toNat := by
  obtain ⟨⟨-, hpos⟩, hbits⟩ := h
  have hle := BitVec.le_def.mp hpos
  have hlen := congrArg List.length hbits
  rw [List.length_append, writtenBits_length, unreadBits_length, inputBits, byteBits_length,
    Mem.readList_length] at hlen
  omega

/-- Align discards as many bits as the writer's Flush pads (R123, R132). -/
theorem Mirrors.flushBits_length (h : Mirrors e d) : (flushBits e).length = d.rCnt.toNat := by
  have hlen := h.length
  have hw := e.wCnt.isLt
  have hr := d.rCnt.isLt
  rw [flushBits, List.length_replicate]
  omega

theorem Mirrors.advance (h : Mirrors e d) (ha : Appends e e' bits) (hr : Reads d d' bits.length)
    (hu : unreadBits d = bits ++ rest) : Mirrors e' d' := by
  refine ⟨hr.ok, ?_⟩
  rw [ha.writtenBits, hr.unread_rest hu, hr.inputBits_eq, ← h.2, hu, List.append_assoc]

/-- At the end of its input the reader has consumed it (R43). -/
theorem Mirrors.pos_eq (h : Mirrors e d) (hend : writtenBits e = inputBits d) :
    d.pos = d.inLen := by
  obtain ⟨⟨-, hpos⟩, hbits⟩ := h
  rw [hend, List.append_right_eq_self] at hbits
  have hlen := congrArg List.length hbits
  have hle := BitVec.le_def.mp hpos
  rw [unreadBits_length, List.length_nil] at hlen
  exact BitVec.eq_of_toNat_eq (by omega)

/-- Mirroring calls return the values written, as long as the output is in the input (R135). -/
theorem callsReader_mirrors {cap : Nat} {calls : List WriterCall}
    (hn : ∀ v n, WriterCall.bits v n ∈ calls → n ≤ 8) (ho : writerOk cap e)
    (h : callsWriter cap calls e = .ok e') (hm : Mirrors e d)
    (hin : writtenBits e' <+: inputBits d) :
    ∃ d', callsReader calls d = .ok (calls.flatMap callValues, d') ∧ Mirrors e' d' ∧
      inputBits d' = inputBits d := by
  induction calls generalizing e d with
  | nil => cases h; exact ⟨d, rfl, hm, rfl⟩
  | cons c cs ih =>
    have hns : ∀ v n, WriterCall.bits v n ∈ cs → n ≤ 8 :=
      fun v n hv => hn v n (List.mem_cons_of_mem c hv)
    obtain ⟨e1, hc, hcs⟩ := callsWriter_cons_ok h
    obtain ⟨hfits, happ, ho1⟩ := callWriter_appends (fun v n hv => hn v n (by simp [hv])) ho hc
    have hpre : writtenBits e1 <+: inputBits d := by
      refine List.IsPrefix.trans ?_ hin
      rw [callsWriter_writtenBits hns ho1 hcs]
      exact foldl_appendCall_extends cs _
    obtain ⟨rest, hrest⟩ := hpre
    have hu : unreadBits d = callBits e c ++ rest := by
      rw [happ.writtenBits, List.append_assoc, ← hm.2] at hrest
      exact (List.append_cancel_left hrest).symm
    obtain ⟨d1, he1, hd1⟩ := callReader_returns hfits hm.1 hm.flushBits_length hu
    obtain ⟨d2, he2, hm2, hi2⟩ :=
      ih hns ho1 hcs (hm.advance happ hd1 hu) (hd1.inputBits_eq ▸ hin)
    exact ⟨d2, by simp only [callsReader, he1, he2, List.flatMap_cons], hm2,
      hi2.trans hd1.inputBits_eq⟩

end

/-! ## A stream that ends early (R122, R131) -/

theorem writerReady.writerOk {s : State} (h : writerReady s) : writerOk s.params.obufCap s.enc := by
  obtain ⟨hcnt, hacc, hout, hcap⟩ := h
  exact ⟨hcap, hout, by rw [hcnt, hacc]; exact zero_pending⟩

theorem readerReady.readerOk {d : Dec} (h : readerReady d) : readerOk d := by
  obtain ⟨hcnt, hacc, hpos⟩ := h
  exact ⟨by rw [hcnt, hacc]; exact zero_pending, hpos⟩

theorem runHeaderBits_length (mode n : Nat) : (runHeaderBits mode n).length = 8 := by
  simp [runHeaderBits]

/-- An error raised inside DEC_FRAME is an error of DEC_FRAME: the token cycles before it changed only
what DEC_FRAME may write (R238). -/
theorem decFrameFailed.of_inside {c : ErrCode} {s t : State} {d : Dec}
    (hd : d = { s.dec with
      busy := d.busy, pix := d.pix, cur := d.cur, pos := d.pos, rAcc := d.rAcc, rCnt := d.rCnt })
    (h : decFrameFailed c { s with dec := d } t) : decFrameFailed c s t := by
  obtain ⟨ht, hpos⟩ := h
  have hin : d.inLen = s.dec.inLen := by rw [hd]
  refine ⟨ht.trans ?_, hin ▸ hpos⟩
  rw [hd]

section
variable {s : State} {rest : List Bool}

/-- With fewer than 8 bits left the fetch of a run header fails (R131, R196). -/
theorem tokenCycle_noHeader (ho : readerOk s.dec) (hlen : (unreadBits s.dec).length < 8) :
    tokenCycle runToken s = .next (failDecFrame .decodeTruncated s) := by
  rcases fetchRunHeader_cases ho with ⟨-, he⟩ | ⟨d, -, -, -, -, hfit, -⟩
  · rw [tokenCycle, he]
  · omega

/-- A DIFF that fits the frame and lacks literals fails after its header is read (R131, R199). -/
theorem tokenCycle_noLiterals {n : Nat} (ho : readerOk s.dec) (h1 : 1 ≤ n) (h2 : n ≤ 128)
    (hfit : s.dec.pix + n ≤ s.params.npix) (hu : unreadBits s.dec = runHeaderBits 1 n ++ rest)
    (hlen : rest.length < n * s.dec.bpp.toNat) :
    ∃ d, Reads s.dec d 8 ∧
      tokenCycle runToken s = .next (failDecFrame .decodeTruncated { s with dec := d }) := by
  obtain ⟨d, hd, hrest, he⟩ := tokenCycle_header ho (by omega) h1 h2 hu
  have hpix : d.pix = s.dec.pix := by rw [hd.1]
  have hbpp : d.bpp = s.dec.bpp := by rw [hd.1]
  refine ⟨d, hd, he.trans ?_⟩
  rw [if_pos rfl]
  rcases execDiff_cases n (s := { s with dec := d }) hd.ok with
    ⟨hover, -⟩ | ⟨-, -, hx⟩ | ⟨-, d2, ⟨-, -, -, hbits, -⟩, -⟩
  · simp only [hpix] at hover
    omega
  · rw [hx]
    exact congrArg Host.Outcome.next (settle_idle rfl)
  · simp only [hrest, hbpp] at hbits
    omega

/-! ## DEC_FRAME on a run frame (R196) -/

theorem execDecFrame_runFrame (ha : s.dec.phase = .active) (hf : s.dec.frames ≠ 0) :
    execDecFrame s = decodeRunsLoop s.params.npix (openRunFrame s) := by
  have hz : s.dec.frames.toNat ≠ 0 := fun h => hf (BitVec.eq_of_toNat_eq h)
  unfold execDecFrame
  rw [ErrorPhase.dec_other _ (by simp [ha]), if_neg (fun h => h ha), if_neg hz]

/-- The decoder at pixel 0 of a run frame (R196). -/
def Dec.opened (d : Dec) : Dec := { d with busy := true, pix := 0 }

theorem openRunFrame_within (h : 0 < s.params.npix) :
    openRunFrame s = { s with dec := s.dec.opened } :=
  settle_within (s := { s with dec := s.dec.opened }) h

theorem openRunFrame_empty (h : s.params.npix = 0) :
    openRunFrame s = finishFrame { s with dec := s.dec.opened } :=
  settle_done (s := { s with dec := s.dec.opened }) rfl h.le

/-- DEC_FRAME on runs that end before the frame does: if the token cycle after them raises an error, so
does the command (R196, R238). -/
theorem execDecFrame_fails {runs : List Run} {c : ErrCode} (ha : s.dec.phase = .active)
    (hf : s.dec.frames ≠ 0) (ho : readerOk s.dec)
    (hr : ∀ run ∈ runs, runOk s.dec.bpp.toNat run = true)
    (hp : runsPixels runs < s.params.npix)
    (hu : unreadBits s.dec = runsBits s.dec.bpp.toNat runs ++ rest)
    (hcycle : ∀ d, afterRuns s.dec.opened runs d → readerOk d → unreadBits d = rest →
      ∃ d' k, Reads d d' k ∧
        tokenCycle runToken { s with dec := d } = .next (failDecFrame c { s with dec := d' })) :
    ∃ t, execDecFrame s = .next t ∧ decFrameFailed c s t := by
  obtain ⟨d, hd, hod, hud, -, hloop⟩ :=
    decodeRunsLoop_runs runs (s := { s with dec := s.dec.opened }) rfl ho hr
      ((Nat.zero_add _).trans_lt hp) hu
  obtain ⟨d', k, ⟨hd', -⟩, hc⟩ := hcycle d hd hod hud
  have hbusy : d.busy = true := by rw [hd]; rfl
  have hfew := length_le_runsPixels hr
  obtain ⟨fuel, hfuel⟩ : ∃ fuel, s.params.npix = runs.length + (fuel + 1) :=
    ⟨s.params.npix - runs.length - 1, by omega⟩
  refine ⟨_, ?_, (failDecFrame_failed c { s with dec := d' }).of_inside ?_⟩
  · rw [execDecFrame_runFrame ha hf, openRunFrame_within (by omega), hfuel, hloop,
      decodeRunsLoop, if_pos hbusy, hc]
    exact decodeRunsLoop_idle _ rfl
  · rw [hd', hd]
    rfl

/-- DEC_FRAME on runs that cover the frame exactly executes them and ends the frame (R196, R200). -/
theorem execDecFrame_covers {runs : List Run} (ha : s.dec.phase = .active)
    (hf : s.dec.frames ≠ 0) (ho : readerOk s.dec)
    (hr : ∀ run ∈ runs, runOk s.dec.bpp.toNat run = true)
    (hp : runsPixels runs = s.params.npix)
    (hu : unreadBits s.dec = runsBits s.dec.bpp.toNat runs ++ rest) :
    ∃ d, afterRuns s.dec.opened runs d ∧ readerOk d ∧
      8 * d.pos.toNat + s.dec.rCnt.toNat =
        8 * s.dec.pos.toNat + d.rCnt.toNat + (runsBits s.dec.bpp.toNat runs).length ∧
      execDecFrame s = .next (finishFrame { s with dec := d }) := by
  have hfew := length_le_runsPixels hr
  rw [execDecFrame_runFrame ha hf]
  by_cases hne : runs = []
  · subst hne
    refine ⟨s.dec.opened, rfl, ho, by simp [Dec.opened], ?_⟩
    rw [openRunFrame_empty hp.symm]
    exact decodeRunsLoop_idle _ rfl
  · have hpos := List.length_pos_iff.mpr hne
    rw [openRunFrame_within (by omega)]
    exact decodeRunsLoop_covers runs (s := { s with dec := s.dec.opened }) rfl ho hne hr
      ((Nat.zero_add _).trans hp) hu (by omega)

/-! ## DEC_FRAME on a literal frame (R195) -/

/-- Everything DEC_FRAME can do on a literal frame: the pixels are missing, or stored. -/
theorem execDecFrame_literal (ha : s.dec.phase = .active) (hf : s.dec.frames = 0)
    (ho : readerOk s.dec) :
    ((unreadBits s.dec).length < s.params.npix * s.dec.bpp.toNat ∧
      execDecFrame s = .next (failDecFrame .decodeTruncated s)) ∨
    (∃ d, Reads s.dec d (s.params.npix * s.dec.bpp.toNat) ∧
      execDecFrame s = .next (finishFrame { s with
        dec := { d with
          cur := s.dec.cur.writeList 0
            (pixelFields s.dec.bpp.toNat s.params.npix (unreadBits s.dec)) } })) := by
  have hz : s.dec.frames.toNat = 0 := by rw [hf]; rfl
  unfold execDecFrame
  rw [ErrorPhase.dec_other _ (by simp [ha]), if_neg (fun h => h ha), if_pos hz]
  rcases readPixels_cases (p := 0) (n := s.params.npix) ho with ⟨hshort, he⟩ | ⟨d, hd, he⟩
  · exact .inl ⟨hshort, by rw [he]⟩
  · exact .inr ⟨d, hd, by rw [he]⟩

end

/-! ## Run selection is lossless (R162) -/

/-- Where SelectRun answers SAME, the reference has the frame's pixels (R160). -/
theorem take_selectRun {f r : List Pixel} (h : (selectRun f r).1 = true) :
    r.take (selectRun f r).2 = f.take (selectRun f r).2 := by
  rcases selectRun_cases f r with ⟨-, he⟩ | ⟨-, -, he⟩ | ⟨-, -, he⟩
  · rw [he]; exact take_eqRun 128 f r
  · rw [he] at h; cases h
  · rw [he] at h; cases h

/-- Each chosen run makes of the reference what the frame has there. -/
theorem applyRuns_chooseRunsFuel (fuel : Nat) {f r : List Pixel} (hl : f.length = r.length)
    (hf : f.length ≤ fuel) : applyRuns (chooseRunsFuel fuel f r) r = f := by
  induction fuel generalizing f r with
  | zero => rw [List.length_eq_zero_iff.mp (Nat.le_zero.mp hf)]; rfl
  | succ fuel ih =>
    cases f with
    | nil => rfl
    | cons a f =>
      obtain ⟨hpos, -, hfit⟩ := selectRun_bounds (f := a :: f) r (by simp)
      simp only [chooseRunsFuel]
      generalize hn : (selectRun (a :: f) r).2 = n at *
      have hrest : applyRuns (chooseRunsFuel fuel ((a :: f).drop n) (r.drop n)) (r.drop n) =
          (a :: f).drop n :=
        ih (by simp only [List.length_drop, hl])
          (by simp only [List.length_drop, List.length_cons] at hf ⊢; omega)
      split
      next hsame =>
        rw [applyRuns, hrest, ← hn, take_selectRun hsame, List.take_append_drop]
      · rw [applyRuns, List.length_take, Nat.min_eq_left hfit, hrest, List.take_append_drop]

theorem applyRuns_chooseRuns {f r : List Pixel} (hl : f.length = r.length) :
    applyRuns (chooseRuns f r) r = f := applyRuns_chooseRunsFuel f.length hl le_rfl

/-! ## One frame, encoded and decoded (R135, R203) -/

/-- What an ENC_FRAME that raises no error stores, and where (R155, R157, R162). -/
theorem execEncFrame_stores {s t : State} {len : BitVec 24} (hw : writerReady s)
    (hs : s.enc.phase = .header ∨ s.enc.phase = .stream) (h : execEncFrame len s = .next t)
    (ht : t.enc.phase ≠ .error) :
    (∀ k < s.params.npix, (s.enc.fin.read k).toNat < 2 ^ s.enc.bpp.toNat) ∧
      t.enc.outLen.toNat =
        s.enc.outLen.toNat + (wireBytes (frameBits s.params.npix s.enc)).length ∧
      t.enc.obuf.readList s.enc.outLen.toNat (wireBytes (frameBits s.params.npix s.enc)).length =
        wireBytes (frameBits s.params.npix s.enc) ∧
      t.enc.ref.readList 0 s.params.npix = frameIn s.params.npix s.enc := by
  have hcap : s.params.obufCap < 2 ^ 24 := hw.writerOk.1
  rcases execEncFrame_cases len hw.writerOk (fun _ => hw.1) with
    ⟨herr, -⟩ | ⟨c, -, -, he⟩ | ⟨-, he⟩ | ⟨-, -, hfin, hfit, he⟩
  · rcases hs with hs | hs <;> rw [hs] at herr <;> cases herr
  · cases he.symm.trans h
    exact absurd rfl ht
  · cases he.symm.trans h
    exact absurd rfl ht
  · cases he.symm.trans h
    refine ⟨hfin, ?_, Mem.readList_writeList _ _ _, ?_⟩
    · show (s.enc.outLen + BitVec.ofNat 24 _).toNat = _
      rw [BitVec.toNat_add, BitVec.toNat_ofNat]
      omega
    · have hstored := Mem.readList_writeList s.enc.ref 0 (frameIn s.params.npix s.enc)
      rw [frameIn_length] at hstored
      exact hstored

/-- The packed bytes of a bit sequence at the cursor put its bits first among the unread ones (R61). -/
theorem unreadBits_wireBytes {d : Dec} {bits : List Bool} (hready : readerReady d)
    (hfit : d.pos.toNat + (wireBytes bits).length ≤ d.inLen.toNat)
    (hbuf : d.ibuf.readList d.pos.toNat (wireBytes bits).length = wireBytes bits) :
    ∃ rest, unreadBits d = bits ++ rest := by
  obtain ⟨hcnt, -, -⟩ := hready
  obtain ⟨m, hm⟩ : ∃ m, d.inLen.toNat - d.pos.toNat = (wireBytes bits).length + m :=
    ⟨d.inLen.toNat - d.pos.toNat - (wireBytes bits).length, by omega⟩
  rw [unreadBits, hcnt, hm, Mem.readList_add, hbuf, byteBits_append, byteBits_wireBytes, padded,
    List.append_assoc]
  exact ⟨_, rfl⟩

/-- A decoder at the same frame of the stream as ENC (R203). -/
structure AtSameFrame (npix : Nat) (e : Enc) (d : Dec) : Prop where
  active : d.phase = .active
  frames : d.frames = e.frames
  bpp : d.bpp = e.bpp
  /-- D_CUR holds the reference frame, once there is one (R162) -/
  reference : e.frames ≠ 0 → d.cur.readList 0 npix = referenceFrame npix e

/-- DEC_FRAME leaves the frame `f` in D_CUR and consumes `n` bits of the stream (R195, R196). -/
def DecodesFrame (u : State) (f : List Pixel) (n : Nat) : Prop :=
  ∃ d, readerOk d ∧ d.cur.readList 0 u.params.npix = f ∧
    8 * d.pos.toNat + u.dec.rCnt.toNat = 8 * u.dec.pos.toNat + d.rCnt.toNat + n ∧
    execDecFrame u = .next (finishFrame { u with dec := d })

section
variable {u : State} {f : List Pixel} {rest : List Bool}

/-- The first frame: its pixels are at the cursor (R195). -/
theorem decodesFrame_literal (ha : u.dec.phase = .active) (hz : u.dec.frames = 0)
    (ho : readerOk u.dec) (hlen : f.length = u.params.npix)
    (hlegal : ∀ v ∈ f, v.toNat < 2 ^ u.dec.bpp.toNat)
    (hu : unreadBits u.dec = pixelBits u.dec.bpp.toNat f ++ rest) :
    DecodesFrame u f (pixelBits u.dec.bpp.toNat f).length := by
  have hpixels := pixelFields_pixelBits f rest hlegal
  have hstored := Mem.readList_writeList u.dec.cur 0 f
  rw [pixelBits_length]
  rw [hlen] at hpixels hstored ⊢
  rcases execDecFrame_literal ha hz ho with ⟨hshort, -⟩ | ⟨d, hd, he⟩
  · rw [hu, List.length_append, pixelBits_length, hlen] at hshort
    omega
  · rw [hu, hpixels] at he
    have hcursor := hd.cursor ho
    exact ⟨{ d with cur := u.dec.cur.writeList 0 f }, hd.ok, hstored, hcursor, he⟩

/-- A later frame: the runs chosen against D_CUR are at the cursor (R196). -/
theorem decodesFrame_runs {r : List Pixel} (ha : u.dec.phase = .active) (hz : u.dec.frames ≠ 0)
    (ho : readerOk u.dec) (hlen : f.length = u.params.npix)
    (hlegal : ∀ v ∈ f, v.toNat < 2 ^ u.dec.bpp.toNat)
    (hr : u.dec.cur.readList 0 u.params.npix = r)
    (hu : unreadBits u.dec = runsBits u.dec.bpp.toNat (chooseRuns f r) ++ rest) :
    DecodesFrame u f (runsBits u.dec.bpp.toNat (chooseRuns f r)).length := by
  have hcovers := (chooseRuns_pixels f r).trans hlen
  obtain ⟨d, hd, hod, hcursor, he⟩ :=
    execDecFrame_covers ha hz ho (chooseRuns_ok _ _ _ hlegal) hcovers hu
  refine ⟨d, hod, ?_, hcursor, he⟩
  have hcur : d.cur = u.dec.cur.writeRuns 0 (chooseRuns f r) := by rw [hd]; rfl
  have hruns := Mem.readList_writeRuns u.dec.cur 0 (chooseRuns f r)
  rw [hcovers, hr] at hruns
  rw [hcur, hruns, applyRuns_chooseRuns (by rw [hlen, ← hr, Mem.readList_length])]

/-- DEC_FRAME on the bits ENC_FRAME stored decodes the frame (R203). -/
theorem decodesFrame_frameBits {e : Enc} (hsame : AtSameFrame u.params.npix e u.dec)
    (ho : readerOk u.dec) (hfin : ∀ k < u.params.npix, (e.fin.read k).toNat < 2 ^ e.bpp.toNat)
    (hu : unreadBits u.dec = frameBits u.params.npix e ++ rest) :
    DecodesFrame u (frameIn u.params.npix e) (frameBits u.params.npix e).length := by
  have hlen := frameIn_length u.params.npix e
  have hlegal := frameIn_legal hfin
  rw [← hsame.bpp] at hlegal
  rw [frameBits_eq, ← hsame.bpp] at hu ⊢
  by_cases hz : e.frames = 0
  · rw [if_pos hz] at hu ⊢
    exact decodesFrame_literal hsame.active (hsame.frames.trans hz) ho hlen hlegal hu
  · rw [if_neg hz] at hu ⊢
    exact decodesFrame_runs hsame.active (hsame.frames ▸ hz) ho hlen hlegal (hsame.reference hz) hu

end

theorem finishFrame_phase_ne_error (s : State) : (finishFrame s).dec.phase ≠ .error := by
  unfold finishFrame
  split <;> simp

/-! ## The obligations -/

/-- Settles O36, by induction on the calls. -/
theorem writerCallsAppendTheirFields : Obligations.WriterCallsAppendTheirFields := by
  intro cap calls e e' hcap hout hpend hn h
  exact ⟨callsWriter_writtenBits hn ⟨hcap, hout, hpend⟩ h, (writtenBits_length e').symm⟩

/-- Settles O37: the reader starts where the writer started, and ends where it ended. -/
theorem readerMirrorsWriter : Obligations.ReaderMirrorsWriter := by
  intro cap calls e e' d hcap hout hacc hcnt hn h hrAcc hrCnt hpos hin hbuf
  have hn' : ∀ v n, WriterCall.bits v n ∈ calls ++ [.flush] → n ≤ 8 :=
    fun v n hv => hn v n (by simpa using hv)
  have ho : writerOk cap e :=
    ⟨hcap, by rw [hout]; exact Nat.zero_le _, by rw [hacc, hcnt]; exact zero_pending⟩
  have hm : Mirrors e d := by
    have hready : readerReady d :=
      ⟨hrCnt, hrAcc, by rw [hpos]; exact BitVec.le_def.2 (Nat.zero_le _)⟩
    refine ⟨hready.readerOk, ?_⟩
    simp [writtenBits, unreadBits, inputBits, hout, hcnt, hrCnt, hpos]
  have hwhole : writtenBits e' = inputBits d := by
    rw [writtenBits, callsWriter_flush_wCnt hn' ho h, inputBits, hbuf, fieldBits_zero,
      List.append_nil]
  obtain ⟨d', he, hm', hin'⟩ :=
    callsReader_mirrors hn' ho h hm ⟨[], (List.append_nil _).trans hwhole⟩
  exact ⟨d', by simpa [callValues] using he, hm'.pos_eq (hwhole.trans hin'.symm)⟩

/-- Settles O7: the token cycle finds no run header. -/
theorem tokenFetchPastTheInputIsTruncated : Obligations.TokenFetchPastTheInputIsTruncated := by
  intro s hb ho hlen
  exact ⟨_, (step_token hb).trans (tokenCycle_noHeader ho hlen), failDecFrame_failed _ s⟩

/-- Settles O23: the checks pass, and the header does not fit. -/
theorem encHeaderOverflow : Obligations.EncHeaderOverflow := by
  intro s nf iv bpp hi hw hnf hiv hb hb8 hpal hfull
  have hne : s.enc.phase ≠ .error := by simp [hi]
  have hvalid := (headerValid_iff nf iv bpp s.enc.palLen.toNat).2 ⟨hnf, hiv, hb, hb8, hpal⟩
  have hover : writeHeader s.params.obufCap nf iv bpp s.enc = .error .outputOverflow := by
    rcases writeHeader_cases (nf := nf) (iv := iv) (bpp := bpp) hw.writerOk hw.1 with
      ⟨-, he⟩ | ⟨hfit, -⟩
    · exact he
    · exact absurd hfull (Nat.not_lt.mpr hfit)
  refine ⟨raise .enc .outputOverflow (loseEncOutput s), ?_, rfl, freeUpTo_toNat_le 24 _ _⟩
  show execEncHeader nf iv bpp s = _
  unfold execEncHeader
  rw [ErrorPhase.enc_other _ hne, if_neg (fun h => h hi), if_pos hvalid, hover]

/-- Settles O45: the pixels of a literal frame, a run header, or the literals of a DIFF are missing. -/
theorem frameThatEndsEarlyIsTruncated : Obligations.FrameThatEndsEarlyIsTruncated := by
  refine ⟨fun s ha hf hready hlen => ?_, fun s runs rest ha hf hready hr hp hu hends => ?_⟩
  · rcases execDecFrame_literal ha hf hready.readerOk with ⟨-, he⟩ | ⟨d, ⟨-, -, -, hfit, -⟩, -⟩
    · exact ⟨_, he, failDecFrame_failed _ s⟩
    · omega
  · refine execDecFrame_fails ha hf hready.readerOk hr hp hu fun d hd hod hud => ?_
    have hpix : d.pix = runsPixels runs := by rw [hd]; exact Nat.zero_add _
    have hbpp : d.bpp = s.dec.bpp := by rw [hd]; rfl
    rcases hends with hshort | ⟨n, literals, h1, h2, hfit, hrest, hlit⟩
    · exact ⟨d, 0, Reads.refl d hod,
        tokenCycle_noHeader (s := { s with dec := d }) hod (hud ▸ hshort)⟩
    · obtain ⟨d', hd', hc⟩ := tokenCycle_noLiterals (s := { s with dec := d }) hod h1 h2
        (hpix ▸ hfit) (hud.trans hrest) (hbpp ▸ hlit)
      exact ⟨d', 8, hd', hc⟩

/-- Settles O59: the decoder finds the bits ENC_FRAME stored, and the chosen runs rebuild the frame. -/
theorem decFrameInvertsEncFrame : Obligations.DecFrameInvertsEncFrame := by
  intro s t u len hw henc hs ht hnpix ha hready hframes hbpp href n hfit hbuf
  obtain ⟨hfin, hout, hobuf, hreft⟩ := execEncFrame_stores hw hs henc ht
  have hn : n = (wireBytes (frameBits s.params.npix s.enc)).length :=
    (congrArg (· - s.enc.outLen.toNat) hout).trans (Nat.add_sub_cancel_left _ _)
  rw [hn] at hfit hbuf ⊢
  obtain ⟨rest, hu⟩ := unreadBits_wireBytes hready hfit (hbuf.trans hobuf)
  rw [← hnpix] at hfin hreft href hu ⊢
  obtain ⟨d, hod, hcur, hcursor, he⟩ :=
    decodesFrame_frameBits ⟨ha, hframes, hbpp, href⟩ hready.readerOk hfin hu
  have hcnt : u.dec.rCnt.toNat = 0 := by rw [hready.1]; rfl
  have hlt := d.rCnt.isLt
  refine ⟨_, he, finishFrame_phase_ne_error _, hcur.trans hreft.symm, hcur, ?_, rfl, rfl, hod.2⟩
  show d.pos.toNat = _
  rw [wireBytes_length]
  omega

end Sys2Proof.Machine

/-!
The encoder (41_encoder.md). Run selection is said once at a position: `nextRun` is the run that
SelectRun answers there, and `chooseRuns_split` says that every run of a frame is the `nextRun` of the
position the runs before it lead to. What holds of the chosen runs then follows from what EqRun and
the scan measure at one or two positions. Each check of ENC_HEADER and of ENC_FRAME has an equation of
its own, and a command that passes them stores the bits that the writer's laws give.
-/

namespace Sys2Proof.Machine

/-! ## EqRun (R160, R163) -/

section
variable {cap : Nat} {a b : Pixel} {f r : List Pixel}

theorem eqRun_cons_same : eqRun (cap + 1) (a :: f) (a :: r) = eqRun cap f r + 1 := if_pos rfl

theorem eqRun_cons_other (h : a ≠ b) : eqRun (cap + 1) (a :: f) (b :: r) = 0 := if_neg h

/-- The pixels EqRun counts match, position by position. -/
theorem getElem?_of_lt_eqRun {j : Nat} (h : j < eqRun cap f r) : f[j]? = r[j]? := by
  rw [← List.getElem?_take_of_lt h, ← take_eqRun, List.getElem?_take_of_lt h]

/-- EqRun ends at its cap, at the frame end or at a mismatch. -/
theorem eqRun_stops (cap : Nat) (hl : f.length = r.length) :
    eqRun cap f r = cap ∨ eqRun cap f r = f.length ∨
      f[eqRun cap f r]? ≠ r[eqRun cap f r]? := by
  induction cap generalizing f r with
  | zero => exact .inl (Nat.le_zero.mp (eqRun_le_cap 0 f r))
  | succ cap ih =>
    cases f with
    | nil => exact .inr (.inl rfl)
    | cons a f =>
      cases r with
      | nil => cases hl
      | cons b r =>
        by_cases hab : a = b
        · subst hab
          rw [eqRun_cons_same]
          simpa using ih (Nat.succ.inj hl)
        · rw [eqRun_cons_other hab]
          exact .inr (.inr (by simpa using hab))

/-- A frame matches itself up to the cap or the frame end. -/
theorem eqRun_self (cap : Nat) (f : List Pixel) : eqRun cap f f = min cap f.length := by
  rcases eqRun_stops cap (f := f) rfl with h | h | h
  · have := eqRun_le_length cap f f
    omega
  · have := eqRun_le_cap cap f f
    omega
  · exact absurd rfl h

/-! ## The scan of step 4 (R160, R167) -/

/-- The positions the scan passes have a match of fewer than 4. -/
theorem eqRun_of_lt_scanDiff {budget j : Nat} (h : j < scanDiff budget f r) :
    eqRun 128 (f.drop j) (r.drop j) < 4 := by
  induction budget generalizing f r j with
  | zero => exact absurd h (by simp [scanDiff])
  | succ budget ih =>
    cases f with
    | nil => exact absurd h (by simp [scanDiff])
    | cons a f =>
      cases r with
      | nil => exact absurd h (by simp [scanDiff])
      | cons b r =>
        rw [scanDiff] at h
        split at h
        next hshort =>
          cases j with
          | zero => exact hshort
          | succ j => exact ih (f := f) (r := r) (Nat.lt_of_succ_lt_succ h)
        next => exact absurd h (Nat.not_lt_zero j)

/-- The scan ends at its budget, at the frame end or at a match of at least 4. -/
theorem scanDiff_stops (budget : Nat) (hl : f.length = r.length) :
    scanDiff budget f r = budget ∨ scanDiff budget f r = f.length ∨
      4 ≤ eqRun 128 (f.drop (scanDiff budget f r)) (r.drop (scanDiff budget f r)) := by
  induction budget generalizing f r with
  | zero => exact .inl (Nat.le_zero.mp (scanDiff_le_budget 0 f r))
  | succ budget ih =>
    cases f with
    | nil => exact .inr (.inl rfl)
    | cons a f =>
      cases r with
      | nil => cases hl
      | cons b r =>
        rw [scanDiff]
        split
        next => simpa using ih (Nat.succ.inj hl)
        next hlong => exact .inr (.inr (Nat.le_of_not_lt hlong))

/-! ## The run at a position (R160) -/

/-- The run SelectRun answers at a position, with the literals of a DIFF (R161). -/
def nextRun (f r : List Pixel) : Run :=
  if 4 ≤ eqRun 128 f r then .same (selectRun f r).2 else .diff (f.take (selectRun f r).2)

/-- Step 2: a match of 4 or more is a SAME of its length. -/
theorem selectRun_same (h : 4 ≤ eqRun 128 f r) : selectRun f r = (true, eqRun 128 f r) := if_pos h

/-- Step 3: fewer than 4 pixels left are one DIFF. -/
theorem selectRun_short (h : eqRun 128 f r < 4) (hs : f.length < 4) :
    selectRun f r = (false, f.length) :=
  (if_neg (Nat.not_le.mpr h)).trans (if_pos hs)

/-- Step 4: a DIFF up to where the scan of the later positions ends. -/
theorem selectRun_scan (h : eqRun 128 f r < 4) (hs : 4 ≤ f.length) :
    selectRun f r = (false, scanDiff 127 f.tail r.tail + 1) :=
  (if_neg (Nat.not_le.mpr h)).trans (if_neg (Nat.not_lt.mpr hs))

theorem selectRun_isSame : (selectRun f r).1 = true ↔ 4 ≤ eqRun 128 f r := by
  rcases selectRun_cases f r with ⟨h, he⟩ | ⟨h, -, he⟩ | ⟨h, -, he⟩
  · simp [he, h]
  · simp [he, h]
  · simp [he, h]

/-- The later positions within a DIFF of step 4 have a match of fewer than 4. -/
theorem selectRun_scan_before (h : eqRun 128 f r < 4) (hs : 4 ≤ f.length) {j : Nat} (h1 : 1 ≤ j)
    (hj : j < (selectRun f r).2) : eqRun 128 (f.drop j) (r.drop j) < 4 := by
  rw [selectRun_scan h hs] at hj
  obtain ⟨j, rfl⟩ := Nat.exists_eq_add_of_le' h1
  rw [← List.drop_tail, ← List.drop_tail]
  exact eqRun_of_lt_scanDiff (Nat.lt_of_succ_lt_succ hj)

/-- A DIFF ends after 128 pixels, at the frame end or before a match of at least 4 (R166). -/
theorem selectRun_diff_stops (hl : f.length = r.length) (h : eqRun 128 f r < 4) :
    (selectRun f r).2 = 128 ∨ (selectRun f r).2 = f.length ∨
      4 ≤ eqRun 128 (f.drop (selectRun f r).2) (r.drop (selectRun f r).2) := by
  by_cases hs : f.length < 4
  · rw [selectRun_short h hs]
    exact .inr (.inl rfl)
  · have hs : 4 ≤ f.length := Nat.le_of_not_lt hs
    have hstops := scanDiff_stops 127 (f := f.tail) (r := r.tail) (by simp [hl])
    rw [List.drop_tail, List.drop_tail, List.length_tail] at hstops
    rw [selectRun_scan h hs]
    simp only
    omega

theorem nextRun_pixels (h : f ≠ []) : runPixels (nextRun f r) = (selectRun f r).2 := by
  obtain ⟨-, -, hfit⟩ := selectRun_bounds r h
  unfold nextRun
  split
  · rfl
  · rw [runPixels, List.length_take, Nat.min_eq_left hfit]

/-- A SAME is chosen for a match of 4 or more and has its length. -/
theorem nextRun_eq_same {n : Nat} (h : nextRun f r = .same n) :
    4 ≤ n ∧ n = eqRun 128 f r := by
  unfold nextRun at h
  split at h
  next hm =>
    cases h
    rw [selectRun_same hm]
    exact ⟨hm, rfl⟩
  next => cases h

/-- A DIFF is chosen for a match of fewer than 4 and carries the pixels of its span. -/
theorem nextRun_eq_diff {l : List Pixel} (hf : f ≠ []) (h : nextRun f r = .diff l) :
    eqRun 128 f r < 4 ∧ l.length = (selectRun f r).2 := by
  have hlen := nextRun_pixels (r := r) hf
  rw [h] at hlen
  unfold nextRun at h
  split at h
  next => cases h
  next hm => exact ⟨Nat.lt_of_not_le hm, hlen⟩

end

/-! ## The runs of a frame (R161) -/

/-- Any fuel that covers the frame chooses the same runs. -/
theorem chooseRunsFuel_congr {m n : Nat} {f : List Pixel} (r : List Pixel) (hm : f.length ≤ m)
    (hn : f.length ≤ n) : chooseRunsFuel m f r = chooseRunsFuel n f r := by
  induction m generalizing n f r with
  | zero =>
    rw [List.length_eq_zero_iff.mp (Nat.le_zero.mp hm)]
    cases n <;> rfl
  | succ m ih =>
    cases f with
    | nil => cases n <;> rfl
    | cons a f =>
      obtain ⟨n, rfl⟩ := Nat.exists_eq_add_of_le' (Nat.one_le_of_lt hn)
      obtain ⟨hpos, -, -⟩ := selectRun_bounds (f := a :: f) r (by simp)
      simp only [chooseRunsFuel]
      rw [ih (n := n)] <;> simp only [List.length_drop, List.length_cons] at * <;> omega

@[simp] theorem chooseRuns_nil (r : List Pixel) : chooseRuns [] r = [] := rfl

/-- The runs from a position on: the run there, then the runs from where it ends. -/
theorem chooseRuns_of_ne_nil {f : List Pixel} (r : List Pixel) (h : f ≠ []) :
    chooseRuns f r = nextRun f r ::
      chooseRuns (f.drop (runPixels (nextRun f r))) (r.drop (runPixels (nextRun f r))) := by
  obtain ⟨hpos, -, -⟩ := selectRun_bounds r h
  rw [nextRun_pixels h]
  cases f with
  | nil => exact absurd rfl h
  | cons a f =>
    have hfuel : chooseRunsFuel f.length ((a :: f).drop (selectRun (a :: f) r).2)
        (r.drop (selectRun (a :: f) r).2) = chooseRuns _ _ :=
      chooseRunsFuel_congr _ (by rw [List.length_drop, List.length_cons]; omega) le_rfl
    rw [chooseRuns, List.length_cons, chooseRunsFuel]
    simp only [hfuel, nextRun, selectRun_isSame]

/-- Every run of a frame is the run at the position the runs before it lead to, and the runs after it
are those from its end on. -/
theorem chooseRuns_split {f r : List Pixel} {run : Run} {before after : List Run}
    (h : chooseRuns f r = before ++ run :: after) :
    f.drop (runsPixels before) ≠ [] ∧
      run = nextRun (f.drop (runsPixels before)) (r.drop (runsPixels before)) ∧
      after = chooseRuns (f.drop (runsPixels before + runPixels run))
        (r.drop (runsPixels before + runPixels run)) := by
  induction before generalizing f r with
  | nil =>
    have hf : f ≠ [] := by rintro rfl; cases h
    rw [chooseRuns_of_ne_nil r hf] at h
    obtain ⟨rfl, rfl⟩ := List.cons.inj h
    simpa using hf
  | cons first before ih =>
    have hf : f ≠ [] := by rintro rfl; cases h
    rw [chooseRuns_of_ne_nil r hf] at h
    obtain ⟨rfl, hrest⟩ := List.cons.inj h
    simpa only [List.drop_drop, runsPixels_cons, Nat.add_assoc] using ih hrest

/-- A chosen run, as the run at some position of the frame. -/
theorem exists_nextRun_of_mem {f r : List Pixel} {run : Run} (h : run ∈ chooseRuns f r) :
    ∃ p, f.drop p ≠ [] ∧ run = nextRun (f.drop p) (r.drop p) := by
  obtain ⟨before, after, hsplit⟩ := List.append_of_mem h
  obtain ⟨hne, hrun, -⟩ := chooseRuns_split hsplit
  exact ⟨_, hne, hrun⟩

/-- Two chosen runs that are adjacent: the run at a position, and the run where it ends. -/
theorem exists_nextRun_of_adjacent {f r : List Pixel} {run run' : Run} {before after : List Run}
    (h : chooseRuns f r = before ++ run :: run' :: after) :
    ∃ p, f.drop p ≠ [] ∧ run = nextRun (f.drop p) (r.drop p) ∧
      (f.drop p).drop (runPixels run) ≠ [] ∧
      run' = nextRun ((f.drop p).drop (runPixels run)) ((r.drop p).drop (runPixels run)) := by
  obtain ⟨hne, hrun, hafter⟩ := chooseRuns_split h
  obtain ⟨hne', hrun', -⟩ := chooseRuns_split (before := []) hafter.symm
  refine ⟨_, hne, hrun, ?_⟩
  simpa only [runsPixels_nil, Nat.add_zero, List.drop_zero, List.drop_drop] using
    And.intro hne' hrun'

/-- After a DIFF of fewer than 128 pixels comes a SAME or the frame end (R166). -/
theorem nextRun_diff_then_diff {f r l l' : List Pixel} (hl : f.length = r.length) (hf : f ≠ [])
    (h : nextRun f r = .diff l) (hf' : f.drop l.length ≠ [])
    (h' : nextRun (f.drop l.length) (r.drop l.length) = .diff l') : l.length = 128 := by
  obtain ⟨hm, hlen⟩ := nextRun_eq_diff hf h
  obtain ⟨hm', -⟩ := nextRun_eq_diff hf' h'
  rcases selectRun_diff_stops hl hm with hstop | hstop | hstop
  · rw [hlen, hstop]
  · exact absurd (List.drop_of_length_le (by omega)) hf'
  · rw [← hlen] at hstop
    omega

/-- After a SAME of fewer than 128 pixels comes a mismatch or the frame end, so no SAME (R166). -/
theorem nextRun_same_then_same {f r : List Pixel} {n n' : Nat} (hl : f.length = r.length)
    (h : nextRun f r = .same n) (hf' : f.drop n ≠ [])
    (h' : nextRun (f.drop n) (r.drop n) = .same n') : n = 128 := by
  obtain ⟨-, hn⟩ := nextRun_eq_same h
  obtain ⟨hpos, hn'⟩ := nextRun_eq_same h'
  rcases eqRun_stops 128 hl with hstop | hstop | hstop
  · rw [hn, hstop]
  · exact absurd (List.drop_of_length_le (by omega)) hf'
  · have hmatch : (f.drop n)[0]? = (r.drop n)[0]? := getElem?_of_lt_eqRun (cap := 128) (by omega)
    rw [List.getElem?_drop, List.getElem?_drop, Nat.add_zero, hn] at hmatch
    exact absurd hmatch hstop

/-! ## A frame equal to its reference (R155) -/

section
variable {f : List Pixel}

theorem nextRun_self (h : 4 ≤ f.length) : nextRun f f = .same (min 128 f.length) := by
  have hm : eqRun 128 f f = min 128 f.length := eqRun_self 128 f
  have h4 : 4 ≤ eqRun 128 f f := by omega
  rw [nextRun, if_pos h4, selectRun_same h4, hm]

theorem nextRun_self_short (h : f.length < 4) : nextRun f f = .diff f := by
  have h4 : eqRun 128 f f < 4 := Nat.lt_of_le_of_lt (eqRun_le_length 128 f f) h
  rw [nextRun, if_neg (Nat.not_le.mpr h4), selectRun_short h4 h, List.take_length]

/-- The runs of fewer than 128 unchanged pixels. -/
def unchangedTail (f : List Pixel) : List Run :=
  if f.length = 0 then []
  else if 4 ≤ f.length then [.same f.length]
  else [.diff f]

theorem chooseRuns_self_tail (h : f.length < 128) : chooseRuns f f = unchangedTail f := by
  unfold unchangedTail
  split
  next h0 => rw [List.length_eq_zero_iff.mp h0, chooseRuns_nil]
  next h0 =>
    have hf : f ≠ [] := fun he => h0 (List.length_eq_zero_iff.mpr he)
    rw [chooseRuns_of_ne_nil f hf]
    split
    next h4 =>
      rw [nextRun_self h4, Nat.min_eq_right h.le, runPixels, List.drop_length, chooseRuns_nil]
    next h4 =>
      rw [nextRun_self_short (Nat.lt_of_not_le h4), runPixels, List.drop_length, chooseRuns_nil]

/-- Every 128 unchanged pixels are a SAME of the longest length. -/
theorem chooseRuns_self_cons (h : 128 ≤ f.length) :
    chooseRuns f f = .same 128 :: chooseRuns (f.drop 128) (f.drop 128) := by
  have hf : f ≠ [] := by rintro rfl; cases h
  rw [chooseRuns_of_ne_nil f hf, nextRun_self (by omega), Nat.min_eq_left h, runPixels]

theorem chooseRuns_self (q : Nat) {m : Nat} (hm : m < 128) (hf : f.length = 128 * q + m) :
    chooseRuns f f = List.replicate q (.same 128) ++ unchangedTail (f.drop (128 * q)) := by
  induction q generalizing f with
  | zero => exact chooseRuns_self_tail (by omega)
  | succ q ih =>
    rw [chooseRuns_self_cons (by omega), ih (by rw [List.length_drop]; omega), List.drop_drop,
      List.replicate_succ, List.cons_append, Nat.mul_succ, Nat.add_comm 128]

end

/-! ## The obligations on run selection -/

/-- Settles O30, from the bounds of EqRun and where it stops. -/
theorem eqRunMeasuresTheMatch : Obligations.EqRunMeasuresTheMatch := fun f r hl =>
  ⟨eqRun_le_cap 128 f r, eqRun_le_length 128 f r, fun _ => getElem?_of_lt_eqRun, eqRun_stops 128 hl⟩

/-- Settles O31: `n` is the length SelectRun answers, by one of its steps. -/
theorem runSelectionIsGreedy : Obligations.RunSelectionIsGreedy := by
  intro f r hl hf
  obtain ⟨hpos, hmax, hfit⟩ := selectRun_bounds r hf
  refine ⟨(selectRun f r).2, ?_, fun h => ?_, fun h hs => ?_, fun h hs => ?_⟩
  · have hchoose := chooseRuns_of_ne_nil r hf
    rwa [nextRun_pixels hf] at hchoose
  · rw [selectRun_same h]
  · rw [selectRun_short h hs]
  · exact ⟨hpos, hmax, hfit, fun j => selectRun_scan_before h hs, selectRun_diff_stops hl h⟩

/-- Settles O32: each run is the run at its position, and so is its neighbour. -/
theorem chosenRunsBounds : Obligations.ChosenRunsBounds := by
  intro f r hl
  have hdrop (p : Nat) : (f.drop p).length = (r.drop p).length := by simp [hl]
  refine ⟨fun n h => ?_, fun l h => ?_, chooseRuns_pixels f r, fun before l after h => ?_,
    fun before l l' after h => ?_, fun before n n' after h => ?_⟩
  · obtain ⟨p, -, hrun⟩ := exists_nextRun_of_mem h
    obtain ⟨hpos, hn⟩ := nextRun_eq_same hrun.symm
    exact ⟨hpos, hn ▸ eqRun_le_cap 128 _ _⟩
  · obtain ⟨p, hne, hrun⟩ := exists_nextRun_of_mem h
    obtain ⟨-, hlen⟩ := nextRun_eq_diff hne hrun.symm
    obtain ⟨hpos, hmax, -⟩ := selectRun_bounds (r.drop p) hne
    exact hlen ▸ ⟨hpos, hmax⟩
  · obtain ⟨hne, hrun, -⟩ := chooseRuns_split h
    obtain ⟨hm, hlen⟩ := nextRun_eq_diff hne hrun.symm
    have hstops := selectRun_diff_stops (hdrop _) hm
    rw [← hlen, List.drop_drop, List.drop_drop, List.length_drop] at hstops
    have hwithin := List.length_pos_iff.mpr hne
    rw [List.length_drop] at hwithin
    exact hstops.imp_right (Or.imp_left fun h => by omega)
  · obtain ⟨p, hne, hrun, hne', hrun'⟩ := exists_nextRun_of_adjacent h
    exact nextRun_diff_then_diff (hdrop p) hne hrun.symm hne' hrun'.symm
  · obtain ⟨p, -, hrun, hne', hrun'⟩ := exists_nextRun_of_adjacent h
    exact nextRun_same_then_same (hdrop p) hrun.symm hne' hrun'.symm

/-- Settles O33, by the induction over the chosen runs that the round trip of a frame rests on. -/
theorem chosenRunsRebuildTheFrame : Obligations.ChosenRunsRebuildTheFrame :=
  fun _ _ hl => applyRuns_chooseRuns hl

/-- Settles O34: as many longest SAMEs as fit, and the runs of the pixels left. -/
theorem unchangedFrameRuns : Obligations.UnchangedFrameRuns := by
  intro f _
  have hdiv := Nat.div_add_mod f.length 128
  have hsplit : f.length - f.length % 128 = 128 * (f.length / 128) := by omega
  have htail : (f.drop (f.length - f.length % 128)).length = f.length % 128 := by
    rw [List.length_drop]; omega
  rw [chooseRuns_self (f.length / 128) (Nat.mod_lt _ (by decide)) hdiv.symm, ← hsplit,
    unchangedTail, htail]

/-! ## The checks of ENC_HEADER (R152, R153) -/

section
variable {s : State} {nf iv bpp : Byte}

theorem execEncHeader_illegal (hi : s.enc.phase ≠ .idle) (he : s.enc.phase ≠ .error) :
    execEncHeader nf iv bpp s = .next (raise .enc .illegalCommand s) :=
  (ErrorPhase.enc_other _ he).trans (if_pos hi)

theorem execEncHeader_config (hi : s.enc.phase = .idle)
    (hv : ¬ headerValid nf.toNat iv.toNat bpp.toNat s.enc.palLen.toNat = true) :
    execEncHeader nf iv bpp s = .next (raise .enc .config s) :=
  (ErrorPhase.enc_other _ (by simp [hi])).trans ((if_neg fun h => h hi).trans (if_neg hv))

theorem headerBytes_length (pal : List Byte) :
    (headerBytes nf iv bpp pal).length = 3 + pal.length := Nat.add_comm _ 3

/-- A checked header that fits E_OBUF is stored (R154). -/
theorem execEncHeader_stores (hi : s.enc.phase = .idle) (hw : writerReady s)
    (hv : headerValid nf.toNat iv.toNat bpp.toNat s.enc.palLen.toNat = true)
    (hfit : s.enc.outLen.toNat + (3 + paletteBytes bpp.toNat) ≤ s.params.obufCap) :
    execEncHeader nf iv bpp s = .next { s with
      enc := { s.enc.withOutput (byteBits (headerBytes nf iv bpp
          (s.enc.pal.readList 0 (paletteBytes bpp.toNat)))) with
        nframes := nf, interval := iv, bpp := bppField bpp, phase := .header } } := by
  rcases writeHeader_cases (nf := nf) (iv := iv) (bpp := bpp) hw.writerOk hw.1 with
    ⟨hfull, -⟩ | ⟨-, hwrite⟩
  · omega
  · unfold execEncHeader
    rw [ErrorPhase.enc_other _ (by simp [hi]), if_neg (fun h => h hi), if_pos hv, hwrite]

end

/-! ## The checks of ENC_FRAME (R156, R158) -/

section
variable {s : State} {len : BitVec 24}

theorem encFraming_ne_error (hs : s.enc.phase = .header ∨ s.enc.phase = .stream) :
    s.enc.phase ≠ .error := by
  rcases hs with hs | hs <;> simp [hs]

theorem execEncFrame_illegal (hs : ¬ (s.enc.phase = .header ∨ s.enc.phase = .stream))
    (he : s.enc.phase ≠ .error) :
    execEncFrame len s = .next (raise .enc .illegalCommand s) :=
  (ErrorPhase.enc_other _ he).trans (if_neg hs)

theorem execEncFrame_invariant (hs : s.enc.phase = .header ∨ s.enc.phase = .stream)
    (hv : ¬ frameValid s.params.npix len s.enc = true) :
    execEncFrame len s = .next (raise .enc .encodeInvariant s) :=
  (ErrorPhase.enc_other _ (encFraming_ne_error hs)).trans ((if_pos hs).trans (if_neg hv))

/-- A checked frame that fits E_OBUF is stored and becomes the reference (R155, R157, R162). -/
theorem execEncFrame_closes (hs : s.enc.phase = .header ∨ s.enc.phase = .stream)
    (hw : writerReady s) (hlen : len.toNat = s.params.npix)
    (hfin : ∀ k < s.params.npix, (s.enc.fin.read k).toNat < 2 ^ s.enc.bpp.toNat)
    (hfit : s.enc.outLen.toNat + (wireBytes (frameBits s.params.npix s.enc)).length ≤
      s.params.obufCap) :
    execEncFrame len s = .next { s with
      enc := closeEncFrame (frameIn s.params.npix s.enc)
        (s.enc.withOutput (frameBits s.params.npix s.enc)) } := by
  have hv := (frameValid_iff s.params.npix len s.enc).2 ⟨hlen, hfin⟩
  rcases encodeFrame_cases hw.writerOk hw.1 hfin with ⟨hfull, -⟩ | ⟨-, hencode⟩
  · omega
  · unfold execEncFrame
    rw [ErrorPhase.enc_other _ (encFraming_ne_error hs), if_pos hs, if_pos hv, hencode]

/-- An output from a byte boundary to a byte boundary writes E_OBUF and E_OUT_LEN alone (R123). -/
theorem Enc.withOutput_eq {e : Enc} (hcnt : e.wCnt = 0) (hacc : e.wAcc = 0) (bits : List Bool) :
    e.withOutput bits = { e with
      obuf := e.obuf.writeList e.outLen.toNat (wireBytes bits)
      outLen := e.outLen + BitVec.ofNat 24 (wireBytes bits).length } := by
  rw [Enc.withOutput, ← hcnt, ← hacc]

/-- What ENC_FRAME leaves when it stores a frame's bits, and all it changes (R155, R157, R162). -/
theorem execEncFrame_completes (hs : s.enc.phase = .header ∨ s.enc.phase = .stream)
    (hw : writerReady s) (hlen : len.toNat = s.params.npix)
    (hfin : ∀ k < s.params.npix, (s.enc.fin.read k).toNat < 2 ^ s.enc.bpp.toNat)
    {bits : List Bool} (hbits : frameBits s.params.npix s.enc = bits)
    (hfit : s.enc.outLen.toNat + (wireBytes bits).length ≤ s.params.obufCap) :
    ∃ t, exec (.encFrame len) s = .next t ∧
      s.enc.obuf.storesAt t.enc.obuf s.enc.outLen.toNat (wireBytes bits) ∧
      s.enc.ref.storesAt t.enc.ref 0 (pixelsOf (s.enc.fin.readList 0 s.params.npix)) ∧
      t = { s with
        enc := { s.enc with
          obuf := t.enc.obuf, ref := t.enc.ref
          outLen := s.enc.outLen + BitVec.ofNat 24 (wireBytes bits).length
          frames := s.enc.frames + 1
          phase := if s.enc.frames + 1 = s.enc.nframes then .done else .stream } } := by
  subst hbits
  refine ⟨_, execEncFrame_closes hs hw hlen hfin hfit, Mem.storesAt_writeList _ _ _,
    Mem.storesAt_writeList _ _ _, ?_⟩
  obtain ⟨hcnt, hacc, -⟩ := hw
  rw [Enc.withOutput_eq hcnt hacc]
  rfl

end

/-! ## Encoders that agree (R169) -/

/-- The entries up to the end of a sequence of writes: those below it, then the values written. -/
theorem Mem.readList_zero_writeList {w : Nat} (m : Mem w) (n : Nat) (vs : List (BitVec w)) :
    (m.writeList n vs).readList 0 (n + vs.length) = m.readList 0 n ++ vs := by
  rw [Mem.readList_add, Nat.zero_add, Mem.readList_writeList]
  congr 1
  exact Mem.readList_congr fun a _ ha => by rw [Mem.read_writeList, dif_neg (by omega)]

section
variable {npix : Nat} {e e' : Enc}

theorem encAgree.phase_eq (h : encAgree npix e e') : e'.phase = e.phase := by
  obtain ⟨hregs, -⟩ := h
  rw [hregs]

theorem encAgree.outLen_eq (h : encAgree npix e e') : e'.outLen = e.outLen := by
  obtain ⟨hregs, -⟩ := h
  rw [hregs]

theorem encAgree.frames_eq (h : encAgree npix e e') : e'.frames = e.frames := by
  obtain ⟨hregs, -⟩ := h
  rw [hregs]

theorem encAgree.bpp_eq (h : encAgree npix e e') : e'.bpp = e.bpp := by
  obtain ⟨hregs, -⟩ := h
  rw [hregs]

theorem encAgree.frameIn_eq (h : encAgree npix e e') : frameIn npix e' = frameIn npix e := by
  obtain ⟨-, hfin, -⟩ := h
  rw [frameIn, frameIn, hfin]

theorem encAgree.referenceFrame_eq (h : encAgree npix e e') :
    referenceFrame npix e' = referenceFrame npix e := by
  obtain ⟨-, -, href, -⟩ := h
  rw [referenceFrame, referenceFrame, href]

theorem encAgree.frameBits_eq (h : encAgree npix e e') : frameBits npix e' = frameBits npix e := by
  rw [frameBits, frameBits, h.frameIn_eq, h.frames_eq, h.bpp_eq, h.referenceFrame_eq]

theorem encAgree.frameValid_eq (h : encAgree npix e e') (len : BitVec 24) :
    frameValid npix len e' = frameValid npix len e := by
  have hbpp := h.bpp_eq
  obtain ⟨-, hfin, -⟩ := h
  rw [frameValid, frameValid, hfin, hbpp]

theorem encAgree.writerReady {s s' : State} (h : encAgree npix s.enc s'.enc)
    (hparams : s'.params = s.params) (hw : Machine.writerReady s) : Machine.writerReady s' := by
  obtain ⟨hregs, -⟩ := h
  unfold Machine.writerReady
  rw [hparams, hregs]
  exact hw

/-- Storing the same bits keeps the agreement. -/
theorem encAgree.withOutput {bits : List Bool} (h : encAgree npix e e')
    (hout : (e.withOutput bits).outLen.toNat = e.outLen.toNat + (wireBytes bits).length) :
    encAgree npix (e.withOutput bits) (e'.withOutput bits) := by
  have hlen := h.outLen_eq
  obtain ⟨hregs, hfin, href, hobuf⟩ := h
  refine ⟨?_, hfin, href, ?_⟩
  · simp only [Enc.withOutput, hlen]
    conv_lhs => rw [hregs]
  · rw [hout]
    show (e.obuf.writeList e.outLen.toNat _).readList 0 _ =
      (e'.obuf.writeList e'.outLen.toNat _).readList 0 _
    rw [hlen, Mem.readList_zero_writeList, Mem.readList_zero_writeList, hobuf]

/-- Taking the same frame as the reference keeps the agreement. -/
theorem encAgree.closeEncFrame {f : List Pixel} (h : encAgree npix e e') (hf : f.length = npix) :
    encAgree npix (closeEncFrame f e) (closeEncFrame f e') := by
  obtain ⟨hregs, hfin, -, hobuf⟩ := h
  refine ⟨?_, hfin, ?_, hobuf⟩
  · conv_lhs => rw [hregs]
    rfl
  · subst hf
    exact (Mem.readList_writeList e.ref 0 f).trans (Mem.readList_writeList e'.ref 0 f).symm

end

/-! ## The obligations on the commands -/

/-- Settles O18: the decoder looks at OP alone, and the reset has no check. -/
theorem encResetRestoresRegisters : Obligations.EncResetRestoresRegisters :=
  ⟨fun _ h => decodeEnc_encReset h, fun _ => rfl⟩

/-- Settles O20: the checks pass, and the header's bits are its bytes. -/
theorem encHeaderStoresTheHeader : Obligations.EncHeaderStoresTheHeader := by
  intro s nf iv bpp hi hw hnf hiv hb hb8 hpal hfit
  have hv := (headerValid_iff nf iv bpp s.enc.palLen.toNat).2 ⟨hnf, hiv, hb, hb8, hpal⟩
  have hexec := execEncHeader_stores hi hw hv hfit
  obtain ⟨hcnt, hacc, -⟩ := hw
  rw [Enc.withOutput_eq hcnt hacc, wireBytes_byteBits] at hexec
  refine ⟨_, hexec, Mem.storesAt_writeList _ _ _, ?_⟩
  rw [headerBytes_length, Mem.readList_length]
  rfl

/-- Settles O21: the phase is the first check. -/
theorem encHeaderOnlyInIdle : Obligations.EncHeaderOnlyInIdle := fun _ _ _ _ =>
  ⟨execEncHeader_illegal, ErrorPhase.enc _⟩

/-- Settles O22: the operands pass R152's checks or CONFIG is raised; a checked header is written or
overflows. -/
theorem encHeaderValidation : Obligations.EncHeaderValidation := by
  intro s nf iv bpp hi
  have hiff := headerValid_iff nf iv bpp s.enc.palLen.toNat
  refine ⟨fun hbad => execEncHeader_config hi fun hv => hbad ?_,
    fun ⟨hnf, _, hiv, _, hb, hb8, hpal⟩ hw => ?_⟩
  · obtain ⟨hnf, hiv, hb, hb8, hpal⟩ := hiff.1 hv
    exact ⟨hnf, nf.isLt, hiv, iv.isLt, hb, hb8, hpal⟩
  · by_cases hfit : s.enc.outLen.toNat + (3 + 3 * 2 ^ bpp.toNat) ≤ s.params.obufCap
    · exact ⟨_, execEncHeader_stores hi hw (hiff.2 ⟨hnf, hiv, hb, hb8, hpal⟩) hfit, .inl rfl⟩
    · obtain ⟨t, ht, hfailed, -⟩ :=
        encHeaderOverflow s nf iv bpp hi hw hnf hiv hb hb8 hpal (Nat.lt_of_not_le hfit)
      exact ⟨t, ht, .inr (by rw [hfailed]; exact ⟨rfl, rfl⟩)⟩

/-- Settles O24: the bits of a first frame are its pixels'. -/
theorem encFrameStoresTheLiteralFrame : Obligations.EncFrameStoresTheLiteralFrame := by
  intro s len hs hz hw hlen hfin hfit f bytes
  have hbits : frameBits s.params.npix s.enc = pixelBits s.enc.bpp.toNat f := by
    rw [frameBits_eq, if_pos hz]
  have hcount : f.length = s.params.npix := frameIn_length s.params.npix s.enc
  have hbytes : bytes.length = (s.params.npix * s.enc.bpp.toNat + 7) / 8 := by
    rw [wireBytes_length, pixelBits_length, hcount]
  exact ⟨hbytes, execEncFrame_completes (.inl hs) hw hlen hfin hbits (hbytes ▸ hfit)⟩

/-- Settles O25: the bits of a later frame are its runs'. -/
theorem encFrameStoresTheRunFrame : Obligations.EncFrameStoresTheRunFrame := by
  intro s len hs hz hw hlen hfin f runs bytes hfit
  have hbits : frameBits s.params.npix s.enc = runsBits s.enc.bpp.toNat runs := by
    rw [frameBits_eq, if_neg hz]
  exact execEncFrame_completes hs hw hlen hfin hbits hfit

/-- Settles O26: the phase is the first check. -/
theorem encFrameOnlyInAStream : Obligations.EncFrameOnlyInAStream := by
  refine fun s len => ⟨fun hs => ?_, ErrorPhase.enc _⟩
  rcases hs with hs | hs
  · exact execEncFrame_illegal (by simp [hs]) (by simp [hs])
  · exact execEncFrame_illegal (by simp [hs]) (by simp [hs])

/-- Settles O27: the frame fails R158's check before anything is encoded. -/
theorem encFrameValidation : Obligations.EncFrameValidation := by
  intro s len hs hbad
  refine execEncFrame_invariant hs fun hv => ?_
  obtain ⟨hlen, hfin⟩ := (frameValid_iff _ _ _).1 hv
  rcases hbad with hne | ⟨k, hk, hbig⟩
  · exact hne hlen
  · exact absurd (hfin k hk) (Nat.not_lt.mpr hbig)

/-- Settles O29: both encoders store the same bits and take the same frame as reference. -/
theorem encoderOutputIsDetermined : Obligations.EncoderOutputIsDetermined := by
  intro s s' t len hparams hw h ht hok
  rcases execEncFrame_cases len hw.writerOk (fun _ => hw.1) with
    ⟨herr, he⟩ | ⟨c, -, -, he⟩ | ⟨-, he⟩ | ⟨hs, hlen, hfin, hfit, he⟩ <;> cases he.symm.trans ht
  · exact absurd herr hok
  · exact absurd rfl hok
  · exact absurd rfl hok
  · have hw' := h.writerReady hparams hw
    have hs' : s'.enc.phase = .header ∨ s'.enc.phase = .stream := by
      rw [h.phase_eq]; exact hs
    have hvalid := (frameValid_iff s.params.npix len s.enc).2 ⟨hlen, hfin⟩
    rw [← h.frameValid_eq, ← hparams] at hvalid
    obtain ⟨hlen', hfin'⟩ := (frameValid_iff _ _ _).1 hvalid
    have hexec := execEncFrame_closes hs' hw' hlen' hfin'
      (by rw [hparams, h.frameBits_eq, h.outLen_eq]; exact hfit)
    rw [hparams, h.frameIn_eq, h.frameBits_eq] at hexec
    obtain ⟨-, hout, -⟩ := execEncFrame_stores hw hs ht hok
    exact ⟨_, hexec, (h.withOutput hout).closeEncFrame (frameIn_length _ _)⟩

end Sys2Proof.Machine

/-!
The decoder (42_decoder.md). Each check of DEC_INIT, DEC_FRAME and DEC_CHECK_END has an equation of its
own, and a frame of either kind that is read to its end leaves `State.withFrame`. The whole stream
(R203) is then an induction over its frames: `EncodingStream` is what ENC keeps between two frames,
`StreamExtends` what a frame leaves of the stream before it, and `FollowsEncoder` what a decoder has
that is at the same frame of the finished stream.
-/

namespace Sys2Proof.Machine

/-! ## DEC_INIT (R191, R192) -/

section
variable {s : State} {len : BitVec 24}

theorem execDecInit_illegal (he : s.dec.phase ≠ .error)
    (hbad : s.dec.phase ≠ .idle ∨ s.params.ibufCap < len.toNat) :
    execDecInit len s = .next (raise .dec .illegalCommand s) := by
  refine (ErrorPhase.dec_other _ he).trans ?_
  by_cases hi : s.dec.phase = .idle
  · have hlong : s.params.ibufCap < len.toNat := hbad.resolve_left fun h => h hi
    rw [if_neg fun h => h hi, if_pos hlong]
  · rw [if_pos hi]

/-- Past the checks of R191, an error of ReadHeader is a mid-operation error of DEC_INIT (R238). -/
theorem execDecInit_fails {c : ErrCode} (hi : s.dec.phase = .idle)
    (hlen : len.toNat ≤ s.params.ibufCap) (hr : readHeader (startInput len s.dec) = .error c) :
    execDecInit len s = .next (raise .dec c (loseDecHeader len s)) := by
  unfold execDecInit
  rw [ErrorPhase.dec_other _ (by simp [hi]), if_neg fun h => h hi, if_neg hlen.not_gt, hr]

/-- Past the checks of R191, DEC_INIT keeps what ReadHeader read and opens the stream. -/
theorem execDecInit_completes {d : Dec} (hi : s.dec.phase = .idle)
    (hlen : len.toNat ≤ s.params.ibufCap) (hr : readHeader (startInput len s.dec) = .ok d) :
    execDecInit len s = .next { s with dec := { d with frames := 0, phase := .active } } := by
  unfold execDecInit
  rw [ErrorPhase.dec_other _ (by simp [hi]), if_neg fun h => h hi, if_neg hlen.not_gt, hr]

end

theorem loseDecHeader_failed (c : ErrCode) (len : BitVec 24) (s : State) :
    decInitFailed c len s (raise .dec c (loseDecHeader len s)) :=
  ⟨rfl, BitVec.le_def.2 (freeUpTo_toNat_le 24 s.free len.toNat)⟩

/-! ## DEC_FRAME and DEC_CHECK_END (R194 to R201) -/

section
variable {s : State}

theorem execDecFrame_illegal (ha : s.dec.phase ≠ .active) (he : s.dec.phase ≠ .error) :
    execDecFrame s = .next (raise .dec .illegalCommand s) :=
  (ErrorPhase.dec_other _ he).trans (if_pos ha)

theorem execDecCheckEnd_illegal (ha : s.dec.phase ≠ .allRead) (he : s.dec.phase ≠ .error) :
    execDecCheckEnd s = .next (raise .dec .illegalCommand s) :=
  (ErrorPhase.dec_other _ he).trans (if_pos ha)

/-- In DP_ALLREAD the command is the trailing-data check (R201). -/
theorem execDecCheckEnd_allRead (ha : s.dec.phase = .allRead) :
    execDecCheckEnd s =
      if s.dec.pos = s.dec.inLen then .next { s with dec := { s.dec with phase := .done } }
      else .next (raise .dec .decodeTrailing s) := by
  unfold execDecCheckEnd
  rw [ErrorPhase.dec_other _ (by simp [ha]), if_neg fun h => h ha]
  simp only [eof, decide_eq_true_eq]

end

/-- D_STATUS after DEC_RESET: EOF alone, since no byte is pending (R43, R193). -/
theorem decStatus_resetDecRegisters (d : Dec) : decStatus (resetDecRegisters d) = 0x200#32 := by
  have hfields : decStatus (resetDecRegisters d) =
      0#22 ++ BitVec.ofBool true ++ BitVec.ofBool false ++ errCodeBits .none ++ 0#1 ++
        decPhaseCode .idle := rfl
  rw [hfields]
  decide

/-- A reader that starts at a byte boundary and aligns after `n` bits has consumed the bytes they
touch (R129, R132). -/
theorem aligned_cursor {d d' : Dec} {n : Nat} (hready : readerReady d)
    (hcursor : 8 * d'.pos.toNat + d.rCnt.toNat = 8 * d.pos.toNat + d'.rCnt.toNat + n) :
    d'.pos.toNat = d.pos.toNat + (n + 7) / 8 := by
  obtain ⟨hcnt, -, -⟩ := hready
  have hzero : d.rCnt.toNat = 0 := by rw [hcnt]; rfl
  have hlt := d'.rCnt.isLt
  omega

/-- What DEC_FRAME leaves when it reads a frame to its end: D_CUR holds `cur`, the cursor stands at
`pos` on a byte boundary, the frame count and the phase advance (R195, R196, R200). -/
def State.withFrame (cur : Mem 7) (pos : BitVec 24) (s : State) : State :=
  { s with
    dec := { s.dec with
      cur := cur, pos := pos, busy := false, pix := 0
      frames := s.dec.frames + 1
      phase := if s.dec.frames + 1 = s.dec.nframes then .allRead else .active } }

/-- The end of a frame that began at a byte boundary and changed nothing but D_CUR, the reader and the
position inside the frame (R200). -/
theorem finishFrame_eq_withFrame {s : State} {d : Dec} (hready : readerReady s.dec)
    (hd : d = { s.dec with
      busy := d.busy, pix := d.pix, cur := d.cur, pos := d.pos, rAcc := d.rAcc, rCnt := d.rCnt }) :
    finishFrame { s with dec := d } = s.withFrame d.cur d.pos := by
  obtain ⟨hcnt, hacc, -⟩ := hready
  rw [hd]
  simp only [finishFrame, align, State.withFrame, ← hcnt, ← hacc]

/-! ## The steps inside a run frame (R196; log 7) -/

theorem core_run_succ {s t : State} (k : Nat) (h : step s = .next t) :
    Sys2Proof.core.run (k + 1) s = Sys2Proof.core.run k t := by
  have hcore : Sys2Proof.core.step s = .next t := h
  simp only [Host.Core.run, hcore]

/-- A run of steps with no host event pending is the loop of token cycles: each step inside the frame
is a cycle, and after the frame each step waits. -/
theorem core_run_eq_decodeRunsLoop (k : Nat) {s : State} (hh : s.host = []) :
    Sys2Proof.core.run k s = decodeRunsLoop k s := by
  induction k generalizing s with
  | zero => rfl
  | succ k ih =>
    cases hb : s.dec.busy with
    | false =>
      rw [core_run_succ k (step_wait hb hh), ih hh, decodeRunsLoop_idle _ hb,
        decodeRunsLoop_idle _ hb]
    | true =>
      obtain ⟨t, ht⟩ := (tokenCycle_actsOnUnit s).next_exists
      obtain ⟨hst, -⟩ := (tokenCycle_actsOnUnit s).of_next ht
      obtain ⟨-, hhost, -⟩ := hst.params_host_rdata
      rw [core_run_succ k ((step_token hb).trans ht), ih (hhost.trans hh), decodeRunsLoop,
        if_pos hb, ht]

/-! ## Tokens (R197 to R199) -/

section
variable {s : State} {n : Nat}

theorem execSame_overshoots (h : s.params.npix < s.dec.pix + n) :
    execSame n s = .next (failDecFrame .decodeFraming s) := if_pos h

/-- The framing check comes before any literal (R197). -/
theorem execDiff_overshoots (h : s.params.npix < s.dec.pix + n) :
    execDiff n s = .next (failDecFrame .decodeFraming s) := if_pos h

theorem execSame_completes (h : s.dec.pix + n ≤ s.params.npix) :
    execSame n s = .next { s with dec := { s.dec with pix := s.dec.pix + n } } := if_neg h.not_gt

theorem execDiff_truncated (h : s.dec.pix + n ≤ s.params.npix) (ho : readerOk s.dec)
    (hbits : (unreadBits s.dec).length < n * s.dec.bpp.toNat) :
    execDiff n s = .next (failDecFrame .decodeTruncated s) := by
  rcases execDiff_cases n ho with ⟨hover, -⟩ | ⟨-, -, he⟩ | ⟨-, d, ⟨-, -, -, hfit, -⟩, -⟩
  · omega
  · exact he
  · omega

theorem execDiff_completes (h : s.dec.pix + n ≤ s.params.npix) (ho : readerOk s.dec)
    (hbits : n * s.dec.bpp.toNat ≤ (unreadBits s.dec).length) :
    ∃ d, Reads s.dec d (n * s.dec.bpp.toNat) ∧
      execDiff n s = .next { s with
        dec := { d with
          cur := s.dec.cur.writeList s.dec.pix (pixelFields s.dec.bpp.toNat n (unreadBits s.dec))
          pix := s.dec.pix + n } } := by
  rcases execDiff_cases n ho with ⟨hover, -⟩ | ⟨-, hshort, -⟩ | ⟨-, he⟩
  · omega
  · omega
  · exact he

/-- The header of a run that overshoots, in a token cycle: the error, whatever follows (R196, R197). -/
theorem tokenCycle_overshoots {mode : Nat} {rest : List Bool} (ho : readerOk s.dec)
    (hm : mode < 2) (h1 : 1 ≤ n) (h2 : n ≤ 128) (hover : s.params.npix < s.dec.pix + n)
    (hu : unreadBits s.dec = runHeaderBits mode n ++ rest) :
    ∃ d, Reads s.dec d 8 ∧
      tokenCycle runToken s = .next (failDecFrame .decodeFraming { s with dec := d }) := by
  obtain ⟨d, hd, -, he⟩ := tokenCycle_header ho hm h1 h2 hu
  have hpix : d.pix = s.dec.pix := by rw [hd.1]
  have hover' : s.params.npix < d.pix + n := hpix ▸ hover
  refine ⟨d, hd, he.trans ?_⟩
  rw [execDiff_overshoots (s := { s with dec := d }) hover',
    execSame_overshoots (s := { s with dec := d }) hover', ite_self]
  exact congrArg Host.Outcome.next (settle_idle rfl)

end

/-! ## The obligations on the commands -/

/-- Settles O38: the header and the palette are there, and ReadHeader reads them. -/
theorem decInitReadsTheHeader : Obligations.DecInitReadsTheHeader := by
  intro s len hi hlen nf iv bpp hnf hiv hb hb8 hfit
  have hrange := (headerInRange_iff nf iv bpp).2 ⟨hnf, hiv, hb, hb8⟩
  have hpalette : ¬ len.toNat < 3 + paletteBytes bpp.toNat := Nat.not_lt.mpr hfit
  have hread := readHeader_start len s.dec
  rw [if_neg (by omega), if_pos hrange, if_neg hpalette] at hread
  exact ⟨_, execDecInit_completes hi hlen hread, Mem.storesAt_writeList _ _ _, rfl⟩

/-- Settles O40: ReadHeader's checks, in their order. -/
theorem decInitErrors : Obligations.DecInitErrors := by
  intro s len hi hlen nf iv bpp
  have hread := readHeader_start len s.dec
  have hrange := headerInRange_iff nf iv bpp
  have fails {c : ErrCode} (hr : readHeader (startInput len s.dec) = .error c) :
      ∃ t, exec (.decInit len) s = .next t ∧ decInitFailed c len s t :=
    ⟨_, execDecInit_fails hi hlen hr, loseDecHeader_failed c len s⟩
  refine ⟨fun h3 => fails ?_, fun h3 hbad => fails ?_, fun h3 hnf hiv hb hb8 hshort => fails ?_⟩
  · rw [hread, if_pos h3]
  · rw [hread, if_neg h3.not_gt, if_neg fun hv => by have := hrange.1 hv; omega]
  · have hpalette : len.toNat < 3 + paletteBytes bpp.toNat := hshort
    rw [hread, if_neg h3.not_gt, if_pos (hrange.2 ⟨hnf, hiv, hb, hb8⟩), if_pos hpalette]

/-- Settles O41: the pixels are there, and the frame ends at the next byte boundary. -/
theorem decFrameReadsTheLiteralFrame : Obligations.DecFrameReadsTheLiteralFrame := by
  intro s ha hf hready hbits
  rcases execDecFrame_literal ha hf hready.readerOk with ⟨hshort, -⟩ | ⟨d, hd, he⟩
  · omega
  · have hpos := aligned_cursor hready (hd.cursor hready.readerOk)
    obtain ⟨hregs, -⟩ := hd
    rw [finishFrame_eq_withFrame hready (by rw [hregs])] at he
    have hstores := Mem.storesAt_writeList s.dec.cur 0
      (pixelFields s.dec.bpp.toNat s.params.npix (unreadBits s.dec))
    exact ⟨_, he, hstores, hpos, rfl⟩

/-- Settles O42: the loop executes the runs, which store what `applyRuns` says. -/
theorem decFrameExecutesTheRuns : Obligations.DecFrameExecutesTheRuns := by
  intro s runs rest ha hf hready hr hcovers hu
  obtain ⟨d, hd, -, hcursor, he⟩ := execDecFrame_covers ha hf hready.readerOk hr hcovers hu
  have hcur : d.cur = s.dec.cur.writeRuns 0 runs := by rw [hd]; rfl
  have hruns := Mem.readList_writeRuns s.dec.cur 0 runs
  rw [finishFrame_eq_withFrame hready (by rw [hd]; rfl), hcur] at he
  rw [hcovers] at hruns
  have hpos := aligned_cursor hready hcursor
  exact ⟨_, he, hruns, fun a ha => Mem.read_writeRuns_above _ runs (by omega),
    hpos, rfl⟩

/-- Settles O44: the framing check of the run after the legal ones comes before its literals. -/
theorem overshootingRunIsAFramingError : Obligations.OvershootingRunIsAFramingError := by
  intro s runs mode n rest ha hf hready hr hp hm h1 h2 hover hu
  refine execDecFrame_fails ha hf hready.readerOk hr hp hu fun d hd hod hud => ?_
  have hpix : d.pix = runsPixels runs := by rw [hd]; exact Nat.zero_add _
  obtain ⟨d', hd', hc⟩ := tokenCycle_overshoots (s := { s with dec := d }) hod hm h1 h2
    (hpix ▸ hover) hud
  exact ⟨d', 8, hd', hc⟩

/-- Settles O46: no event is pending, so the steps are the token cycles of the loop. -/
theorem decFrameIsItsTokenSteps : Obligations.DecFrameIsItsTokenSteps := by
  intro s ha hf hh
  have hopen : (openRunFrame s).host = [] := by
    obtain ⟨-, hhost, -⟩ := (openRunFrame_changesOnly_dec s).params_host_rdata
    exact hhost.trans hh
  exact (execDecFrame_runFrame ha hf).trans (core_run_eq_decodeRunsLoop _ hopen).symm

/-- Settles O51: the literals are there, and the token stores them. -/
theorem diffOverwritesItsSpan : Obligations.DiffOverwritesItsSpan := by
  intro s n h1 h2 hfit ho hbits
  obtain ⟨d, ⟨hregs, -, -, -, hunread⟩, he⟩ := execDiff_completes hfit ho hbits
  have hstores := Mem.storesAt_writeList s.dec.cur s.dec.pix
    (pixelFields s.dec.bpp.toNat n (unreadBits s.dec))
  refine ⟨_, he, hstores, hunread, ?_⟩
  conv_lhs => rw [hregs]

/-- Settles O52: both tokens make the same check first, and pass it at the frame end. -/
theorem tokenFramingCheck : Obligations.TokenFramingCheck := by
  refine fun s n => ⟨fun hover => ⟨⟨_, execSame_overshoots hover, failDecFrame_failed _ s⟩,
    ⟨_, execDiff_overshoots hover, failDecFrame_failed _ s⟩⟩, fun hend hphase ho hbits => ?_⟩
  obtain ⟨d, ⟨hregs, -⟩, he⟩ := execDiff_completes hend.le ho hbits
  have hd : d.phase = s.dec.phase := by rw [hregs]
  exact ⟨⟨_, execSame_completes hend.le, hphase⟩, ⟨_, he, hd ▸ hphase⟩⟩

/-- Settles O53: the token is within the frame, so the literals are what is missing. -/
theorem diffWithoutItsLiteralsIsTruncated : Obligations.DiffWithoutItsLiteralsIsTruncated :=
  fun s _ hfit ho hbits => ⟨_, execDiff_truncated hfit ho hbits, failDecFrame_failed _ s⟩

/-- Settles O19: the decoder looks at OP alone, and the reset has no check. -/
theorem decResetRestoresRegisters : Obligations.DecResetRestoresRegisters :=
  ⟨fun _ h => decodeDec_decReset h, fun _ => ⟨_, rfl, decStatus_resetDecRegisters _, rfl⟩⟩

/-- Settles O39: the phase and the length are the first checks. -/
theorem decInitRejects : Obligations.DecInitRejects :=
  fun _ _ => ⟨execDecInit_illegal, ErrorPhase.dec _⟩

/-- Settles O43: the phase is the first check. -/
theorem decFrameOnlyWhenActive : Obligations.DecFrameOnlyWhenActive :=
  fun _ => ⟨execDecFrame_illegal, ErrorPhase.dec _⟩

/-- Settles O49: the phase is the first check, and trailing data the second. -/
theorem decCheckEndFindsTrailingData : Obligations.DecCheckEndFindsTrailingData :=
  fun _ => ⟨fun ha hend => (execDecCheckEnd_allRead ha).trans (if_pos hend),
    fun ha hmore => (execDecCheckEnd_allRead ha).trans (if_neg hmore),
    execDecCheckEnd_illegal, ErrorPhase.dec _⟩

/-- Settles O50: SAME moves the position alone. -/
theorem sameKeepsItsSpan : Obligations.SameKeepsItsSpan :=
  fun _ _ _ _ hfit => execSame_completes hfit

/-! ## ENC between two frames (R157, R265) -/

/-- The output stream of `s` is the beginning of `u`'s, under the same header (R29, R30, R36). -/
structure StreamExtends (s u : State) : Prop where
  params : u.params = s.params
  nframes : u.enc.nframes = s.enc.nframes
  interval : u.enc.interval = s.enc.interval
  bpp : u.enc.bpp = s.enc.bpp
  grows : s.enc.outLen.toNat ≤ u.enc.outLen.toNat
  bytes : ∀ a < s.enc.outLen.toNat, u.enc.obuf.read a = s.enc.obuf.read a

theorem StreamExtends.refl (s : State) : StreamExtends s s :=
  ⟨rfl, rfl, rfl, rfl, le_rfl, fun _ _ => rfl⟩

theorem StreamExtends.trans {s t u : State} (hst : StreamExtends s t) (htu : StreamExtends t u) :
    StreamExtends s u where
  params := htu.params.trans hst.params
  nframes := htu.nframes.trans hst.nframes
  interval := htu.interval.trans hst.interval
  bpp := htu.bpp.trans hst.bpp
  grows := hst.grows.trans htu.grows
  bytes a ha := (htu.bytes a (ha.trans_le hst.grows)).trans (hst.bytes a ha)

/-- ENC stands between two frames of a stream, `k` frames before its end (R26, R32). -/
structure EncodingStream (k : Nat) (s : State) : Prop where
  ready : writerReady s
  count : s.enc.frames.toNat + k = s.enc.nframes.toNat
  unfinished : 0 < k → s.enc.phase = .header ∨ s.enc.phase = .stream
  finished : k = 0 → s.enc.phase = .done

/-- Loading E_FIN changes nothing of the stream (R107). -/
theorem EncodingStream.loadFrame {k : Nat} {s : State} (h : EncodingStream k s) (g : List Byte) :
    EncodingStream k (loadFrame g s) := ⟨h.ready, h.count, h.unfinished, h.finished⟩

theorem StreamExtends.of_loadFrame {g : List Byte} {s u : State}
    (h : StreamExtends (loadFrame g s) u) : StreamExtends s u :=
  ⟨h.params, h.nframes, h.interval, h.bpp, h.grows, h.bytes⟩

/-- The loaded bytes are the frame ENC_FRAME encodes (R155). -/
theorem frameIn_loadFrame {g : List Byte} {npix : Nat} (s : State) (hg : g.length = npix) :
    frameIn npix (loadFrame g s).enc = pixelsOf g := by
  subst hg
  exact congrArg pixelsOf (Mem.readList_writeList s.enc.fin 0 g)

section
variable {k : Nat} {s t : State} {len : BitVec 24}

/-- An ENC_FRAME that raises no error found room for its bytes and stored them (R155, R157, R162). -/
theorem EncodingStream.execEncFrame_ok (h : EncodingStream (k + 1) s)
    (hexec : execEncFrame len s = .next t) (ht : t.enc.phase ≠ .error) :
    s.enc.outLen.toNat + (wireBytes (frameBits s.params.npix s.enc)).length ≤ s.params.obufCap ∧
      t = { s with
        enc := closeEncFrame (frameIn s.params.npix s.enc)
          (s.enc.withOutput (frameBits s.params.npix s.enc)) } := by
  obtain ⟨hcnt, -⟩ := h.ready
  rcases execEncFrame_cases len h.ready.writerOk (fun _ => hcnt) with
    ⟨herr, he⟩ | ⟨c, -, -, he⟩ | ⟨-, he⟩ | ⟨-, -, -, hfit, he⟩ <;> cases he.symm.trans hexec
  · exact absurd herr ht
  · exact absurd rfl ht
  · exact absurd rfl ht
  · exact ⟨hfit, rfl⟩

/-- The frame count after one more frame, which does not wrap (R32). -/
theorem EncodingStream.frames_succ (h : EncodingStream (k + 1) s) :
    (s.enc.frames + 1).toNat = s.enc.frames.toNat + 1 := by
  have hcount := h.count
  have hlt := s.enc.nframes.isLt
  rw [BitVec.toNat_add, show (1 : BitVec 8).toNat = 1 from rfl]
  omega

/-- The stream ends when its frame count is reached (R32). -/
theorem EncodingStream.frames_eq_nframes_iff (h : EncodingStream k s) :
    s.enc.frames = s.enc.nframes ↔ k = 0 := by
  have hcount := h.count
  rw [← BitVec.toNat_inj]
  omega

/-- ENC_FRAME takes ENC one frame further (R157). -/
theorem EncodingStream.next (h : EncodingStream (k + 1) s)
    (hexec : execEncFrame len s = .next t) (ht : t.enc.phase ≠ .error) : EncodingStream k t := by
  obtain ⟨-, hout, -⟩ := execEncFrame_stores h.ready (h.unfinished k.succ_pos) hexec ht
  obtain ⟨hfit, rfl⟩ := h.execEncFrame_ok hexec ht
  have hcount := h.count
  have hlast : s.enc.frames + 1 = s.enc.nframes ↔ k = 0 := by
    rw [← BitVec.toNat_inj, h.frames_succ]
    omega
  obtain ⟨-, -, -, hcap⟩ := h.ready
  refine ⟨⟨rfl, rfl, hout.trans_le hfit, hcap⟩, ?_, fun hk => ?_, fun hk => ?_⟩
  · have hframes := h.frames_succ
    show (s.enc.frames + 1).toNat + k = s.enc.nframes.toNat
    omega
  · exact .inr (if_neg fun he => hk.ne' (hlast.1 he))
  · exact if_pos (hlast.2 hk)

theorem EncodingStream.frames_next (h : EncodingStream (k + 1) s)
    (hexec : execEncFrame len s = .next t) (ht : t.enc.phase ≠ .error) :
    t.enc.frames = s.enc.frames + 1 := by
  obtain ⟨-, rfl⟩ := h.execEncFrame_ok hexec ht
  rfl

/-- ENC_FRAME writes behind the stream before it (R36, R155). -/
theorem EncodingStream.stream_extends (h : EncodingStream (k + 1) s)
    (hexec : execEncFrame len s = .next t) (ht : t.enc.phase ≠ .error) : StreamExtends s t := by
  obtain ⟨-, hout, -⟩ := execEncFrame_stores h.ready (h.unfinished k.succ_pos) hexec ht
  obtain ⟨-, rfl⟩ := h.execEncFrame_ok hexec ht
  refine ⟨rfl, rfl, rfl, rfl, by omega, fun a ha => ?_⟩
  exact (Mem.read_writeList _ _ _ _).trans (dif_neg (by omega))

end

/-- What a sequence of frames that all encode was: the first frame, then the others (R265). -/
theorem encodeFrames_cons_some {g : List Byte} {gs : List (List Byte)} {s u : State}
    {refs : List (List Pixel)} (h : encodeFrames (g :: gs) s = some (refs, u)) :
    ∃ t refs', execEncFrame (BitVec.ofNat 24 s.params.npix) (loadFrame g s) = .next t ∧
      t.enc.phase ≠ .error ∧ encodeFrames gs t = some (refs', u) ∧
      refs = t.enc.ref.readList 0 t.params.npix :: refs' := by
  rw [encodeFrames] at h
  split at h
  next t ht =>
    split at h
    next => cases h
    next herr =>
      split at h
      next refs' u' hrest =>
        cases h
        exact ⟨t, refs', ht, herr, hrest, rfl⟩
      next => cases h
  next => cases h
  next => cases h

/-- Encoding the frames that are left ends the stream, behind what was written before, and E_REF is each
frame in turn (R157, R162, R265). -/
theorem encodeFrames_ends (gs : List (List Byte)) {s u : State} {refs : List (List Pixel)}
    (hs : EncodingStream gs.length s) (hg : ∀ g ∈ gs, g.length = s.params.npix)
    (h : encodeFrames gs s = some (refs, u)) :
    EncodingStream 0 u ∧ StreamExtends s u ∧ refs = gs.map pixelsOf := by
  induction gs generalizing s refs with
  | nil =>
    cases h
    exact ⟨hs, .refl _, rfl⟩
  | cons g gs ih =>
    obtain ⟨t, refs', hexec, ht, hrest, rfl⟩ := encodeFrames_cons_some h
    have hload := hs.loadFrame g
    obtain ⟨-, -, -, href⟩ :=
      execEncFrame_stores hload.ready (hload.unfinished gs.length.succ_pos) hexec ht
    have hst : StreamExtends s t := (hload.stream_extends hexec ht).of_loadFrame
    obtain ⟨hu, htu, rfl⟩ :=
      ih (hload.next hexec ht) (fun g' hg' => by rw [hst.params]; exact hg g' (by simp [hg'])) hrest
    refine ⟨hu, hst.trans htu, ?_⟩
    rw [List.map_cons, hst.params, ← frameIn_loadFrame s (hg g (by simp))]
    exact congrArg (· :: _) href

/-! ## The header (R154, R192) -/

/-- ENC has written a header and its palette, and nothing else (R91, R154). -/
structure HeaderWritten (nf iv bpp : Byte) (pal : List Byte) (t : State) : Prop where
  range : 0 < nf.toNat ∧ 0 < iv.toNat ∧ 0 < bpp.toNat ∧ bpp.toNat < 8
  nframes : t.enc.nframes = nf
  interval : t.enc.interval = iv
  frames : t.enc.frames = 0
  palette : pal.length = paletteBytes bpp.toNat
  outLen : t.enc.outLen.toNat = (headerBytes nf iv bpp pal).length
  bytes : t.enc.obuf.readList 0 (headerBytes nf iv bpp pal).length = headerBytes nf iv bpp pal
  bpp : t.enc.bpp = bppField bpp

theorem Mem.read_eq_of_readList {b : Nat} {m m' : Mem b} {n a : Nat}
    (h : m.readList 0 n = m'.readList 0 n) (ha : a < n) : m.read a = m'.read a := by
  have hentry := List.map_inj_left.1 h a (List.mem_range.2 ha)
  rwa [Nat.zero_add] at hentry

/-- The entries of a memory that begins with a header (R91). -/
theorem Mem.read_headerBytes {m : Mem 8} {nf iv bpp : Byte} {pal : List Byte}
    (h : m.readList 0 (headerBytes nf iv bpp pal).length = headerBytes nf iv bpp pal) :
    m.read 0 = nf ∧ m.read 1 = iv ∧ m.read 2 = bpp ∧ m.readList 3 pal.length = pal := by
  simpa [headerBytes, Mem.readList_succ] using h

/-- The first bytes of an output stream stand at the beginning of E_OBUF (R29, R36). -/
theorem Enc.withOutput_obuf_start {e : Enc} (hout : e.outLen = 0) (bs : List Byte) :
    (e.withOutput (byteBits bs)).obuf.readList 0 bs.length = bs := by
  rw [Enc.withOutput, wireBytes_byteBits, hout]
  exact Mem.readList_writeList e.obuf 0 bs

/-- An ENC_HEADER that enters EP_HEADER passed its checks, found room for its bytes and stored them
(R152, R154). -/
theorem execEncHeader_ok {s t : State} {nf iv bpp : Byte} (hw : writerReady s)
    (hexec : execEncHeader nf iv bpp s = .next t) (ht : t.enc.phase = .header) :
    (0 < nf.toNat ∧ 0 < iv.toNat ∧ 0 < bpp.toNat ∧ bpp.toNat < 8) ∧
      s.enc.outLen.toNat + (3 + paletteBytes bpp.toNat) ≤ s.params.obufCap ∧
      t = { s with
        enc := { s.enc.withOutput (byteBits (headerBytes nf iv bpp
            (s.enc.pal.readList 0 (paletteBytes bpp.toNat)))) with
          nframes := nf, interval := iv, bpp := bppField bpp, phase := .header } } := by
  obtain ⟨hcnt, -⟩ := id hw
  rcases execEncHeader_cases nf iv bpp hw.writerOk (fun _ => hcnt) with
    ⟨herr, he⟩ | ⟨c, -, -, he⟩ | ⟨-, he⟩ | ⟨-, hnf, hiv, hb, hb8, hfit, he⟩ <;>
    cases he.symm.trans hexec
  · rw [herr] at ht
    cases ht
  · cases ht
  · cases ht
  · exact ⟨⟨hnf, hiv, hb, hb8⟩, hfit, rfl⟩

/-- ENC_HEADER after a reset opens the stream: its bytes are the header alone (R154, R263). -/
theorem execEncHeader_opens {s t : State} {nf iv bpp : Byte} (hv : s.params.valid)
    (hs : s.enc = { resetEncRegisters s.enc with palLen := s.enc.palLen })
    (hexec : execEncHeader nf iv bpp s = .next t) (ht : t.enc.phase = .header) :
    t.params = s.params ∧ EncodingStream nf.toNat t ∧
      HeaderWritten nf iv bpp (s.enc.pal.readList 0 (paletteBytes bpp.toNat)) t := by
  have hout : s.enc.outLen = 0 := congrArg Enc.outLen hs
  have hframes : s.enc.frames = 0 := congrArg Enc.frames hs
  obtain ⟨-, ⟨-, hcap⟩, -⟩ := id hv
  have hready : writerReady s :=
    ⟨congrArg Enc.wCnt hs, congrArg Enc.wAcc hs, by rw [hout]; exact Nat.zero_le _, hcap⟩
  obtain ⟨hrange, hfit, rfl⟩ := execEncHeader_ok hready hexec ht
  have hpal := Mem.readList_length s.enc.pal 0 (paletteBytes bpp.toNat)
  generalize s.enc.pal.readList 0 (paletteBytes bpp.toNat) = pal at hpal ⊢
  rw [← hpal, ← headerBytes_length (nf := nf) (iv := iv) (bpp := bpp),
    ← wireBytes_byteBits (headerBytes nf iv bpp pal)] at hfit
  have hlen : (s.enc.withOutput (byteBits (headerBytes nf iv bpp pal))).outLen.toNat =
      (headerBytes nf iv bpp pal).length := by
    rw [Enc.withOutput_outLen hv hfit, wireBytes_byteBits, hout]
    exact Nat.zero_add _
  have hbound := (Enc.withOutput_outLen hv hfit).trans_le hfit
  have hcount : s.enc.frames.toNat + nf.toNat = nf.toNat := by
    rw [hframes]
    exact Nat.zero_add _
  exact ⟨rfl,
    ⟨⟨rfl, rfl, hbound, hcap⟩, hcount, fun _ => .inl rfl, fun hz => absurd hz hrange.1.ne'⟩,
    ⟨hrange, rfl, rfl, hframes, hpal, hlen, Enc.withOutput_obuf_start hout _, rfl⟩⟩

/-! ## A decoder behind the encoder (R203, R266) -/

/-- DEC has the finished stream of `u` as its input and has read of it what ENC had written at `s`. -/
structure FollowsEncoder (u s w : State) : Prop where
  params : w.params = s.params
  ready : readerReady w.dec
  pos : w.dec.pos = s.enc.outLen
  inLen : w.dec.inLen = u.enc.outLen
  input : ∀ a < u.enc.outLen.toNat, w.dec.ibuf.read a = u.enc.obuf.read a
  nframes : w.dec.nframes = s.enc.nframes
  frames : w.dec.frames = s.enc.frames
  bpp : w.dec.bpp = s.enc.bpp
  phase : w.dec.phase = if s.enc.frames = s.enc.nframes then .allRead else .active
  reference : s.enc.frames ≠ 0 →
    w.dec.cur.readList 0 s.params.npix = referenceFrame s.params.npix s.enc

theorem FollowsEncoder.loadFrame {u s w : State} (h : FollowsEncoder u s w) (g : List Byte) :
    FollowsEncoder u (loadFrame g s) w :=
  ⟨h.params, h.ready, h.pos, h.inLen, h.input, h.nframes, h.frames, h.bpp, h.phase, h.reference⟩

/-- DEC_FRAME on the bits ENC_FRAME stored decodes the frame and changes nothing but what a frame
changes (R195, R196, R200). -/
theorem execDecFrame_frameBits {u : State} {e : Enc} {rest : List Bool}
    (hsame : AtSameFrame u.params.npix e u.dec) (hready : readerReady u.dec)
    (hfin : ∀ k < u.params.npix, (e.fin.read k).toNat < 2 ^ e.bpp.toNat)
    (hu : unreadBits u.dec = frameBits u.params.npix e ++ rest) :
    ∃ cur pos, execDecFrame u = .next (u.withFrame cur pos) ∧
      cur.readList 0 u.params.npix = frameIn u.params.npix e ∧
      pos.toNat = u.dec.pos.toNat + (wireBytes (frameBits u.params.npix e)).length := by
  obtain ⟨d, -, hcur, hcursor, he⟩ := decodesFrame_frameBits hsame hready.readerOk hfin hu
  have hpos := aligned_cursor hready hcursor
  obtain ⟨cur, pos, hexec⟩ : ∃ cur pos, execDecFrame u = .next (u.withFrame cur pos) := by
    have hlen : (pixelsOf (e.fin.readList 0 u.params.npix)).length = u.params.npix :=
      frameIn_length u.params.npix e
    have hlegal := frameIn_legal hfin
    rw [frameBits_eq, ← hsame.bpp] at hu
    rw [← hsame.bpp] at hlegal
    by_cases hz : e.frames = 0
    · rw [if_pos hz] at hu
      obtain ⟨v, hv, -, -, hframe⟩ := decFrameReadsTheLiteralFrame u hsame.active
        (hsame.frames.trans hz) hready (by
          rw [hu, List.length_append, pixelBits_length, hlen]
          exact Nat.le_add_right _ _)
      exact ⟨_, _, hv.trans (congrArg _ hframe)⟩
    · rw [if_neg hz] at hu
      obtain ⟨v, hv, -, -, -, hframe⟩ := decFrameExecutesTheRuns u _ rest hsame.active
        (hsame.frames ▸ hz) hready (chooseRuns_ok _ _ _ hlegal) ((chooseRuns_pixels _ _).trans hlen)
        hu
      exact ⟨_, _, hv.trans (congrArg _ hframe)⟩
  have hframe : finishFrame { u with dec := d } = u.withFrame cur pos := by
    injection he.symm.trans hexec
  have hcur' : d.cur = cur := congrArg (fun s : State => s.dec.cur) hframe
  have hpos' : d.pos = pos := congrArg (fun s : State => s.dec.pos) hframe
  refine ⟨cur, pos, hexec, hcur' ▸ hcur, ?_⟩
  rw [← hpos', hpos, wireBytes_length]

section
variable {k : Nat} {s t u w : State} {len : BitVec 24}

/-- The bits of the frame ENC_FRAME stores next are the next ones DEC reads (R61). -/
theorem FollowsEncoder.unreadBits_eq (hw : FollowsEncoder u s w) (hs : EncodingStream (k + 1) s)
    (hexec : execEncFrame len s = .next t) (ht : t.enc.phase ≠ .error) (htu : StreamExtends t u) :
    ∃ rest, unreadBits w.dec = frameBits s.params.npix s.enc ++ rest := by
  obtain ⟨-, hout, hobuf, -⟩ :=
    execEncFrame_stores hs.ready (hs.unfinished k.succ_pos) hexec ht
  have hgrows := htu.grows
  have hstart : w.dec.pos.toNat = s.enc.outLen.toNat := by rw [hw.pos]
  have hend : w.dec.inLen.toNat = u.enc.outLen.toNat := by rw [hw.inLen]
  refine unreadBits_wireBytes hw.ready (by omega) ?_
  rw [hstart]
  refine Eq.trans (Mem.readList_congr fun a _ ha => ?_) hobuf
  exact (hw.input a (by omega)).trans (htu.bytes a (by omega))

/-- One frame further on both sides (R157, R200). -/
theorem FollowsEncoder.withFrame {cur : Mem 7} (hw : FollowsEncoder u s w)
    (hst : StreamExtends s t) (htu : StreamExtends t u)
    (hframes : t.enc.frames = s.enc.frames + 1)
    (hcur : cur.readList 0 t.params.npix = referenceFrame t.params.npix t.enc) :
    FollowsEncoder u t (w.withFrame cur t.enc.outLen) := by
  obtain ⟨hcnt, hacc, -⟩ := hw.ready
  have hphase : (w.withFrame cur t.enc.outLen).dec.phase =
      if t.enc.frames = t.enc.nframes then .allRead else .active := by
    rw [hframes, hst.nframes, ← hw.frames, ← hw.nframes]
    rfl
  refine ⟨hw.params.trans hst.params.symm, ⟨hcnt, hacc, ?_⟩, rfl, hw.inLen, hw.input,
    hw.nframes.trans hst.nframes.symm, ?_, hw.bpp.trans hst.bpp.symm, hphase, fun _ => hcur⟩
  · show t.enc.outLen ≤ w.dec.inLen
    rw [hw.inLen]
    exact BitVec.le_def.2 htu.grows
  · show w.dec.frames + 1 = t.enc.frames
    rw [hframes, hw.frames]

/-- DEC_FRAME follows ENC_FRAME: it decodes the frame ENC has encoded, and DEC is again where ENC is
(R203). -/
theorem FollowsEncoder.next (hw : FollowsEncoder u s w) (hs : EncodingStream (k + 1) s)
    (hexec : execEncFrame len s = .next t) (ht : t.enc.phase ≠ .error) (htu : StreamExtends t u) :
    ∃ x, execDecFrame w = .next x ∧ x.dec.phase ≠ .error ∧
      x.dec.cur.readList 0 x.params.npix = t.enc.ref.readList 0 t.params.npix ∧
      FollowsEncoder u t x := by
  obtain ⟨hfin, hout, -, href⟩ :=
    execEncFrame_stores hs.ready (hs.unfinished k.succ_pos) hexec ht
  obtain ⟨rest, hu⟩ := hw.unreadBits_eq hs hexec ht htu
  have hst := hs.stream_extends hexec ht
  have hactive : w.dec.phase = .active :=
    hw.phase.trans (if_neg fun he => k.succ_ne_zero (hs.frames_eq_nframes_iff.1 he))
  have hsame : AtSameFrame w.params.npix s.enc w.dec :=
    ⟨hactive, hw.frames, hw.bpp, fun hz => by rw [hw.params]; exact hw.reference hz⟩
  rw [← hw.params] at hu hfin
  obtain ⟨cur, pos, hdec, hcur, hpos⟩ := execDecFrame_frameBits hsame hw.ready hfin hu
  rw [hw.params] at hcur hpos
  have hpos' : pos = t.enc.outLen :=
    BitVec.eq_of_toNat_eq (by rw [hpos, hout, hw.pos])
  have hcur' : cur.readList 0 t.params.npix = referenceFrame t.params.npix t.enc := by
    rw [hst.params]
    exact hcur.trans href.symm
  have hfollows := hw.withFrame hst htu (hs.frames_next hexec ht) hcur'
  subst hpos'
  refine ⟨_, hdec, ?_, ?_, hfollows⟩
  · rw [hfollows.phase]
    split <;> simp
  · rw [hfollows.params]
    exact hcur'

end

theorem decodeFrames_succ {k : Nat} {s t u : State} {gs : List (List Pixel)}
    (ht : execDecFrame s = .next t) (hp : t.dec.phase ≠ .error)
    (h : decodeFrames k t = some (gs, u)) :
    decodeFrames (k + 1) s = some (t.dec.cur.readList 0 t.params.npix :: gs, u) := by
  have hexec : exec .decFrame s = .next t := ht
  simp only [decodeFrames, hexec, if_neg hp, h]

/-- A decoder that follows ENC decodes the frames that are left, each equal to E_REF after it (R203). -/
theorem decodeFrames_follows (gs : List (List Byte)) {s u w : State} {refs : List (List Pixel)}
    (hs : EncodingStream gs.length s) (hg : ∀ g ∈ gs, g.length = s.params.npix)
    (h : encodeFrames gs s = some (refs, u)) (hw : FollowsEncoder u s w) :
    ∃ x, decodeFrames gs.length w = some (refs, x) ∧ FollowsEncoder u u x := by
  induction gs generalizing s w refs with
  | nil =>
    cases h
    exact ⟨w, rfl, hw⟩
  | cons g gs ih =>
    obtain ⟨t, refs', hexec, ht, hrest, rfl⟩ := encodeFrames_cons_some h
    have hload := hs.loadFrame g
    have hst : StreamExtends s t := (hload.stream_extends hexec ht).of_loadFrame
    have hg' : ∀ g' ∈ gs, g'.length = t.params.npix := fun g' h' => by
      rw [hst.params]; exact hg g' (by simp [h'])
    have ht' := hload.next hexec ht
    obtain ⟨-, htu, -⟩ := encodeFrames_ends gs ht' hg' hrest
    obtain ⟨x, hx, hp, hcur, hfollows⟩ := (hw.loadFrame g).next hload hexec ht htu
    obtain ⟨y, hy, hend⟩ := ih ht' hg' hrest hfollows
    exact ⟨y, by rw [← hcur]; exact decodeFrames_succ hx hp hy, hend⟩

/-- DEC_INIT on the finished stream reads ENC's header, and DEC stands where ENC stood behind it (R191,
R192). -/
theorem execDecInit_follows {t u v : State} {nf iv bpp : Byte} {pal : List Byte}
    (ht : HeaderWritten nf iv bpp pal t) (htu : StreamExtends t u) (hparams : v.params = t.params)
    (hv : v.dec = resetDecRegisters v.dec) (hcap : u.enc.outLen.toNat ≤ v.params.ibufCap)
    (hin : ∀ a < u.enc.outLen.toNat, v.dec.ibuf.read a = u.enc.obuf.read a) :
    ∃ w, execDecInit u.enc.outLen v = .next w ∧ w.dec.interval = iv ∧
      w.dec.pal.readList 0 pal.length = pal ∧ FollowsEncoder u t w := by
  have hlen := ht.outLen
  have hpal := ht.palette
  have hgrows := htu.grows
  obtain ⟨hnf, hiv, hb, hb8⟩ := ht.range
  have hbytes : v.dec.ibuf.readList 0 (headerBytes nf iv bpp pal).length =
      headerBytes nf iv bpp pal := by
    refine Eq.trans (Mem.readList_congr fun a _ ha => ?_) ht.bytes
    exact (hin a (by omega)).trans (htu.bytes a (by omega))
  obtain ⟨h0, h1, h2, h3⟩ := Mem.read_headerBytes hbytes
  rw [headerBytes_length, hpal] at hlen
  have hidle : v.dec.phase = .idle := congrArg Dec.phase hv
  have hfit : 3 + 3 * 2 ^ (v.dec.ibuf.read 2).toNat ≤ u.enc.outLen.toNat := by
    rw [h2]
    exact hlen.symm.trans_le hgrows
  obtain ⟨w, hw, ⟨hstored, -⟩, hweq⟩ := decInitReadsTheHeader v u.enc.outLen hidle hcap
    (h0.symm ▸ hnf) (h1.symm ▸ hiv) (h2.symm ▸ hb) (h2.symm ▸ hb8) hfit
  have hpos : BitVec.ofNat 24 (3 + 3 * 2 ^ bpp.toNat) = t.enc.outLen :=
    BitVec.eq_of_toNat_eq (by
      rw [BitVec.toNat_ofNat, hlen]
      exact Nat.mod_eq_of_lt (hlen ▸ t.enc.outLen.isLt))
  rw [h0, h1, h2, hpos] at hweq
  rw [h2, Mem.readList_length] at hstored
  have hne : t.enc.frames ≠ t.enc.nframes := by
    rw [ht.frames, ht.nframes]
    exact fun he => hnf.ne (congrArg BitVec.toNat he)
  refine ⟨w, hw, by rw [hweq], ?_, ⟨by rw [hweq, ← hparams], ?_, by rw [hweq], by rw [hweq],
    fun a ha => by rw [hweq]; exact hin a ha, by rw [hweq, ht.nframes], by rw [hweq, ht.frames],
    by rw [hweq, ht.bpp]; rfl, by rw [hweq, if_neg hne], fun hz => absurd ht.frames hz⟩⟩
  · rw [hpal] at h3 ⊢
    exact hstored.trans h3
  · rw [hweq]
    exact ⟨rfl, rfl, BitVec.le_def.2 hgrows⟩

/-- Settles O60: ENC opens the stream and encodes each frame, and DEC follows it frame by frame to the
end, where no byte is left. -/
theorem decodingInvertsEncoding : Obligations.DecodingInvertsEncoding := by
  intro s t u v nf iv bpp frames refs hvalid hvparams hsreset hcount hg hheader ht hencode hvreset
    hcap hinput
  obtain ⟨hparams, hopen, hwritten⟩ := execEncHeader_opens hvalid hsreset hheader ht
  rw [← hparams] at hg hcap hvparams
  rw [← hcount] at hopen
  have hin : ∀ a < u.enc.outLen.toNat, v.dec.ibuf.read a = u.enc.obuf.read a :=
    fun a ha => Mem.read_eq_of_readList hinput ha
  obtain ⟨hend, htu, hrefs⟩ := encodeFrames_ends frames hopen hg hencode
  obtain ⟨w, hw, hinterval, hpal, hfollows⟩ :=
    execDecInit_follows hwritten htu hvparams hvreset (hvparams ▸ hcap) hin
  obtain ⟨x, hx, hlast⟩ := decodeFrames_follows frames hopen hg hencode hfollows
  have hallRead : x.dec.phase = .allRead :=
    hlast.phase.trans (if_pos (hend.frames_eq_nframes_iff.2 rfl))
  have hconsumed : x.dec.pos = x.dec.inLen := hlast.pos.trans hlast.inLen.symm
  have hcheck := (execDecCheckEnd_allRead hallRead).trans (if_pos hconsumed)
  have hbpp : w.dec.bpp = bppField bpp := hfollows.bpp.trans hwritten.bpp
  have hnframes := hfollows.nframes
  rw [Mem.readList_length] at hpal
  obtain ⟨-, -, -, hb8⟩ := hwritten.range
  exact ⟨hend.finished rfl, hrefs, w, hw, hnframes.trans htu.nframes.symm,
    hinterval.trans (htu.interval.trans hwritten.interval).symm, hfollows.bpp.trans htu.bpp.symm,
    hnframes.trans hwritten.nframes, hinterval, hbpp ▸ bppField_toNat hb8, hpal, x, hx, _, hcheck,
    rfl⟩

end Sys2Proof.Machine

/-!
The ERROR phase (60_exceptions.md R239, R243). A host event between commands is a word at E_CMD, a word
at D_CMD or an access. A word at a command register is RESET, or a command that its unit's ERROR phase
ignores, and acts on that unit alone. An access but the reset input stays within `HostReaches`, which
no PHASE and no ERR is part of.
-/

namespace Sys2Proof.Machine

/-! ## The words of the command registers (R24, R38, R103) -/

/-- A command event is a write of E_CMD or of D_CMD (R24, R38). -/
theorem commandOf_cases (p : Params) (ev : HostEvent) :
    commandOf p ev = none ∨ (∃ w, ev = .regWrite (p.blockBase + offECmd) w) ∨
      (∃ w, ev = .regWrite (p.blockBase + offDCmd) w) := by
  cases ev with
  | regRead | memWrite | memRead | resetInput => exact .inl rfl
  | regWrite addr w =>
    by_cases hE : addr = p.blockBase + offECmd
    · exact .inr (.inl ⟨w, by rw [hE]⟩)
    by_cases hD : addr = p.blockBase + offDCmd
    · exact .inr (.inr ⟨w, by rw [hD]⟩)
    left
    by_cases hin : p.blockBase ≤ addr ∧ addr < p.blockBase + 512
    · obtain ⟨off, rfl⟩ := Nat.exists_eq_add_of_le hin.1
      rw [commandOf_regWrite p w (by omega), if_neg (fun h => hE (by rw [h])),
        if_neg (fun h => hD (by rw [h]))]
    · have hout : windowOffset p addr = none := if_neg hin
      simp only [commandOf, hout]

/-- What a word at E_CMD runs, by its OP (R101, R103). -/
theorem takeEvent_eCmd_cases (w : Word) (s : State) :
    let f := takeEvent (.regWrite (s.params.blockBase + offECmd) w)
    ((opField w).toNat = 1 ∧ f s = execEncReset s) ∨
    (∃ nf iv bpp, f s = execEncHeader nf iv bpp s) ∨ (∃ len, f s = execEncFrame len s) ∨
      f s = reservedEncCommand s := by
  have hc := commandOf_regWrite s.params w (off := offECmd) (by decide)
  obtain h | h | h | h : (opField w).toNat = 1 ∨ (opField w).toNat = 2 ∨ (opField w).toNat = 3 ∨
      ((opField w).toNat = 0 ∨ 4 ≤ (opField w).toNat) := by omega
  · exact .inl ⟨h, takeEvent_command hc (decodeEnc_encReset h)⟩
  · exact .inr (.inl ⟨_, _, _, takeEvent_command hc (decodeEnc_encHeader h)⟩)
  · exact .inr (.inr (.inl ⟨_, takeEvent_command hc (decodeEnc_encFrame h)⟩))
  · exact .inr (.inr (.inr (takeEvent_rejected hc (decodeEnc_reserved h))))

/-- What a word at D_CMD runs, by its OP (R102, R103). -/
theorem takeEvent_dCmd_cases (w : Word) (s : State) :
    let f := takeEvent (.regWrite (s.params.blockBase + offDCmd) w)
    ((opField w).toNat = 1 ∧ f s = execDecReset s) ∨ (∃ len, f s = execDecInit len s) ∨
      f s = execDecFrame s ∨ f s = execDecCheckEnd s ∨ f s = reservedDecCommand s := by
  have hc := commandOf_regWrite s.params w (off := offDCmd) (by decide)
  obtain h | h | h | h | h : (opField w).toNat = 1 ∨ (opField w).toNat = 2 ∨
      (opField w).toNat = 3 ∨ (opField w).toNat = 4 ∨
        ((opField w).toNat = 0 ∨ 5 ≤ (opField w).toNat) := by omega
  · exact .inl ⟨h, takeEvent_command hc (decodeDec_decReset h)⟩
  · exact .inr (.inl ⟨_, takeEvent_command hc (decodeDec_decInit h)⟩)
  · exact .inr (.inr (.inl (takeEvent_command hc (decodeDec_decFrame h))))
  · exact .inr (.inr (.inr (.inl (takeEvent_command hc (decodeDec_decCheckEnd h)))))
  · exact .inr (.inr (.inr (.inr (takeEvent_rejected hc (decodeDec_reserved h)))))

section
variable {s t : State} {w : Word}

/-- A word at E_CMD acts on ENC alone (R17, R248). -/
theorem takeEvent_eCmd_changesOnly
    (ht : takeEvent (.regWrite (s.params.blockBase + offECmd) w) s = .next t) :
    ChangesOnly .enc s t := by
  rcases takeEvent_eCmd_cases w s with ⟨-, he⟩ | ⟨nf, iv, bpp, he⟩ | ⟨len, he⟩ | he
  · exact ((exec_actsOnUnit .encReset s).of_next (he.symm.trans ht)).1
  · exact ((execEncHeader_actsOnUnit nf iv bpp s).of_next (he.symm.trans ht)).1
  · exact ((execEncFrame_actsOnUnit len s).of_next (he.symm.trans ht)).1
  · exact ((reservedEncCommand_actsOnUnit s).of_next (he.symm.trans ht)).1

/-- A word at D_CMD acts on DEC alone (R17, R248). -/
theorem takeEvent_dCmd_changesOnly
    (ht : takeEvent (.regWrite (s.params.blockBase + offDCmd) w) s = .next t) :
    ChangesOnly .dec s t := by
  rcases takeEvent_dCmd_cases w s with ⟨-, he⟩ | ⟨len, he⟩ | he | he | he
  · exact ((exec_actsOnUnit .decReset s).of_next (he.symm.trans ht)).1
  · exact ((execDecInit_actsOnUnit len s).of_next (he.symm.trans ht)).1
  · exact ((execDecFrame_actsOnUnit s).of_next (he.symm.trans ht)).1
  · exact ((execDecCheckEnd_actsOnUnit s).of_next (he.symm.trans ht)).1
  · exact ((reservedDecCommand_actsOnUnit s).of_next (he.symm.trans ht)).1

/-- In EP_ERROR a word at E_CMD but RESET changes no state (R239). -/
theorem takeEvent_eCmd_ignored (he : s.enc.phase = .error) (hop : (opField w).toNat ≠ 1) :
    takeEvent (.regWrite (s.params.blockBase + offECmd) w) s = .next s := by
  rcases takeEvent_eCmd_cases w s with ⟨hreset, -⟩ | ⟨_, _, _, h⟩ | ⟨_, h⟩ | h
  · exact absurd hreset hop
  all_goals exact h.trans (ErrorPhase.enc _ he)

/-- In DP_ERROR a word at D_CMD but RESET changes no state (R239). -/
theorem takeEvent_dCmd_ignored (he : s.dec.phase = .error) (hop : (opField w).toNat ≠ 1) :
    takeEvent (.regWrite (s.params.blockBase + offDCmd) w) s = .next s := by
  rcases takeEvent_dCmd_cases w s with ⟨hreset, -⟩ | ⟨_, h⟩ | h | h | h
  · exact absurd hreset hop
  all_goals exact h.trans (ErrorPhase.dec _ he)

end

/-! ## The host's accesses (R28, R67, R69) -/

/-- `t` differs from `s` at most in what the host may write, E_PAL_LEN and the entries of E_PAL, E_FIN
and D_IBUF (R28, R67), and in what it read last (log 3). -/
def HostReaches (s t : State) : Prop :=
  t = { s with
    enc := { s.enc with palLen := t.enc.palLen, pal := t.enc.pal, fin := t.enc.fin }
    dec := { s.dec with ibuf := t.dec.ibuf }
    rdata := t.rdata }

theorem HostReaches.enc_phase_err {s t : State} (h : HostReaches s t) :
    t.enc.phase = s.enc.phase ∧ t.enc.err = s.enc.err := by
  rw [show t = _ from h]
  exact ⟨rfl, rfl⟩

theorem HostReaches.dec_phase_err {s t : State} (h : HostReaches s t) :
    t.dec.phase = s.dec.phase ∧ t.dec.err = s.dec.err := by
  rw [show t = _ from h]
  exact ⟨rfl, rfl⟩

theorem writeRegister_hostReaches (off : Nat) (w : Word) (s : State) :
    HostReaches s (writeRegister off w s) := by
  unfold writeRegister
  split <;> rfl

theorem writePort_hostReaches (m : HostMem) (i : Nat) (b : Byte) (s : State) :
    HostReaches s (writePort m i b s) := by
  rcases writePort_cases m i b s with he | ⟨-, he⟩ | ⟨-, he⟩ | ⟨-, he⟩ <;> rw [he] <;> rfl

theorem hostAccess_hostReaches {ev : HostEvent} (s : State) (hev : ev ≠ .resetInput) :
    HostReaches s (hostAccess ev s) := by
  cases ev with
  | regWrite addr w =>
    simp only [hostAccess]
    split
    · exact writeRegister_hostReaches _ w s
    · rfl
  | regRead addr =>
    simp only [hostAccess]
    split <;> rfl
  | memWrite m i b => exact writePort_hostReaches m i b s
  | memRead m i => rfl
  | resetInput => exact absurd rfl hev

/-- Everything an event but the reset input can be between commands (R17, R69). -/
theorem takeEvent_next_cases {ev : HostEvent} {s t : State} (hev : ev ≠ .resetInput)
    (ht : takeEvent ev s = .next t) :
    (∃ w, ev = .regWrite (s.params.blockBase + offECmd) w ∧ ChangesOnly .enc s t) ∨
    (∃ w, ev = .regWrite (s.params.blockBase + offDCmd) w ∧ ChangesOnly .dec s t) ∨
      HostReaches s t := by
  rcases commandOf_cases s.params ev with hc | ⟨w, rfl⟩ | ⟨w, rfl⟩
  · cases (takeEvent_access hc).symm.trans ht
    exact .inr (.inr (hostAccess_hostReaches s hev))
  · exact .inl ⟨w, rfl, takeEvent_eCmd_changesOnly ht⟩
  · exact .inr (.inl ⟨w, rfl, takeEvent_dCmd_changesOnly ht⟩)

/-! ## The obligations -/

/-- Settles O9: the step takes the word, and the unit ignores it. -/
theorem errorPhaseIgnoresCommands : Obligations.ErrorPhaseIgnoresCommands := by
  intro s w rest hb hop
  refine ⟨fun hh he => ?_, fun hh he => ?_⟩
  · rw [step_event hb hh]
    exact takeEvent_eCmd_ignored (s := { s with host := rest }) he hop
  · rw [step_event hb hh]
    exact takeEvent_dCmd_ignored (s := { s with host := rest }) he hop

/-- Settles O10: the event is a word its own unit ignores, a word for the other unit, or an access,
which reaches no PHASE and no ERR. -/
theorem onlyResetLeavesTheErrorPhase : Obligations.OnlyResetLeavesTheErrorPhase := by
  intro s t ev rest hb hh ht hev
  rw [step_event hb hh] at ht
  have hcases := takeEvent_next_cases hev ht
  refine ⟨fun he hreset => ?_, fun he hreset => ?_⟩
  · rcases hcases with ⟨w, rfl, -⟩ | ⟨-, -, hdec⟩ | hreach
    · cases (takeEvent_eCmd_ignored (s := { s with host := rest }) he (hreset w rfl)).symm.trans ht
      exact ⟨he, rfl⟩
    · rw [hdec.enc_eq]
      exact ⟨he, rfl⟩
    · obtain ⟨hphase, herr⟩ := hreach.enc_phase_err
      exact ⟨hphase.trans he, herr⟩
  · rcases hcases with ⟨-, -, henc⟩ | ⟨w, rfl, -⟩ | hreach
    · rw [henc.dec_eq]
      exact ⟨he, rfl⟩
    · cases (takeEvent_dCmd_ignored (s := { s with host := rest }) he (hreset w rfl)).symm.trans ht
      exact ⟨he, rfl⟩
    · obtain ⟨hphase, herr⟩ := hreach.dec_phase_err
      exact ⟨hphase.trans he, herr⟩

end Sys2Proof.Machine

/-!
Reset (70_reset_and_hazards.md R260 to R263). Both kinds of reset set a unit's registers alike and differ
only in its memories: the unit of the reset input is its own `resetEncRegisters` or
`resetDecRegisters`, which are what the RESET commands run. What a unit's registers read after either
kind, and that it meets the invariant, then need only that form.
-/

namespace Sys2Proof.Machine

/-! ## The two kinds of reset (R260, R262) -/

/-- The reset input leaves ENC with its registers reset and its memories unspecified (R262). -/
theorem Enc.afterReset_eq (k : Nat) : Enc.afterReset k = resetEncRegisters (.afterReset k) := rfl

/-- The reset input leaves DEC with its registers reset and its memories unspecified (R262). -/
theorem Dec.afterReset_eq (k : Nat) : Dec.afterReset k = resetDecRegisters (.afterReset k) := rfl

theorem exec_encReset (s : State) :
    exec .encReset s = .next { s with enc := resetEncRegisters s.enc } := rfl

theorem exec_decReset (s : State) :
    exec .decReset s = .next { s with dec := resetDecRegisters s.dec } := rfl

/-- Between commands a pulse of the reset input resets the block (R260). -/
theorem step_resetInput {s : State} {rest : List HostEvent} (hb : s.dec.busy = false)
    (hh : s.host = .resetInput :: rest) : step s = .next (resetBlock { s with host := rest }) := by
  rw [step_event hb hh, takeEvent_access rfl]
  rfl

/-! ## What the registers read after a reset (R261) -/

/-- E_STATUS after a reset: every field is 0 (R25, R261). -/
theorem encStatus_resetEncRegisters (e : Enc) : encStatus (resetEncRegisters e) = 0 := by
  have hfields : encStatus (resetEncRegisters e) =
      0#23 ++ BitVec.ofBool false ++ errCodeBits .none ++ 0#1 ++ encPhaseCode .idle := rfl
  rw [hfields]
  decide

/-- A header register with no header reads 0 (R30, R46). -/
theorem hdrWord_zero : hdrWord 0 0 0 = 0 := by decide

/-- ENC with its registers reset reads the values of R261's table. -/
theorem readRegister_encReset {t : State} {e : Enc} (h : t.enc = resetEncRegisters e) :
    readRegister t 0x000 = 0 ∧ readRegister t 0x004 = 0 ∧ readRegister t 0x008 = 0 ∧
      readRegister t 0x00C = 0 ∧ readRegister t 0x010 = 0 ∧ readRegister t 0x014 = 0 ∧
      t.enc.phase = .idle ∧ t.enc.err = .none ∧ t.enc.wAcc = 0 ∧ t.enc.wCnt = 0 := by
  cases t
  cases h
  exact ⟨rfl, encStatus_resetEncRegisters e, rfl, rfl, hdrWord_zero, rfl, rfl, rfl, rfl, rfl⟩

/-- DEC with its registers reset reads the values of R261's table. -/
theorem readRegister_decReset {t : State} {d : Dec} (h : t.dec = resetDecRegisters d) :
    readRegister t 0x100 = 0 ∧ readRegister t 0x104 = 0x200#32 ∧ readRegister t 0x108 = 0 ∧
      readRegister t 0x10C = 0 ∧ readRegister t 0x110 = 0 ∧ readRegister t 0x114 = 0 ∧
      t.dec.phase = .idle ∧ t.dec.err = .none ∧ t.dec.rAcc = 0 ∧ t.dec.rCnt = 0 := by
  cases t
  cases h
  exact ⟨rfl, decStatus_resetDecRegisters d, rfl, rfl, hdrWord_zero, rfl, rfl, rfl, rfl, rfl⟩

/-! ## The invariant at reset (R263) -/

/-- The machine after reset meets the invariant in every legal build, since unspecified memories are
in canonical form. -/
theorem State.resetOf_inv {p : Params} (hp : p.valid) : (State.resetOf p).Inv where
  params := hp
  enc := EncInv.after_reset (e := .afterReset 0) (Mem.unspecified_wf _ _) (Mem.unspecified_wf _ _)
    (Mem.unspecified_wf _ _) (Mem.unspecified_wf _ _)
  dec := DecInv.after_reset (d := .afterReset 4) (Mem.unspecified_wf _ _) (Mem.unspecified_wf _ _)
    (Mem.unspecified_wf _ _)

/-- The example build is within the bounds of R8, R10 and R23 (log 1). -/
theorem Params.example160x128_valid : Params.example160x128.valid := by decide

/-! ## The obligations -/

/-- Settles O17: either kind of reset leaves the unit with its registers reset. -/
theorem resetRegisterValues : Obligations.ResetRegisterValues :=
  ⟨fun s _ hb hh => ⟨_, step_resetInput hb hh, readRegister_encReset (Enc.afterReset_eq s.free),
      readRegister_decReset (Dec.afterReset_eq (s.free + 4))⟩,
    fun s => ⟨_, exec_encReset s, readRegister_encReset rfl⟩,
    fun s => ⟨_, exec_decReset s, readRegister_decReset rfl⟩⟩

/-- Settles O54: the example build is a legal one. -/
theorem resetMeetsTheInvariant : Obligations.ResetMeetsTheInvariant :=
  State.resetOf_inv Params.example160x128_valid

end Sys2Proof.Machine
